-- ==== Sys2Proof/Word.lean ====
section
/-! DEFINITION. The word types of the core (00_scope.md R10, R14) and the eight-word vector that the hash registers hold. -/

namespace Sys2Proof

/-- A byte of a byte string (00_scope.md R15). -/
abbrev Byte := BitVec 8

/-- A bus word, a command word or a 32-bit control register (20_memory.md R82, 30_encoding.md R110). -/
abbrev Word := BitVec 32

/-- A hash register word or an 8-byte cipher block (10_state.md R42, R43). -/
abbrev DWord := BitVec 64

/-- Eight words of `w` bits, word 0 first: the state of a hash (40_hash.md R146, R148). -/
structure Eight (w : Nat) where
  h0 : BitVec w
  h1 : BitVec w
  h2 : BitVec w
  h3 : BitVec w
  h4 : BitVec w
  h5 : BitVec w
  h6 : BitVec w
  h7 : BitVec w
  deriving DecidableEq, Repr

/-- The register form of a hash state: eight 64-bit words (10_state.md R42, R50). -/
abbrev HashWords := Eight 64

end Sys2Proof
end

