-- ==== Sys2Proof/Config.lean ====
section
/-! DEFINITION. The implementation parameters of 00_scope.md R9, at the values of its column "This hardware" (log 1). -/

namespace Sys2Proof.Config

/-- HAS_SHA1: whether SHA-1 can be selected (00_scope.md R8, R9). -/
def hasSha1 : Bool := false

/-- MSG_CAP: the capacity of MSG and of OUT in bytes (00_scope.md R9). -/
def msgCap : Nat := 4096

/-- KEY_CAP: the capacity of KEY in bytes (00_scope.md R9). -/
def keyCap : Nat := 256

/-- BN_BITS: the width of every wide register in bits (00_scope.md R9). -/
abbrev bnBits : Nat := 4096

/-- BN_BYTES, derived (00_scope.md R9). -/
def bnBytes : Nat := bnBits / 8

/-- The width of every curve register in bits: 8 * EC_BYTES (00_scope.md R9). -/
abbrev ecBits : Nat := 384

/-- EC_BYTES: the width of every curve register in bytes (00_scope.md R9). -/
def ecBytes : Nat := ecBits / 8

/-- RETRY_MAX: the number of nonce candidates ECSIGN tries (00_scope.md R9, 46_ecdsa.md R349). -/
def retryMax : Nat := 64

end Sys2Proof.Config
end

