-- ==== Sys2Proof/Syntax.lean ====
section
/-! DEFINITION. The syntax of the core: hash algorithms, fault names and the 23 commands of spec/opcode_table.json. -/

namespace Sys2Proof

/-- The hash algorithms of 00_scope.md R20. -/
inductive HashAlg where
  | sha1
  | sha256
  | sha384
  | sha512
  deriving DecidableEq, Repr

/-- The names of the command faults (60_exceptions.md R383). -/
inductive FaultCode where
  | unsupHash
  | unsupCurve
  | badPadding
  | keyInconsistent
  | rsaCapacity
  | lenOverflow
  | illegalCmd
  | badLength
  | badSequence
  | badOperand
  | notInvertible
  | nonceExhausted
  | pointAtInfinity
  deriving DecidableEq, Repr

/-- The commands, one constructor per row of spec/opcode_table.json (30_encoding.md R116).
`alg` is the four-bit ALG field as written; `k2`, `e128`, `fin`, `dg` are the MOD bits of R114. -/
inductive Instr where
  | nop
  | zeroize
  | hinit (alg : BitVec 4)
  | hupdate
  | hfinal
  | hcomp (alg : BitVec 4)
  | hash (alg : BitVec 4)
  | hmkey (alg : BitVec 4)
  | hminit
  | hmfinal
  | hmac (alg : BitVec 4)
  | tdesd (k2 fin : Bool)
  | rc2d (e128 fin : Bool)
  | modexp
  | modinv
  | modcrt
  | ecdbl
  | ecadd
  | ecmul
  | ecaff
  | ecldg
  | rsasign (alg : BitVec 4) (dg : Bool)
  | ecsign (alg : BitVec 4) (dg : Bool)
  deriving DecidableEq, Repr

end Sys2Proof
end

