-- ==== Sys2Proof/WellFormed.lean ====
section
/-! DEFINITION. Which commands are well formed: those whose ALG field names an algorithm the core has. -/

namespace Sys2Proof

/-- ALG names a hash this core has: 2 to 4, and 1 where HAS_SHA1 = 1 (30_encoding.md R113). -/
def algAvailable (alg : BitVec 4) : Bool :=
  (alg == 1#4 && Config.hasSha1) || alg == 2#4 || alg == 3#4 || alg == 4#4

/-- A command is well formed when 30_encoding.md R117 decodes its word: its ALG field, where it takes one, is available. -/
def Instr.wf : Instr → Bool
  | .nop => true
  | .zeroize => true
  | .hinit alg => algAvailable alg
  | .hupdate => true
  | .hfinal => true
  | .hcomp alg => algAvailable alg
  | .hash alg => algAvailable alg
  | .hmkey alg => algAvailable alg
  | .hminit => true
  | .hmfinal => true
  | .hmac alg => algAvailable alg
  | .tdesd _ _ => true
  | .rc2d _ _ => true
  | .modexp => true
  | .modinv => true
  | .modcrt => true
  | .ecdbl => true
  | .ecadd => true
  | .ecmul => true
  | .ecaff => true
  | .ecldg => true
  | .rsasign alg _ => algAvailable alg
  | .ecsign alg _ => algAvailable alg

end Sys2Proof
end

