-- ==== Sys2Proof/Decode.lean ====
section
/-! DEFINITION. Decoding and encoding of the command word (30_encoding.md R110 to R119). -/

namespace Sys2Proof

/-- OPC = c[31:24] (30_encoding.md R111). -/
def fieldOpc (c : Word) : BitVec 8 := c.extractLsb' 24 8

/-- ALG = c[23:20] (30_encoding.md R111). -/
def fieldAlg (c : Word) : BitVec 4 := c.extractLsb' 20 4

/-- MOD = c[19:16] (30_encoding.md R111). -/
def fieldMod (c : Word) : BitVec 4 := c.extractLsb' 16 4

/-- RSV = c[15:0] (30_encoding.md R111). -/
def fieldRsv (c : Word) : BitVec 16 := c.extractLsb' 0 16

/-- One row of the opcode map of 30_encoding.md R116: whether column ALG is "1..4", the MOD mask, and the command that
the row's ALG and MOD fields make. -/
structure OpRow where
  takesAlg : Bool
  modMask : BitVec 4
  build : BitVec 4 → BitVec 4 → Instr

/-- A row whose command takes no algorithm and no modifier. -/
def plainRow (i : Instr) : OpRow := ⟨false, 0b0000#4, fun _ _ => i⟩

/-- A row whose command takes an algorithm and no modifier. -/
def algRow (f : BitVec 4 → Instr) : OpRow := ⟨true, 0b0000#4, fun alg _ => f alg⟩

/-- The opcode map of 30_encoding.md R116, with the MOD bits of R114: bit 0 is FINAL or DG, bit 1 is K2 or E128. -/
def opRow (opc : BitVec 8) : Option OpRow :=
  match opc.toNat with
  | 0x00 => some (plainRow .nop)
  | 0x01 => some (plainRow .zeroize)
  | 0x10 => some (algRow .hinit)
  | 0x11 => some (plainRow .hupdate)
  | 0x12 => some (plainRow .hfinal)
  | 0x13 => some (algRow .hcomp)
  | 0x14 => some (algRow .hash)
  | 0x20 => some (algRow .hmkey)
  | 0x21 => some (plainRow .hminit)
  | 0x22 => some (plainRow .hmfinal)
  | 0x23 => some (algRow .hmac)
  | 0x30 => some ⟨false, 0b0011#4, fun _ m => .tdesd (m.getLsbD 1) (m.getLsbD 0)⟩
  | 0x31 => some ⟨false, 0b0011#4, fun _ m => .rc2d (m.getLsbD 1) (m.getLsbD 0)⟩
  | 0x40 => some (plainRow .modexp)
  | 0x41 => some (plainRow .modinv)
  | 0x42 => some (plainRow .modcrt)
  | 0x50 => some (plainRow .ecdbl)
  | 0x51 => some (plainRow .ecadd)
  | 0x52 => some (plainRow .ecmul)
  | 0x53 => some (plainRow .ecaff)
  | 0x54 => some (plainRow .ecldg)
  | 0x60 => some ⟨true, 0b0001#4, fun alg m => .rsasign alg (m.getLsbD 0)⟩
  | 0x70 => some ⟨true, 0b0001#4, fun alg m => .ecsign alg (m.getLsbD 0)⟩
  | _ => none

/-- The ILLEGAL_CMD lines of 30_encoding.md R117, in its order: the command a word stands for, its ALG field as written.
The two UNSUP_HASH lines are in `decodeCommand` and are each command's first check (log 6). -/
def decode (c : Word) : Except FaultCode Instr :=
  if fieldRsv c ≠ 0 then .error .illegalCmd
  else match opRow (fieldOpc c) with
    | none => .error .illegalCmd
    | some row =>
      if fieldMod c &&& ~~~row.modMask ≠ 0 then .error .illegalCmd
      else if row.takesAlg = false ∧ fieldAlg c ≠ 0 then .error .illegalCmd
      else .ok (row.build (fieldAlg c) (fieldMod c))

/-- 30_encoding.md R117 whole: a word decodes to one well-formed command or is refused with one code. -/
def decodeCommand (c : Word) : Except FaultCode Instr :=
  match decode c with
  | .error e => .error e
  | .ok i => if i.wf then .ok i else .error .unsupHash

/-- The operation code of a command (30_encoding.md R116). -/
def encodeOpc : Instr → BitVec 8
  | .nop => 0x00
  | .zeroize => 0x01
  | .hinit _ => 0x10
  | .hupdate => 0x11
  | .hfinal => 0x12
  | .hcomp _ => 0x13
  | .hash _ => 0x14
  | .hmkey _ => 0x20
  | .hminit => 0x21
  | .hmfinal => 0x22
  | .hmac _ => 0x23
  | .tdesd _ _ => 0x30
  | .rc2d _ _ => 0x31
  | .modexp => 0x40
  | .modinv => 0x41
  | .modcrt => 0x42
  | .ecdbl => 0x50
  | .ecadd => 0x51
  | .ecmul => 0x52
  | .ecaff => 0x53
  | .ecldg => 0x54
  | .rsasign _ _ => 0x60
  | .ecsign _ _ => 0x70

/-- The ALG field of a command: 0 where it takes no algorithm (30_encoding.md R113). -/
def encodeAlg : Instr → BitVec 4
  | .hinit alg => alg
  | .hcomp alg => alg
  | .hash alg => alg
  | .hmkey alg => alg
  | .hmac alg => alg
  | .rsasign alg _ => alg
  | .ecsign alg _ => alg
  | .nop => 0
  | .zeroize => 0
  | .hupdate => 0
  | .hfinal => 0
  | .hminit => 0
  | .hmfinal => 0
  | .tdesd _ _ => 0
  | .rc2d _ _ => 0
  | .modexp => 0
  | .modinv => 0
  | .modcrt => 0
  | .ecdbl => 0
  | .ecadd => 0
  | .ecmul => 0
  | .ecaff => 0
  | .ecldg => 0

/-- The MOD field made of its two assigned bits (30_encoding.md R114). -/
def modBits (bit1 bit0 : Bool) : BitVec 4 := 0#2 ++ BitVec.ofBool bit1 ++ BitVec.ofBool bit0

/-- The MOD field of a command (30_encoding.md R114). -/
def encodeMod : Instr → BitVec 4
  | .tdesd k2 fin => modBits k2 fin
  | .rc2d e128 fin => modBits e128 fin
  | .rsasign _ dg => modBits false dg
  | .ecsign _ dg => modBits false dg
  | .nop => 0
  | .zeroize => 0
  | .hinit _ => 0
  | .hupdate => 0
  | .hfinal => 0
  | .hcomp _ => 0
  | .hash _ => 0
  | .hmkey _ => 0
  | .hminit => 0
  | .hmfinal => 0
  | .hmac _ => 0
  | .modexp => 0
  | .modinv => 0
  | .modcrt => 0
  | .ecdbl => 0
  | .ecadd => 0
  | .ecmul => 0
  | .ecaff => 0
  | .ecldg => 0

/-- The word of a command: OPC, ALG, MOD, RSV = 0 from the most significant bit down (30_encoding.md R111, R120). -/
def encode (i : Instr) : Word := encodeOpc i ++ encodeAlg i ++ encodeMod i ++ 0#16

/-- The command read from a table word: a command is one 32-bit word and has no bytes beyond it (30_encoding.md R110). -/
def decodeTableWord (nbits w : Nat) : Option Instr :=
  match decode (BitVec.ofNat 32 (w % 2 ^ nbits)) with
  | .ok i => some i
  | .error _ => none

end Sys2Proof
end

