-- ==== Sys2Proof/Machine/State.lean ====
section
/-! DEFINITION. The state of the core as plain data (10_state.md R30), the reasons a step can stop, and the state after
reset (10_state.md R53). -/

namespace Sys2Proof.Machine

/-- The stored bits of STATUS (10_state.md R37); bit 5, IRQ, is computed (R52). -/
structure Status where
  busy : Bool
  done : Bool
  err : Bool
  esticky : Bool
  wrbusy : Bool
  deriving DecidableEq, Repr

/-- The hash stream's flags HOPEN, HMODE and HALG of 10_state.md R41, stored once: no stream, an open plain hash under
an algorithm, or an open inner hash of an HMAC under an algorithm (log 9). -/
inductive StreamMode where
  | closed
  | plain (a : HashAlg)
  | hmac (a : HashAlg)
  deriving DecidableEq, Repr

/-- The three coordinate registers of a Jacobian point (10_state.md R48). -/
structure Point where
  x : BitVec Config.ecBits
  y : BitVec Config.ecBits
  z : BitVec Config.ecBits
  deriving DecidableEq, Repr

/-- The five RSA key registers (10_state.md R45). -/
structure RsaKey where
  p : BitVec Config.bnBits
  q : BitVec Config.bnBits
  dp : BitVec Config.bnBits
  dq : BitVec Config.bnBits
  qinv : BitVec Config.bnBits
  deriving DecidableEq, Repr

/-- What the host, the platform and the schedule can make happen next (00_scope.md R11, 20_memory.md R94; log 2).
`width` is in bytes, as in `MemRead(off, 4)` (00_scope.md R19). -/
inductive BusEvent where
  /-- The host reads at an offset (20_memory.md R83). -/
  | read (off width : Nat)
  /-- The host writes a value at an offset (20_memory.md R84). -/
  | write (off width : Nat) (v : Word)
  /-- The core moves here: it performs the pending command, if there is one (20_memory.md R91). -/
  | core
  /-- The host writes STATUS in the very step in which the core moves (10_state.md R37, last paragraph). -/
  | coreWithStatusWrite (v : Word)
  /-- The platform asserts reset (70_reset_and_hazards.md R420). -/
  | reset
  deriving DecidableEq, Repr

/-- The bytes of KEY, MSG and OUT at their window offsets, as address and byte pairs in one canonical form: addresses
strictly rising, no entry equal to 0x00, which is what an unlisted address reads as (10_state.md R53). -/
abbrev Memory := List Host.Cell

/-- The canonical form of a memory. -/
abbrev Memory.wf (m : Memory) : Prop :=
  m.Pairwise (fun a b => a.1 < b.1) ∧ ∀ c ∈ m, c.2 ≠ 0

/-- The whole state of the core (10_state.md R30), and the model's own `inputs` and `busReads`. -/
structure State where
  /-- CMD, the command word last accepted (10_state.md R33). -/
  cmd : Word
  /-- STATUS (10_state.md R37). -/
  status : Status
  /-- ERR bits 7:0, the fault code of the last ended command (10_state.md R38). -/
  err : BitVec 8
  /-- IE bits 1:0: bit 0 DONE_IE, bit 1 ERR_IE (10_state.md R36). -/
  ie : BitVec 2
  /-- MSGLEN (10_state.md R39). -/
  msglen : Word
  /-- KEYLEN (10_state.md R39). -/
  keylen : Word
  /-- OUTLEN (10_state.md R39). -/
  outlen : Word
  /-- TOTLEN (10_state.md R40). -/
  totlen : BitVec 64
  /-- HOPEN, HMODE, HALG of HSTAT (10_state.md R41). -/
  stream : StreamMode
  /-- CURVE (10_state.md R47). -/
  curve : Word
  /-- NBITS (10_state.md R46). -/
  nbits : Word
  /-- HST[0..7] (10_state.md R42). -/
  hst : HashWords
  /-- IV, byte 0 in bits 63:56 (10_state.md R43). -/
  iv : DWord
  /-- BN_A (10_state.md R44). -/
  bnA : BitVec Config.bnBits
  /-- BN_E (10_state.md R44). -/
  bnE : BitVec Config.bnBits
  /-- BN_M (10_state.md R44). -/
  bnM : BitVec Config.bnBits
  /-- BN_R (10_state.md R44). -/
  bnR : BitVec Config.bnBits
  /-- RSA_P, RSA_Q, RSA_DP, RSA_DQ, RSA_QINV (10_state.md R45). -/
  rsa : RsaKey
  /-- EC_D (10_state.md R47). -/
  ecD : BitVec Config.ecBits
  /-- EC_K (10_state.md R48). -/
  ecK : BitVec Config.ecBits
  /-- PX, PY, PZ (10_state.md R48). -/
  pP : Point
  /-- QX, QY, QZ (10_state.md R48). -/
  pQ : Point
  /-- RX, RY, RZ (10_state.md R48). -/
  pR : Point
  /-- KEY, MSG and OUT (10_state.md R49). -/
  mem : Memory
  /-- HM_I[0..7], hidden (10_state.md R50). -/
  hmI : HashWords
  /-- HM_O[0..7], hidden (10_state.md R50). -/
  hmO : HashWords
  /-- HMVALID and HM_ALG of HSTAT: none is HMVALID = 0 and HM_ALG = 0 (10_state.md R41). -/
  hmAlg : Option HashAlg
  /-- The MODEL's own: the events still to come, first one first (log 2). -/
  inputs : List BusEvent
  /-- The MODEL's own: the values bus reads have returned to the host, oldest first (log 2). -/
  busReads : List Word
  deriving DecidableEq, Repr

/-- Why the machine stops with a fault: for no reason at all. A command fault of 60_exceptions.md is taken, and the machine
goes on; an access that does not exist is refused, as 93_implementation_defined.md U3 says (log 4). So the type is empty. -/
inductive Fault where
  deriving DecidableEq, Repr

/-- Why the machine refuses to go on. -/
inductive Refusal where
  /-- Raised by no arm of exec now: every command has its meaning. Safe. -/
  | notModelled (mnemonic : String)
  /-- Raised by a bus access, at any offset, that is not 4 bytes wide or not at a multiple of 4: such accesses "do not exist
  in this spec: a model refuses a host program that contains one" (20_memory.md R82). Safe (log 4). -/
  | unsupportedAccess (off width : Nat)
  /-- Raised by an aligned bus access of 4 bytes at an offset of 0x10000 or more: the window has no such address
  (20_memory.md R80), and 93_implementation_defined.md U3 says refuse. Safe (log 4). -/
  | outsideWindow (off : Nat)
  deriving DecidableEq, Repr

/-- Eight zero words. -/
def zeroWords : HashWords := ⟨0, 0, 0, 0, 0, 0, 0, 0⟩

/-- A point register triple that holds zeros. -/
def zeroPoint : Point := ⟨0, 0, 0⟩

/-- RSA key registers that hold zeros. -/
def zeroRsaKey : RsaKey := ⟨0, 0, 0, 0, 0⟩

/-- The machine right after reset (10_state.md R53, 70_reset_and_hazards.md R421): every item zero. The model's own lists
are empty (log 8). -/
def State.reset : State where
  cmd := 0
  status := ⟨false, false, false, false, false⟩
  err := 0
  ie := 0
  msglen := 0
  keylen := 0
  outlen := 0
  totlen := 0
  stream := .closed
  curve := 0
  nbits := 0
  hst := zeroWords
  iv := 0
  bnA := 0
  bnE := 0
  bnM := 0
  bnR := 0
  rsa := zeroRsaKey
  ecD := 0
  ecK := 0
  pP := zeroPoint
  pQ := zeroPoint
  pR := zeroPoint
  mem := []
  hmI := zeroWords
  hmO := zeroWords
  hmAlg := none
  inputs := []
  busReads := []

end Sys2Proof.Machine
end

