-- ==== Sys2Proof/Machine/Flags.lean ====
section
/-! DEFINITION. Every flag the spec gives: STATUS with its computed IRQ bit, HSTAT, and the fault codes that ERR holds. -/

namespace Sys2Proof.Machine

/-- The code of a fault; bits 7:4 are its class (60_exceptions.md R382, R383). -/
def faultCode : FaultCode → BitVec 8
  | .unsupHash => 0x21
  | .unsupCurve => 0x22
  | .badPadding => 0x41
  | .keyInconsistent => 0x42
  | .rsaCapacity => 0x51
  | .lenOverflow => 0x52
  | .illegalCmd => 0x61
  | .badLength => 0x62
  | .badSequence => 0x63
  | .badOperand => 0x64
  | .notInvertible => 0x71
  | .nonceExhausted => 0x72
  | .pointAtInfinity => 0x73

/-- The selector code of an algorithm (00_scope.md R20, 30_encoding.md R113). -/
def algCode : HashAlg → BitVec 3
  | .sha1 => 1
  | .sha256 => 2
  | .sha384 => 3
  | .sha512 => 4

/-- IE.DONE_IE (10_state.md R36). -/
def doneIe (s : State) : Bool := s.ie.getLsbD 0

/-- IE.ERR_IE (10_state.md R36). -/
def errIe (s : State) : Bool := s.ie.getLsbD 1

/-- The interrupt output, a function of STATUS and IE (10_state.md R52, 60_exceptions.md R393). -/
def irq (s : State) : Bool := (s.status.done && doneIe s) || (s.status.err && errIe s)

/-- STATUS as the bus reads it (10_state.md R37). -/
def statusWord (s : State) : Word :=
  0#26 ++ BitVec.ofBool (irq s) ++ BitVec.ofBool s.status.wrbusy ++ BitVec.ofBool s.status.esticky
    ++ BitVec.ofBool s.status.err ++ BitVec.ofBool s.status.done ++ BitVec.ofBool s.status.busy

/-- The algorithm of the open stream, none when no stream is open: HALG (10_state.md R41). -/
def streamAlg : StreamMode → Option HashAlg
  | .closed => none
  | .plain a => some a
  | .hmac a => some a

/-- HSTAT.HALG (10_state.md R41). -/
def halg (s : State) : BitVec 3 := match streamAlg s.stream with
  | none => 0
  | some a => algCode a

/-- HSTAT.HOPEN (10_state.md R41). -/
def hopen (s : State) : Bool := (streamAlg s.stream).isSome

/-- HSTAT.HMODE (10_state.md R41). -/
def hmode (s : State) : Bool := match s.stream with
  | .closed => false
  | .plain _ => false
  | .hmac _ => true

/-- HSTAT.HMVALID (10_state.md R41). -/
def hmvalid (s : State) : Bool := s.hmAlg.isSome

/-- HSTAT.HM_ALG (10_state.md R41). -/
def hmAlgCode (s : State) : BitVec 3 := match s.hmAlg with
  | none => 0
  | some a => algCode a

/-- HSTAT as the bus reads it: bits 14:12, 8, 5, 4, 2:0 (10_state.md R41). -/
def hstatWord (s : State) : Word :=
  0#17 ++ hmAlgCode s ++ 0#3 ++ BitVec.ofBool (hmvalid s) ++ 0#2 ++ BitVec.ofBool (hmode s) ++ BitVec.ofBool (hopen s)
    ++ 0#1 ++ halg s

end Sys2Proof.Machine
end

