-- ==== Sys2Proof/Machine/Ops.lean ====
section
/-! DEFINITION. The named operations over bytes, memory and registers: conversions, memory, writing results, the end of a
command (taking a fault and its acknowledgement among them), and closing the hash stream. -/

namespace Sys2Proof.Machine

/-! Conversions (00_scope.md R16). -/

/-- `nat(s)`: the number whose big-endian bytes are `s` (00_scope.md R16). -/
def natBE (s : List Byte) : Nat := s.foldl (fun n b => 256 * n + b.toNat) 0

/-- `be(n, v)`: the `n` big-endian bytes of `v`, defined for `v < 256^n` (00_scope.md R16). -/
def beBytes : Nat → Nat → List Byte
  | 0, _ => []
  | n + 1, v => BitVec.ofNat 8 (v >>> (8 * n)) :: beBytes n v

/-- `bitlen(v)` (00_scope.md R16). -/
def bitlen (v : Nat) : Nat := if v = 0 then 0 else v.log2 + 1

/-- `ceil(a / b)` (00_scope.md R16). -/
def ceilDiv (a b : Nat) : Nat := (a + b - 1) / b

/-- `rep(b, n)` (00_scope.md R15). -/
def rep (b : Byte) (n : Nat) : List Byte := List.replicate n b

/-- `zeros(n)` (00_scope.md R15). -/
def zeros (n : Nat) : List Byte := rep 0x00 n

/-- `a xor b`, bytewise (00_scope.md R15). -/
def xorBytes (a b : List Byte) : List Byte := List.zipWith (fun x y => x ^^^ y) a b

/-! Memory: the one read of a byte and the operations that write. -/

/-- The byte at an address; 0x00 where none is listed (10_state.md R53). -/
def Memory.read : Memory → Nat → Byte
  | [], _ => 0
  | c :: m, a => if c.1 = a then c.2 else Memory.read m a

/-- Drops the entries of `n` addresses from `a` on: they then read 0x00. -/
def Memory.clear (m : Memory) (a n : Nat) : Memory := m.filter (fun c => decide (c.1 < a) || decide (a + n ≤ c.1))

/-- Puts an entry before the first one at a higher address. -/
def Memory.insert (a : Nat) (v : Byte) : Memory → Memory
  | [] => [(a, v)]
  | c :: m => if a < c.1 then (a, v) :: c :: m else c :: Memory.insert a v m

/-- Stores a byte, keeping the canonical form: a zero byte is not listed. -/
def Memory.write (m : Memory) (a : Nat) (v : Byte) : Memory :=
  if v = 0 then Memory.clear m a 1 else Memory.insert a v (Memory.clear m a 1)

/-- The `n` bytes from address `a` on. -/
def Memory.readBytes (m : Memory) (a : Nat) : Nat → List Byte
  | 0 => []
  | n + 1 => Memory.read m a :: Memory.readBytes m (a + 1) n

/-- Stores a byte string from address `a` on. -/
def Memory.writeBytes (m : Memory) (a : Nat) : List Byte → Memory
  | [] => m
  | b :: bs => Memory.writeBytes (Memory.write m a b) (a + 1) bs

/-- The bus word at an address: four bytes, the lowest address in bits 31:24 (20_memory.md R85). -/
def Memory.readWord (m : Memory) (a : Nat) : Word := BitVec.ofNat 32 (natBE (Memory.readBytes m a 4))

/-- Stores a bus word, bits 31:24 at the lowest address (20_memory.md R85). -/
def Memory.writeWord (m : Memory) (a : Nat) (v : Word) : Memory := Memory.writeBytes m a (beBytes 4 v.toNat)

/-- The window offset of KEY (10_state.md R31). -/
def keyBase : Nat := 0x0200

/-- The window offset of MSG (10_state.md R31). -/
def msgBase : Nat := 0x4000

/-- The window offset of OUT (10_state.md R31). -/
def outBase : Nat := 0x8000

/-! Writing results. -/

/-- Writes a result to OUT: its bytes, then zeros up to MSG_CAP, and its length to OUTLEN (10_state.md R49). -/
def setOut (bytes : List Byte) (s : State) : State :=
  { s with
    mem := Memory.writeBytes (Memory.clear s.mem outBase Config.msgCap) outBase bytes
    outlen := BitVec.ofNat 32 bytes.length }

/-- Writes BN_R (10_state.md R44). -/
def setBnR (v : Nat) (s : State) : State := { s with bnR := BitVec.ofNat Config.bnBits v }

/-- Writes RX, RY, RZ (10_state.md R48). -/
def setPointR (p : Point) (s : State) : State := { s with pR := p }

/-- Writes PX, PY, PZ (10_state.md R48). -/
def setPointP (p : Point) (s : State) : State := { s with pP := p }

/-- `close_stream()` (40_hash.md R159). -/
def closeStream (s : State) : State := { s with hst := zeroWords, totlen := 0, stream := .closed }

/-! The start and the end of a command. -/

/-- The word the core performs: CMD (10_state.md R33, 20_memory.md R97). -/
def fetchWord (s : State) : Word := s.cmd

/-- An accepted write to CMD: the word is stored, BUSY set, DONE, ERR and the ERR register cleared (10_state.md R33). -/
def acceptCommand (v : Word) (s : State) : State :=
  { s with cmd := v, status := { s.status with busy := true, done := false, err := false }, err := 0 }

/-- Which result locations a fault zeroes (60_exceptions.md R389). -/
inductive ResultLocs where
  | none
  | out
  | bnR
  | pointR
  deriving DecidableEq, Repr

/-- Zeroes the result locations of a faulted command (60_exceptions.md R389). -/
def clearResults : ResultLocs → State → State
  | .none, s => s
  | .out, s => setOut [] s
  | .bnR, s => setBnR 0 s
  | .pointR, s => setPointR zeroPoint s

/-- Normal end of a command (60_exceptions.md R389). -/
def endNormal (s : State) : State :=
  { s with err := 0, status := { s.status with err := false, done := true, busy := false } }

/-- TAKING A FAULT, the one shared operation (60_exceptions.md R389): none of the command's writes take effect, its result
locations are zeroed, ERR holds the code, and ERR, ESTICKY and DONE are set and BUSY cleared. -/
def raiseFault (c : FaultCode) (locs : ResultLocs) (s : State) : State :=
  { clearResults locs s with
    err := faultCode c
    status := { s.status with err := true, esticky := true, done := true, busy := false } }

/-- Acknowledgement, the counterpart of the return from a fault: a write to STATUS clears the flags whose bits are 1, and
the ERR register with STATUS.ERR (20_memory.md R84, 60_exceptions.md R390). -/
def acknowledge (v : Word) (s : State) : State :=
  { s with
    status := { s.status with
      done := s.status.done && !v.getLsbD 1
      err := s.status.err && !v.getLsbD 2
      esticky := s.status.esticky && !v.getLsbD 3
      wrbusy := s.status.wrbusy && !v.getLsbD 4 }
    err := if v.getLsbD 2 then 0 else s.err }

/-- A host write dropped while BUSY (20_memory.md R90). -/
def dropWrite (s : State) : State := { s with status := { s.status with wrbusy := true } }

/-- `raise Fault(CODE)` when a condition of the check phase holds (00_scope.md R19, 60_exceptions.md R386). -/
def faultIf (p : Prop) [Decidable p] (c : FaultCode) : Except FaultCode Unit :=
  if p then .error c else .ok ()

/-- The end of a command that was computed from `s` with these result locations (60_exceptions.md R381, R389). -/
def finish (locs : ResultLocs) (s : State) (r : Except FaultCode State) : Host.Outcome State Fault Refusal :=
  match r with
  | .ok t => .next (endNormal t)
  | .error c => .next (raiseFault c locs s)

end Sys2Proof.Machine
end

