-- ==== Sys2Proof/Machine/Bus.lean ====
section
/-! DEFINITION. The register window (10_state.md R31, R32, R54, R55) and the host's bus accesses (20_memory.md R80 to R90). -/

namespace Sys2Proof.Machine

/-- The curve registers in slot order (10_state.md R31). -/
inductive CurveReg where
  | ecD | ecK | px | py | pz | qx | qy | qz | rx | ry | rz
  deriving DecidableEq, Repr

/-- The wide registers in slot order (10_state.md R31). -/
inductive WideReg where
  | bnA | bnE | bnM | bnR | rsaP | rsaQ | rsaDp | rsaDq | rsaQinv
  deriving DecidableEq, Repr

/-- What stands at a window offset (10_state.md R31). For HST, `i` is the word and `hi` its half; for IV, `hi` is its half;
for a curve or wide register, `j` is the bus word of its slot; for a buffer, `a` is the window offset itself. -/
inductive Loc where
  | id | cap0 | cap1 | cap2 | cmd | status | err | ie
  | msglen | keylen | outlen | totlenHi | totlenLo | hstat | curve | nbits
  | hst (i : Nat) (hi : Bool)
  | iv (hi : Bool)
  | key (a : Nat)
  | curveReg (r : CurveReg) (j : Nat)
  | wide (r : WideReg) (j : Nat)
  | msg (a : Nat)
  | out (a : Nat)
  | reserved
  deriving DecidableEq, Repr

/-- The size of the window in bytes (20_memory.md R80). -/
def windowBytes : Nat := 0x10000

/-- The control registers at word `j` of the window (10_state.md R31). -/
def controlLoc (j : Nat) : Loc :=
  match j with
  | 0 => .id
  | 1 => .cap0
  | 2 => .cap1
  | 3 => .cap2
  | 4 => .cmd
  | 5 => .status
  | 6 => .err
  | 7 => .ie
  | 8 => .msglen
  | 9 => .keylen
  | 10 => .outlen
  | 11 => .totlenHi
  | 12 => .totlenLo
  | 13 => .hstat
  | 14 => .curve
  | 15 => .nbits
  | _ => .reserved

/-- The curve register of slot `j` (10_state.md R31). -/
def curveSlot (j : Nat) : Option CurveReg :=
  [.ecD, .ecK, .px, .py, .pz, .qx, .qy, .qz, .rx, .ry, .rz][j]?

/-- The wide register of slot `j` (10_state.md R31). -/
def wideSlot (j : Nat) : Option WideReg :=
  [.bnA, .bnE, .bnM, .bnR, .rsaP, .rsaQ, .rsaDp, .rsaDq, .rsaQinv][j]?

/-- What stands at `off` inside the curve slots: the first 48 bytes of a 64-byte slot (10_state.md R31). -/
def curveLoc (off : Nat) : Loc :=
  match curveSlot ((off - 0x400) / 0x40) with
  | none => .reserved
  | some r => if (off - 0x400) % 0x40 < Config.ecBytes then .curveReg r ((off - 0x400) % 0x40 / 4) else .reserved

/-- What stands at `off` inside the wide slots: the first BN_BYTES of a 512-byte slot (10_state.md R31). -/
def wideLoc (off : Nat) : Loc :=
  match wideSlot ((off - 0x1000) / 0x200) with
  | none => .reserved
  | some r => if (off - 0x1000) % 0x200 < Config.bnBytes then .wide r ((off - 0x1000) % 0x200 / 4) else .reserved

/-- The register map, for an offset that is a multiple of 4 (10_state.md R31, 20_memory.md R88). -/
def locate (off : Nat) : Loc :=
  if off < 0x40 then controlLoc (off / 4)
  else if off < 0x100 then .reserved
  else if off < 0x140 then .hst ((off - 0x100) / 8) (decide ((off - 0x100) % 8 < 4))
  else if off < 0x148 then .iv (decide (off < 0x144))
  else if off < keyBase then .reserved
  else if off < keyBase + Config.keyCap then .key off
  else if off < 0x400 then .reserved
  else if off < 0x6C0 then curveLoc off
  else if off < 0x1000 then .reserved
  else if off < 0x2200 then wideLoc off
  else if off < msgBase then .reserved
  else if off < msgBase + Config.msgCap then .msg off
  else if off < outBase then .reserved
  else if off < outBase + Config.msgCap then .out off
  else .reserved

/-! Parts of wide values as bus words (20_memory.md R86, R87). -/

/-- Bus word `j` of a register of `n` bits, most significant word first (20_memory.md R86). -/
def busWord {n : Nat} (v : BitVec n) (j : Nat) : Word := v.extractLsb' (n - 32 - 32 * j) 32

/-- Replaces bus word `j` of a register of `n` bits and no other bit (20_memory.md R86). -/
def setBusWord {n : Nat} (v : BitVec n) (j : Nat) (w : Word) : BitVec n :=
  (v &&& ~~~((0xFFFFFFFF#32).setWidth n <<< (n - 32 - 32 * j))) ||| (w.setWidth n <<< (n - 32 - 32 * j))

/-- The bus word of the high or low half of a 64-bit value (20_memory.md R87). -/
def halfIndex (hi : Bool) : Nat := if hi then 0 else 1

/-- `HST[i]` (10_state.md R42). -/
def hstGet (h : HashWords) (i : Nat) : DWord :=
  match i with
  | 0 => h.h0
  | 1 => h.h1
  | 2 => h.h2
  | 3 => h.h3
  | 4 => h.h4
  | 5 => h.h5
  | 6 => h.h6
  | 7 => h.h7
  | _ => 0

/-- `HST[i] <- v` (10_state.md R42). -/
def hstSet (h : HashWords) (i : Nat) (v : DWord) : HashWords :=
  match i with
  | 0 => { h with h0 := v }
  | 1 => { h with h1 := v }
  | 2 => { h with h2 := v }
  | 3 => { h with h3 := v }
  | 4 => { h with h4 := v }
  | 5 => { h with h5 := v }
  | 6 => { h with h6 := v }
  | 7 => { h with h7 := v }
  | _ => h

/-- A curve register's value as the bus may read it: EC_D is write-only (10_state.md R54). -/
def curveRegRead (s : State) : CurveReg → BitVec Config.ecBits
  | .ecD => 0
  | .ecK => s.ecK
  | .px => s.pP.x
  | .py => s.pP.y
  | .pz => s.pP.z
  | .qx => s.pQ.x
  | .qy => s.pQ.y
  | .qz => s.pQ.z
  | .rx => s.pR.x
  | .ry => s.pR.y
  | .rz => s.pR.z

/-- A wide register's value as the bus may read it: the RSA key registers are write-only (10_state.md R54). -/
def wideRegRead (s : State) : WideReg → BitVec Config.bnBits
  | .bnA => s.bnA
  | .bnE => s.bnE
  | .bnM => s.bnM
  | .bnR => s.bnR
  | .rsaP => 0
  | .rsaQ => 0
  | .rsaDp => 0
  | .rsaDq => 0
  | .rsaQinv => 0

/-- Writes bus word `j` of a curve register; none for a read-only one (10_state.md R54). -/
def curveRegWrite (s : State) (j : Nat) (v : Word) : CurveReg → Option State
  | .ecD => some { s with ecD := setBusWord s.ecD j v }
  | .ecK => some { s with ecK := setBusWord s.ecK j v }
  | .px => some { s with pP := { s.pP with x := setBusWord s.pP.x j v } }
  | .py => some { s with pP := { s.pP with y := setBusWord s.pP.y j v } }
  | .pz => some { s with pP := { s.pP with z := setBusWord s.pP.z j v } }
  | .qx => some { s with pQ := { s.pQ with x := setBusWord s.pQ.x j v } }
  | .qy => some { s with pQ := { s.pQ with y := setBusWord s.pQ.y j v } }
  | .qz => some { s with pQ := { s.pQ with z := setBusWord s.pQ.z j v } }
  | .rx => none
  | .ry => none
  | .rz => none

/-- Writes bus word `j` of a wide register; none for the read-only one (10_state.md R54). -/
def wideRegWrite (s : State) (j : Nat) (v : Word) : WideReg → Option State
  | .bnA => some { s with bnA := setBusWord s.bnA j v }
  | .bnE => some { s with bnE := setBusWord s.bnE j v }
  | .bnM => some { s with bnM := setBusWord s.bnM j v }
  | .bnR => none
  | .rsaP => some { s with rsa := { s.rsa with p := setBusWord s.rsa.p j v } }
  | .rsaQ => some { s with rsa := { s.rsa with q := setBusWord s.rsa.q j v } }
  | .rsaDp => some { s with rsa := { s.rsa with dp := setBusWord s.rsa.dp j v } }
  | .rsaDq => some { s with rsa := { s.rsa with dq := setBusWord s.rsa.dq j v } }
  | .rsaQinv => some { s with rsa := { s.rsa with qinv := setBusWord s.rsa.qinv j v } }

/-! Reading. -/

/-- ID (10_state.md R32). -/
def idWord : Word := 0x464F5401

/-- CAP0: bit 0 SHA-1, bits 1 to 13 the units of this hardware (10_state.md R32). -/
def cap0Word : Word := 0x00003FFE ||| (if Config.hasSha1 then 1 else 0)

/-- CAP1: MSG_CAP in bits 15:0, BN_BITS in bits 31:16 (10_state.md R32). -/
def cap1Word : Word := BitVec.ofNat 16 Config.bnBits ++ BitVec.ofNat 16 Config.msgCap

/-- CAP2: RETRY_MAX in bits 15:0 (10_state.md R32). -/
def cap2Word : Word := 0#16 ++ BitVec.ofNat 16 Config.retryMax

/-- The value at a location, the core idle (20_memory.md R83, R85 to R89). -/
def readLoc (s : State) : Loc → Word
  | .id => idWord
  | .cap0 => cap0Word
  | .cap1 => cap1Word
  | .cap2 => cap2Word
  | .cmd => s.cmd
  | .status => statusWord s
  | .err => s.err.setWidth 32
  | .ie => s.ie.setWidth 32
  | .msglen => s.msglen
  | .keylen => s.keylen
  | .outlen => s.outlen
  | .totlenHi => busWord s.totlen 0
  | .totlenLo => busWord s.totlen 1
  | .hstat => hstatWord s
  | .curve => s.curve
  | .nbits => s.nbits
  | .hst i hi => busWord (hstGet s.hst i) (halfIndex hi)
  | .iv hi => busWord s.iv (halfIndex hi)
  | .key _ => 0
  | .curveReg r j => busWord (curveRegRead s r) j
  | .wide r j => busWord (wideRegRead s r) j
  | .msg a => Memory.readWord s.mem a
  | .out a => Memory.readWord s.mem a
  | .reserved => 0

/-- The locations a read sees while BUSY: ID, CAP0 to CAP2, CMD, STATUS, ERR, IE (20_memory.md R83, R90). -/
def visibleWhileBusy : Loc → Bool
  | .id => true
  | .cap0 => true
  | .cap1 => true
  | .cap2 => true
  | .cmd => true
  | .status => true
  | .err => true
  | .ie => true
  | .msglen => false
  | .keylen => false
  | .outlen => false
  | .totlenHi => false
  | .totlenLo => false
  | .hstat => false
  | .curve => false
  | .nbits => false
  | .hst _ _ => false
  | .iv _ => false
  | .key _ => false
  | .curveReg _ _ => false
  | .wide _ _ => false
  | .msg _ => false
  | .out _ => false
  | .reserved => false

/-- `MemRead(off, 4)`, the value; a read changes no state of the spec's (20_memory.md R83, R90). -/
def memRead (off : Nat) (s : State) : Word :=
  if s.status.busy && !visibleWhileBusy (locate off) then 0 else readLoc s (locate off)

/-! Writing. -/

/-- Stores a bus word at an RW or WO data location, the core idle; none where the location is read-only, reserved, or not
data (20_memory.md R84). -/
def storeLoc (s : State) (v : Word) : Loc → Option State
  | .id => none
  | .cap0 => none
  | .cap1 => none
  | .cap2 => none
  | .cmd => none
  | .status => none
  | .err => none
  | .ie => none
  | .msglen => some { s with msglen := v }
  | .keylen => some { s with keylen := v }
  | .outlen => none
  | .totlenHi => some { s with totlen := setBusWord s.totlen 0 v }
  | .totlenLo => some { s with totlen := setBusWord s.totlen 1 v }
  | .hstat => none
  | .curve => some { s with curve := v }
  | .nbits => some { s with nbits := v }
  | .hst i hi => some { s with hst := hstSet s.hst i (setBusWord (hstGet s.hst i) (halfIndex hi) v) }
  | .iv hi => some { s with iv := setBusWord s.iv (halfIndex hi) v }
  | .key a => some { s with mem := Memory.writeWord s.mem a v }
  | .curveReg r j => curveRegWrite s j v r
  | .wide r j => wideRegWrite s j v r
  | .msg a => some { s with mem := Memory.writeWord s.mem a v }
  | .out _ => none
  | .reserved => none

/-- A write to a location that is not CMD, STATUS, IE or reserved. While idle it is stored, or ignored where nothing can be
stored (20_memory.md R84, R89); while BUSY it is dropped and sets WRBUSY, whatever the location (R90,
70_reset_and_hazards.md R423, 93_implementation_defined.md U5). DEDUCED, unsafe (log 13): for a read-only location while BUSY
the last line of R84's pseudocode and R89 set no flag; they are read as the idle case. -/
def writeData (v : Word) (s : State) (l : Loc) : State :=
  if s.status.busy then dropWrite s else (storeLoc s v l).getD s

/-- A write to CMD: accepted while idle, dropped while BUSY (10_state.md R33). -/
def writeCmd (v : Word) (s : State) : State := if s.status.busy then dropWrite s else acceptCommand v s

/-- A write to IE: bits 1:0, also while BUSY (10_state.md R36). -/
def writeIe (v : Word) (s : State) : State := { s with ie := v.setWidth 2 }

/-- `MemWrite(off, 4, v)` (20_memory.md R84); a reserved offset ignores it and sets no flag, also while BUSY (R88,
92_eei_decisions.md D40). -/
def memWrite (off : Nat) (v : Word) (s : State) : State :=
  match locate off with
  | .cmd => writeCmd v s
  | .status => acknowledge v s
  | .ie => writeIe v s
  | .reserved => s
  | l => writeData v s l

/-- Does the access its rule says, where it is one of the accesses that exist: 4 bytes wide, at a multiple of 4 below
0x10000. Every other one is refused (20_memory.md R80, R82, 93_implementation_defined.md U3; log 4). -/
def checkAccess (off width : Nat) (t : State) : Host.Outcome State Fault Refusal :=
  if width ≠ 4 ∨ off % 4 ≠ 0 then .refused (.unsupportedAccess off width)
  else if off ≥ windowBytes then .refused (.outsideWindow off)
  else .next t

/-- A bus read: its value goes to the host (log 2). -/
def busRead (off width : Nat) (s : State) : Host.Outcome State Fault Refusal :=
  checkAccess off width { s with busReads := s.busReads ++ [memRead off s] }

/-- A bus write. -/
def busWrite (off width : Nat) (v : Word) (s : State) : Host.Outcome State Fault Refusal :=
  checkAccess off width (memWrite off v s)

end Sys2Proof.Machine
end

