-- ==== Sys2Proof/Machine/Operands.lean ====
section
/-! DEFINITION. Every operand form: the algorithm and curve selectors with their parameters, the byte-string operands in
MSG and KEY, the natural-number operands, and the open stream. -/

namespace Sys2Proof.Machine

/-! The hash selector (30_encoding.md R113) and its parameters (00_scope.md R20). -/

/-- The algorithm an ALG field selects, none for a selector the core lacks (30_encoding.md R113, 60_exceptions.md R384). -/
def selectHash (alg : BitVec 4) : Option HashAlg :=
  match alg.toNat with
  | 1 => if Config.hasSha1 then some .sha1 else none
  | 2 => some .sha256
  | 3 => some .sha384
  | 4 => some .sha512
  | _ => none

/-- `W(a) / 8`, the bytes of a word (00_scope.md R20). -/
def wordBytes : HashAlg → Nat
  | .sha1 => 4
  | .sha256 => 4
  | .sha384 => 8
  | .sha512 => 8

/-- `B(a)`, the bytes of a block (00_scope.md R20). -/
def blockBytes : HashAlg → Nat
  | .sha1 => 64
  | .sha256 => 64
  | .sha384 => 128
  | .sha512 => 128

/-- `hlen(a)`, the bytes of a digest (00_scope.md R20). -/
def digestBytes : HashAlg → Nat
  | .sha1 => 20
  | .sha256 => 32
  | .sha384 => 48
  | .sha512 => 64

/-- `L(a)`, the bytes of the length field (00_scope.md R20). -/
def lengthBytes : HashAlg → Nat
  | .sha1 => 8
  | .sha256 => 8
  | .sha384 => 16
  | .sha512 => 16

/-- The state words an algorithm uses (00_scope.md R20). -/
def stateWords : HashAlg → Nat
  | .sha1 => 5
  | .sha256 => 8
  | .sha384 => 8
  | .sha512 => 8

/-- `LIMIT(a)`: the first total length in bytes that does not fit (40_hash.md R155). -/
def lengthLimit : HashAlg → Nat
  | .sha1 => 2 ^ 61
  | .sha256 => 2 ^ 61
  | .sha384 => 2 ^ 64
  | .sha512 => 2 ^ 64

/-- A command that takes a hash selector: UNSUP_HASH where the selector names no algorithm of the core. It is part of
decoding (30_encoding.md R117), so the fault zeroes nothing (60_exceptions.md R389). -/
def withHash (alg : BitVec 4) (s : State) (run : HashAlg → Host.Outcome State Fault Refusal) :
    Host.Outcome State Fault Refusal :=
  match selectHash alg with
  | none => .next (raiseFault .unsupHash .none s)
  | some a => run a

/-! The curve selector (10_state.md R47, 44_ecpoint.md R280). -/

/-- The curves of the core. -/
inductive Curve where
  | p256
  | p384
  deriving DecidableEq, Repr

/-- The curve the CURVE register selects; `UNSUP_CURVE` unless it is 1 or 2 (44_ecpoint.md R280). -/
def selectCurve (s : State) : Except FaultCode Curve :=
  match s.curve.toNat with
  | 1 => .ok .p256
  | 2 => .ok .p384
  | _ => .error .unsupCurve

/-! Byte-string operands (10_state.md R49, 30_encoding.md R112). -/

/-- `MSG[0..n)`. -/
def msgPrefix (s : State) (n : Nat) : List Byte := Memory.readBytes s.mem msgBase n

/-- `MSG[0..MSGLEN)`. -/
def msgBytes (s : State) : List Byte := msgPrefix s s.msglen.toNat

/-- `KEY[i..i+n)`. -/
def keySlice (s : State) (i n : Nat) : List Byte := Memory.readBytes s.mem (keyBase + i) n

/-- `KEY[0..KEYLEN)`. -/
def keyBytes (s : State) : List Byte := keySlice s 0 s.keylen.toNat

/-- `TOTLEN + MSGLEN`, as a natural number (40_hash.md R155). -/
def totalAfter (s : State) : Nat := s.totlen.toNat + s.msglen.toNat

/-! The open stream (60_exceptions.md R385, column BAD_SEQUENCE). -/

/-- The algorithm of the open stream, plain or HMAC; `BAD_SEQUENCE` if HOPEN = 0. -/
def openStream (s : State) : Except FaultCode HashAlg :=
  match s.stream with
  | .closed => .error .badSequence
  | .plain a => .ok a
  | .hmac a => .ok a

/-- The algorithm of the open plain stream; `BAD_SEQUENCE` if HOPEN = 0 or HMODE = 1. -/
def openPlainStream (s : State) : Except FaultCode HashAlg :=
  match s.stream with
  | .closed => .error .badSequence
  | .plain a => .ok a
  | .hmac _ => .error .badSequence

/-- The algorithm of the open HMAC stream; `BAD_SEQUENCE` if HOPEN = 0 or HMODE = 0. -/
def openHmacStream (s : State) : Except FaultCode HashAlg :=
  match s.stream with
  | .closed => .error .badSequence
  | .plain _ => .error .badSequence
  | .hmac a => .ok a

/-- The algorithm of the HMAC context; `BAD_SEQUENCE` if HMVALID = 0. -/
def hmacContext (s : State) : Except FaultCode HashAlg :=
  match s.hmAlg with
  | none => .error .badSequence
  | some a => .ok a

/-- A signer's digest operand length check: with DG = 0 a message of at most MSG_CAP bytes, with DG = 1 a digest of
exactly hlen(a) bytes (45_rsa.md R325, 46_ecdsa.md R348). -/
def checkSignLength (a : HashAlg) (dg : Bool) (s : State) : Except FaultCode Unit :=
  if dg then faultIf (s.msglen.toNat ≠ digestBytes a) .badLength
  else faultIf (s.msglen.toNat > Config.msgCap) .badLength

end Sys2Proof.Machine
end

