-- ==== Sys2Proof/Machine/BigInt.lean ====
section
/-! DEFINITION. The big-integer unit: its functions (43_bigint.md R250 to R253) and the commands MODEXP, MODINV, MODCRT
(R254 to R256). -/

namespace Sys2Proof.Machine

/-- The square-and-multiply of 43_bigint.md R251 over an exponent of `n` bits, most significant bit first. -/
def modexpBits (b m : Nat) : Nat → Nat → Nat
  | 0, _ => 1 % m
  | n + 1, e =>
    let r := modexpBits b m n (e / 2)
    let sq := r * r % m
    if e % 2 = 1 then sq * b % m else sq

/-- `modexp(a, e, m)`, that is `(a^e) mod m`, by the method the rule gives (43_bigint.md R251; log 10). -/
def modexpOf (a e m : Nat) : Nat := modexpBits (a % m) m (bitlen e) e

/-- The loop of 43_bigint.md R252 from `(r0, r1, t0, t1)`, at most `fuel` times; its result is the last `t0`. -/
def euclid : Nat → Nat → Nat → Int → Int → Int
  | 0, _, _, t0, _ => t0
  | fuel + 1, r0, r1, t0, t1 =>
    if r1 = 0 then t0 else euclid fuel r1 (r0 - r0 / r1 * r1) t1 (t0 - (r0 / r1 : Nat) * t1)

/-- `modinv(a, m)` for `gcd(a mod m, m) = 1`: the `t0 mod m` of the extended Euclidean algorithm (43_bigint.md R252). The
bound `2 * bitlen(m) + 2` on its iterations is never reached before `r1 = 0` (log 10); where there is no inverse the value
is never used (log 11). -/
def modinvOf (a m : Nat) : Nat := (euclid (2 * bitlen m + 2) m (a % m) 0 1 % (m : Int)).toNat

/-- `crt(m, p, q, dp, dq, qinv)`; a negative `sp - sq` is reduced into `0 .. p-1` (43_bigint.md R253). -/
def crtOf (m p q dp dq qinv : Nat) : Nat :=
  let sp := modexpOf m dp p
  let sq := modexpOf m dq q
  let h := ((qinv : Int) * ((sp : Int) - (sq : Int)) % (p : Int)).toNat
  sq + q * h

/-- The check phase of the CRT operation on the RSA key registers (43_bigint.md R256, 60_exceptions.md R385). -/
def checkCrtOperands (s : State) : Except FaultCode Unit :=
  faultIf (s.rsa.p.toNat < 2 ∨ s.rsa.q.toNat < 2
    ∨ bitlen s.rsa.p.toNat + bitlen s.rsa.q.toNat > Config.bnBits) .badOperand

/-- `crt(m, RSA_P, RSA_Q, RSA_DP, RSA_DQ, RSA_QINV)` (43_bigint.md R256). -/
def crtKey (m : Nat) (k : RsaKey) : Nat :=
  crtOf m k.p.toNat k.q.toNat k.dp.toNat k.dq.toNat k.qinv.toNat

/-- MODEXP (43_bigint.md R254). -/
def execModexp (s : State) : Host.Outcome State Fault Refusal :=
  finish .bnR s do
    faultIf (s.bnM.toNat = 0) .badOperand
    return setBnR (modexpOf s.bnA.toNat s.bnE.toNat s.bnM.toNat) s

/-- MODINV (43_bigint.md R255). -/
def execModinv (s : State) : Host.Outcome State Fault Refusal :=
  finish .bnR s do
    faultIf (s.bnM.toNat < 2) .badOperand
    faultIf (Nat.gcd (s.bnA.toNat % s.bnM.toNat) s.bnM.toNat ≠ 1) .notInvertible
    return setBnR (modinvOf s.bnA.toNat s.bnM.toNat) s

/-- MODCRT (43_bigint.md R256). -/
def execModcrt (s : State) : Host.Outcome State Fault Refusal :=
  finish .bnR s do
    checkCrtOperands s
    return setBnR (crtKey s.bnA.toNat s.rsa) s

end Sys2Proof.Machine
end

