-- ==== Sys2Proof/Machine/Des.lean ====
section
/-! DEFINITION. DES and triple-DES (42_blockcipher.md R204 to R213). A table is printed in reading order, entry 1 first,
with the DES numbering: bit 1 is the most significant (R205). -/

namespace Sys2Proof.Machine

/-- `perm(v, n, T)`: bit `j` of the result, counted from the left, is bit `T[j]` of `v`, counted from the left
(42_blockcipher.md R205). -/
def perm {n : Nat} (m : Nat) (v : BitVec n) (t : List Nat) : BitVec m :=
  BitVec.ofNat m (t.foldl (fun r i => 2 * r + (v.getLsbD (n - i)).toNat) 0)

/-- `IP` (42_blockcipher.md R206). -/
def tableIP : List Nat :=
  [58, 50, 42, 34, 26, 18, 10, 2, 60, 52, 44, 36, 28, 20, 12, 4,
   62, 54, 46, 38, 30, 22, 14, 6, 64, 56, 48, 40, 32, 24, 16, 8,
   57, 49, 41, 33, 25, 17, 9, 1, 59, 51, 43, 35, 27, 19, 11, 3,
   61, 53, 45, 37, 29, 21, 13, 5, 63, 55, 47, 39, 31, 23, 15, 7]

/-- `FP` (42_blockcipher.md R206). -/
def tableFP : List Nat :=
  [40, 8, 48, 16, 56, 24, 64, 32, 39, 7, 47, 15, 55, 23, 63, 31,
   38, 6, 46, 14, 54, 22, 62, 30, 37, 5, 45, 13, 53, 21, 61, 29,
   36, 4, 44, 12, 52, 20, 60, 28, 35, 3, 43, 11, 51, 19, 59, 27,
   34, 2, 42, 10, 50, 18, 58, 26, 33, 1, 41, 9, 49, 17, 57, 25]

/-- `E` (42_blockcipher.md R207). -/
def tableE : List Nat :=
  [32, 1, 2, 3, 4, 5, 4, 5, 6, 7, 8, 9, 8, 9, 10, 11, 12, 13, 12, 13, 14, 15, 16, 17,
   16, 17, 18, 19, 20, 21, 20, 21, 22, 23, 24, 25, 24, 25, 26, 27, 28, 29, 28, 29, 30, 31, 32, 1]

/-- `P` (42_blockcipher.md R208). -/
def tableP : List Nat :=
  [16, 7, 20, 21, 29, 12, 28, 17, 1, 15, 23, 26, 5, 18, 31, 10,
   2, 8, 24, 14, 32, 27, 3, 9, 19, 13, 30, 6, 22, 11, 4, 25]

/-- `S1`, rows 0 to 3 (42_blockcipher.md R209). -/
def sbox1 : List Nat :=
  [14, 4, 13, 1, 2, 15, 11, 8, 3, 10, 6, 12, 5, 9, 0, 7,
   0, 15, 7, 4, 14, 2, 13, 1, 10, 6, 12, 11, 9, 5, 3, 8,
   4, 1, 14, 8, 13, 6, 2, 11, 15, 12, 9, 7, 3, 10, 5, 0,
   15, 12, 8, 2, 4, 9, 1, 7, 5, 11, 3, 14, 10, 0, 6, 13]

/-- `S2`, rows 0 to 3 (42_blockcipher.md R209). -/
def sbox2 : List Nat :=
  [15, 1, 8, 14, 6, 11, 3, 4, 9, 7, 2, 13, 12, 0, 5, 10,
   3, 13, 4, 7, 15, 2, 8, 14, 12, 0, 1, 10, 6, 9, 11, 5,
   0, 14, 7, 11, 10, 4, 13, 1, 5, 8, 12, 6, 9, 3, 2, 15,
   13, 8, 10, 1, 3, 15, 4, 2, 11, 6, 7, 12, 0, 5, 14, 9]

/-- `S3`, rows 0 to 3 (42_blockcipher.md R209). -/
def sbox3 : List Nat :=
  [10, 0, 9, 14, 6, 3, 15, 5, 1, 13, 12, 7, 11, 4, 2, 8,
   13, 7, 0, 9, 3, 4, 6, 10, 2, 8, 5, 14, 12, 11, 15, 1,
   13, 6, 4, 9, 8, 15, 3, 0, 11, 1, 2, 12, 5, 10, 14, 7,
   1, 10, 13, 0, 6, 9, 8, 7, 4, 15, 14, 3, 11, 5, 2, 12]

/-- `S4`, rows 0 to 3 (42_blockcipher.md R209). -/
def sbox4 : List Nat :=
  [7, 13, 14, 3, 0, 6, 9, 10, 1, 2, 8, 5, 11, 12, 4, 15,
   13, 8, 11, 5, 6, 15, 0, 3, 4, 7, 2, 12, 1, 10, 14, 9,
   10, 6, 9, 0, 12, 11, 7, 13, 15, 1, 3, 14, 5, 2, 8, 4,
   3, 15, 0, 6, 10, 1, 13, 8, 9, 4, 5, 11, 12, 7, 2, 14]

/-- `S5`, rows 0 to 3 (42_blockcipher.md R209). -/
def sbox5 : List Nat :=
  [2, 12, 4, 1, 7, 10, 11, 6, 8, 5, 3, 15, 13, 0, 14, 9,
   14, 11, 2, 12, 4, 7, 13, 1, 5, 0, 15, 10, 3, 9, 8, 6,
   4, 2, 1, 11, 10, 13, 7, 8, 15, 9, 12, 5, 6, 3, 0, 14,
   11, 8, 12, 7, 1, 14, 2, 13, 6, 15, 0, 9, 10, 4, 5, 3]

/-- `S6`, rows 0 to 3 (42_blockcipher.md R209). -/
def sbox6 : List Nat :=
  [12, 1, 10, 15, 9, 2, 6, 8, 0, 13, 3, 4, 14, 7, 5, 11,
   10, 15, 4, 2, 7, 12, 9, 5, 6, 1, 13, 14, 0, 11, 3, 8,
   9, 14, 15, 5, 2, 8, 12, 3, 7, 0, 4, 10, 1, 13, 11, 6,
   4, 3, 2, 12, 9, 5, 15, 10, 11, 14, 1, 7, 6, 0, 8, 13]

/-- `S7`, rows 0 to 3 (42_blockcipher.md R209). -/
def sbox7 : List Nat :=
  [4, 11, 2, 14, 15, 0, 8, 13, 3, 12, 9, 7, 5, 10, 6, 1,
   13, 0, 11, 7, 4, 9, 1, 10, 14, 3, 5, 12, 2, 15, 8, 6,
   1, 4, 11, 13, 12, 3, 7, 14, 10, 15, 6, 8, 0, 5, 9, 2,
   6, 11, 13, 8, 1, 4, 10, 7, 9, 5, 0, 15, 14, 2, 3, 12]

/-- `S8`, rows 0 to 3 (42_blockcipher.md R209). -/
def sbox8 : List Nat :=
  [13, 2, 8, 4, 6, 15, 11, 1, 10, 9, 3, 14, 5, 0, 12, 7,
   1, 15, 13, 8, 10, 3, 7, 4, 12, 5, 6, 11, 0, 14, 9, 2,
   7, 11, 4, 1, 9, 12, 14, 2, 0, 6, 10, 13, 15, 3, 5, 8,
   2, 1, 14, 7, 4, 10, 8, 13, 15, 12, 9, 0, 3, 5, 6, 11]

/-- `PC1` (42_blockcipher.md R210). -/
def tablePC1 : List Nat :=
  [57, 49, 41, 33, 25, 17, 9, 1, 58, 50, 42, 34, 26, 18,
   10, 2, 59, 51, 43, 35, 27, 19, 11, 3, 60, 52, 44, 36,
   63, 55, 47, 39, 31, 23, 15, 7, 62, 54, 46, 38, 30, 22,
   14, 6, 61, 53, 45, 37, 29, 21, 13, 5, 28, 20, 12, 4]

/-- `PC2` (42_blockcipher.md R210). -/
def tablePC2 : List Nat :=
  [14, 17, 11, 24, 1, 5, 3, 28, 15, 6, 21, 10,
   23, 19, 12, 4, 26, 8, 16, 7, 27, 20, 13, 2,
   41, 52, 31, 37, 47, 55, 30, 40, 51, 45, 33, 48,
   44, 49, 39, 56, 34, 53, 46, 42, 50, 36, 29, 32]

/-- `SHIFT[1..16]` (42_blockcipher.md R210). -/
def keyShifts : List Nat :=
  [1, 1, 2, 2, 2, 2, 2, 2, 1, 2, 2, 2, 2, 2, 2, 1]

/-- The row and the column of a six-bit S-box input: `row = 2*b1 + b6`, `col = 8*b2 + 4*b3 + 2*b4 + b5`, and the entry
`16*row + col` (42_blockcipher.md R209). -/
def sboxEntry (box : List Nat) (b : BitVec 6) : BitVec 4 :=
  let row := 2 * (b.getLsbD 5).toNat + (b.getLsbD 0).toNat
  let col := (b.extractLsb' 1 4).toNat
  BitVec.ofNat 4 (box.getD (16 * row + col) 0)

/-- `keysched(key)`: the sixteen round keys of a key, `ks[1]` first (42_blockcipher.md R210); `shifts` are the rotations
still to make. -/
def keyRounds : List Nat → BitVec 28 → BitVec 28 → List (BitVec 48)
  | [], _, _ => []
  | n :: shifts, c, d =>
    let c' := c.rotateLeft n
    let d' := d.rotateLeft n
    perm 48 (c' ++ d') tablePC2 :: keyRounds shifts c' d'

/-- `keysched(key)` (42_blockcipher.md R210). -/
def keysched (key : DWord) : List (BitVec 48) :=
  let cd := perm 56 key tablePC1
  keyRounds keyShifts (cd.extractLsb' 28 28) (cd.extractLsb' 0 28)

/-- The eight four-bit outputs of the S-boxes side by side, `o_1` most significant (42_blockcipher.md R211). -/
def sboxes (x : BitVec 48) : BitVec 32 :=
  sboxEntry sbox1 (x.extractLsb' 42 6) ++ sboxEntry sbox2 (x.extractLsb' 36 6) ++ sboxEntry sbox3 (x.extractLsb' 30 6)
    ++ sboxEntry sbox4 (x.extractLsb' 24 6) ++ sboxEntry sbox5 (x.extractLsb' 18 6)
    ++ sboxEntry sbox6 (x.extractLsb' 12 6) ++ sboxEntry sbox7 (x.extractLsb' 6 6)
    ++ sboxEntry sbox8 (x.extractLsb' 0 6)

/-- `f(R, k)` (42_blockcipher.md R211). -/
def desF (r : BitVec 32) (k : BitVec 48) : BitVec 32 := perm 32 (sboxes (perm 48 r tableE ^^^ k)) tableP

/-- The rounds with the given round keys in order: `(L, R) = (R, L xor f(R, k))` (42_blockcipher.md R212). -/
def feistel : List (BitVec 48) → BitVec 32 → BitVec 32 → BitVec 32 × BitVec 32
  | [], l, r => (l, r)
  | k :: ks, l, r => feistel ks r (l ^^^ desF r k)

/-- One block with the round keys in the order of use, halves swapped before FP (42_blockcipher.md R212). -/
def desBlock (ks : List (BitVec 48)) (blk : DWord) : DWord :=
  let v := perm 64 blk tableIP
  let lr := feistel ks (v.extractLsb' 32 32) (v.extractLsb' 0 32)
  perm 64 (lr.2 ++ lr.1) tableFP

/-- `des(ks, blk, enc)` (42_blockcipher.md R212). -/
def desEnc (ks : List (BitVec 48)) (blk : DWord) : DWord := desBlock ks blk

/-- `des(ks, blk, dec)`: the round keys in reverse order (42_blockcipher.md R212). -/
def desDec (ks : List (BitVec 48)) (blk : DWord) : DWord := desBlock ks.reverse blk

/-- `tdes_dec(K1, K2, K3, C)` (42_blockcipher.md R213). -/
def tdesDec (key1 key2 key3 : DWord) (c : DWord) : DWord :=
  desDec (keysched key1) (desEnc (keysched key2) (desDec (keysched key3) c))

end Sys2Proof.Machine
end

