-- ==== Sys2Proof/Machine/Rc2.lean ====
section
/-! DEFINITION. RC2 decryption (42_blockcipher.md R220 to R225). -/

namespace Sys2Proof.Machine

/-- `PITABLE[0..255]` (42_blockcipher.md R221). -/
def pitable : List Byte :=
  [0xd9, 0x78, 0xf9, 0xc4, 0x19, 0xdd, 0xb5, 0xed, 0x28, 0xe9, 0xfd, 0x79, 0x4a, 0xa0, 0xd8, 0x9d,
   0xc6, 0x7e, 0x37, 0x83, 0x2b, 0x76, 0x53, 0x8e, 0x62, 0x4c, 0x64, 0x88, 0x44, 0x8b, 0xfb, 0xa2,
   0x17, 0x9a, 0x59, 0xf5, 0x87, 0xb3, 0x4f, 0x13, 0x61, 0x45, 0x6d, 0x8d, 0x09, 0x81, 0x7d, 0x32,
   0xbd, 0x8f, 0x40, 0xeb, 0x86, 0xb7, 0x7b, 0x0b, 0xf0, 0x95, 0x21, 0x22, 0x5c, 0x6b, 0x4e, 0x82]
  ++ [0x54, 0xd6, 0x65, 0x93, 0xce, 0x60, 0xb2, 0x1c, 0x73, 0x56, 0xc0, 0x14, 0xa7, 0x8c, 0xf1, 0xdc,
   0x12, 0x75, 0xca, 0x1f, 0x3b, 0xbe, 0xe4, 0xd1, 0x42, 0x3d, 0xd4, 0x30, 0xa3, 0x3c, 0xb6, 0x26,
   0x6f, 0xbf, 0x0e, 0xda, 0x46, 0x69, 0x07, 0x57, 0x27, 0xf2, 0x1d, 0x9b, 0xbc, 0x94, 0x43, 0x03,
   0xf8, 0x11, 0xc7, 0xf6, 0x90, 0xef, 0x3e, 0xe7, 0x06, 0xc3, 0xd5, 0x2f, 0xc8, 0x66, 0x1e, 0xd7]
  ++ [0x08, 0xe8, 0xea, 0xde, 0x80, 0x52, 0xee, 0xf7, 0x84, 0xaa, 0x72, 0xac, 0x35, 0x4d, 0x6a, 0x2a,
   0x96, 0x1a, 0xd2, 0x71, 0x5a, 0x15, 0x49, 0x74, 0x4b, 0x9f, 0xd0, 0x5e, 0x04, 0x18, 0xa4, 0xec,
   0xc2, 0xe0, 0x41, 0x6e, 0x0f, 0x51, 0xcb, 0xcc, 0x24, 0x91, 0xaf, 0x50, 0xa1, 0xf4, 0x70, 0x39,
   0x99, 0x7c, 0x3a, 0x85, 0x23, 0xb8, 0xb4, 0x7a, 0xfc, 0x02, 0x36, 0x5b, 0x25, 0x55, 0x97, 0x31]
  ++ [0x2d, 0x5d, 0xfa, 0x98, 0xe3, 0x8a, 0x92, 0xae, 0x05, 0xdf, 0x29, 0x10, 0x67, 0x6c, 0xba, 0xc9,
   0xd3, 0x00, 0xe6, 0xcf, 0xe1, 0x9e, 0xa8, 0x2c, 0x63, 0x16, 0x01, 0x3f, 0x58, 0xe2, 0x89, 0xa9,
   0x0d, 0x38, 0x34, 0x1b, 0xab, 0x33, 0xff, 0xb0, 0xbb, 0x48, 0x0c, 0x5f, 0xb9, 0xb1, 0xcd, 0x2e,
   0xc5, 0xf3, 0xdb, 0x47, 0xe5, 0xa5, 0x9c, 0x77, 0x0a, 0xa6, 0x20, 0x68, 0xfe, 0x7f, 0xc1, 0xad]

/-- `PITABLE[i]` (42_blockcipher.md R221). -/
def pitableAt (i : Byte) : Byte := pitable.getD i.toNat 0

/-- The first loop of 42_blockcipher.md R222, on the array held last byte first: `n` more bytes
`L[i] = PITABLE[(L[i-1] + L[i-T]) mod 256]`. -/
def rc2Grow (t : Nat) : Nat → List Byte → List Byte
  | 0, rev => rev
  | n + 1, rev => rc2Grow t n (pitableAt (rev.getD 0 0 + rev.getD (t - 1) 0) :: rev)

/-- The last loop of 42_blockcipher.md R222, on the tail of the array from the byte last written: `n` more bytes in front,
`L[i] = PITABLE[L[i+1] xor L[i+T8]]`. -/
def rc2Reduce (t8 : Nat) : Nat → List Byte → List Byte
  | 0, l => l
  | n + 1, l => rc2Reduce t8 n (pitableAt (l.getD 0 0 ^^^ l.getD (t8 - 1) 0) :: l)

/-- The little-endian words of a byte string, `n` of them (42_blockcipher.md R220). -/
def leWords : Nat → List Byte → List (BitVec 16)
  | 0, _ => []
  | n + 1, l => BitVec.ofNat 16 ((l.getD 0 0).toNat + 256 * (l.getD 1 0).toNat) :: leWords n (l.drop 2)

/-- `rc2_expand(key, T1)` (42_blockcipher.md R222). -/
def rc2Expand (key : List Byte) (t1 : Nat) : List (BitVec 16) :=
  let t8 := ceilDiv t1 8
  let tm : Byte := BitVec.ofNat 8 (255 % 2 ^ (8 + t1 - 8 * t8))
  let l := (rc2Grow key.length (128 - key.length) key.reverse).reverse
  let top := pitableAt (l.getD (128 - t8) 0 &&& tm)
  leWords 64 (rc2Reduce t8 (128 - t8) (top :: l.drop (128 - t8 + 1)))

/-- The four 16-bit words `R[0..3]` of a block (42_blockcipher.md R225). -/
structure Quad where
  r0 : BitVec 16
  r1 : BitVec 16
  r2 : BitVec 16
  r3 : BitVec 16
  deriving DecidableEq, Repr

/-- `rmix` with the running key index at `j` (42_blockcipher.md R224). -/
def rmix (k : List (BitVec 16)) (j : Nat) (r : Quad) : Quad :=
  let r3 := r.r3.rotateRight 5 - k.getD j 0 - (r.r2 &&& r.r1) - (~~~r.r2 &&& r.r0)
  let r2 := r.r2.rotateRight 3 - k.getD (j - 1) 0 - (r.r1 &&& r.r0) - (~~~r.r1 &&& r3)
  let r1 := r.r1.rotateRight 2 - k.getD (j - 2) 0 - (r.r0 &&& r3) - (~~~r.r0 &&& r2)
  let r0 := r.r0.rotateRight 1 - k.getD (j - 3) 0 - (r3 &&& r2) - (~~~r3 &&& r1)
  ⟨r0, r1, r2, r3⟩

/-- `K[x and 63]` (42_blockcipher.md R224). -/
def mashKey (k : List (BitVec 16)) (x : BitVec 16) : BitVec 16 := k.getD (x &&& 63#16).toNat 0

/-- `rmash` (42_blockcipher.md R224). -/
def rmash (k : List (BitVec 16)) (r : Quad) : Quad :=
  let r3 := r.r3 - mashKey k r.r2
  let r2 := r.r2 - mashKey k r.r1
  let r1 := r.r1 - mashKey k r.r0
  let r0 := r.r0 - mashKey k r3
  ⟨r0, r1, r2, r3⟩

/-- `n` passes of `rmix`, the running key index starting at `j` and falling by 4 a pass. -/
def rmixes (k : List (BitVec 16)) : Nat → Nat → Quad → Quad
  | 0, _, r => r
  | n + 1, j, r => rmixes k n (j - 4) (rmix k j r)

/-- Byte `i` of an 8-byte block, byte 0 most significant (00_scope.md R16). -/
def blockByte (x : DWord) (i : Nat) : Byte := x.extractLsb' (56 - 8 * i) 8

/-- Word `i` of a block: `blk[2i] + 256 * blk[2i+1]` (42_blockcipher.md R225). -/
def quadWord (x : DWord) (i : Nat) : BitVec 16 := blockByte x (2 * i + 1) ++ blockByte x (2 * i)

/-- The bytes of a word in the block's order: low byte, high byte (42_blockcipher.md R225). -/
def swapWord (x : BitVec 16) : BitVec 16 := x.extractLsb' 0 8 ++ x.extractLsb' 8 8

/-- `rc2_dec(K, blk)` (42_blockcipher.md R225). -/
def rc2Dec (k : List (BitVec 16)) (blk : DWord) : DWord :=
  let r : Quad := ⟨quadWord blk 0, quadWord blk 1, quadWord blk 2, quadWord blk 3⟩
  let r := rmixes k 5 63 r
  let r := rmash k r
  let r := rmixes k 6 43 r
  let r := rmash k r
  let r := rmixes k 5 19 r
  swapWord r.r0 ++ swapWord r.r1 ++ swapWord r.r2 ++ swapWord r.r3

end Sys2Proof.Machine
end

