-- ==== Sys2Proof/Machine/Cipher.lean ====
section
/-! DEFINITION. The block-cipher decoder: CBC, unpadding (42_blockcipher.md R200 to R203) and the commands TDESD (R214) and
RC2D (R226). -/

namespace Sys2Proof.Machine

/-- The first `n` 8-byte blocks of a byte string, each as `nat` of its bytes (42_blockcipher.md R201, R205). -/
def cipherBlocks : Nat → List Byte → List DWord
  | 0, _ => []
  | n + 1, bs => BitVec.ofNat 64 (natBE (bs.take 8)) :: cipherBlocks n (bs.drop 8)

/-- The bytes of a list of blocks. -/
def blocksBytes (l : List DWord) : List Byte := (l.map (fun x => beBytes 8 x.toNat)).flatten

/-- `cbc_dec(D, v, c)` on blocks (42_blockcipher.md R201). -/
def cbcDec (d : DWord → DWord) : DWord → List DWord → List DWord
  | _, [] => []
  | v, c :: cs => (d c ^^^ v) :: cbcDec d c cs

/-- `unpad(p)` (42_blockcipher.md R202). -/
def unpad (p : List Byte) : Except FaultCode (List Byte) :=
  let n := (p.getD (p.length - 1) 0).toNat
  if n < 1 ∨ n > 8 then .error .badPadding
  else if (p.drop (p.length - n)).any (fun b => b.toNat != n) then .error .badPadding
  else .ok (p.take (p.length - n))

/-- MSGLEN as both ciphers want it: a nonzero multiple of 8, at most MSG_CAP (42_blockcipher.md R214, R226). -/
def checkCipherLength (s : State) : Except FaultCode Unit :=
  faultIf (s.msglen.toNat = 0 ∨ s.msglen.toNat % 8 ≠ 0 ∨ s.msglen.toNat > Config.msgCap) .badLength

/-- The execute phase both ciphers share, with the block function `d`: CBC, unpadding where `fin`, OUT, and IV becomes the
last ciphertext block (42_blockcipher.md R214, R226). -/
def cipherExecute (d : DWord → DWord) (fin : Bool) (s : State) : Except FaultCode State := do
  let blocks := cipherBlocks (s.msglen.toNat / 8) (msgBytes s)
  let p := blocksBytes (cbcDec d s.iv blocks)
  let q ← if fin then unpad p else .ok p
  return { setOut q s with
    iv := BitVec.ofNat 64 (natBE (Memory.readBytes s.mem (msgBase + (s.msglen.toNat - 8)) 8)) }

/-- `KEY[i..i+8)` as `nat` of its bytes (42_blockcipher.md R205, R214). -/
def keyDWord (s : State) (i : Nat) : DWord := BitVec.ofNat 64 (natBE (keySlice s i 8))

/-- The key length TDESD wants: 24, or 16 with K2 (42_blockcipher.md R214). -/
def tdesKeyLength (k2 : Bool) : Nat := if k2 then 16 else 24

/-- The block function of TDESD: `K3` is `KEY[16..24)`, or `K1` with K2 (42_blockcipher.md R214). -/
def tdesFunction (k2 : Bool) (s : State) : DWord → DWord :=
  tdesDec (keyDWord s 0) (keyDWord s 8) (if k2 then keyDWord s 0 else keyDWord s 16)

/-- TDESD (42_blockcipher.md R214). -/
def execTdesd (k2 fin : Bool) (s : State) : Host.Outcome State Fault Refusal :=
  finish .out s do
    faultIf (s.keylen.toNat ≠ tdesKeyLength k2) .badLength
    checkCipherLength s
    cipherExecute (tdesFunction k2 s) fin s

/-- The effective key length of RC2D in bits (42_blockcipher.md R220, R226). -/
def rc2EffectiveBits (e128 : Bool) : Nat := if e128 then 128 else 40

/-- The block function of RC2D (42_blockcipher.md R226). -/
def rc2Function (e128 : Bool) (s : State) : DWord → DWord :=
  rc2Dec (rc2Expand (keyBytes s) (rc2EffectiveBits e128))

/-- RC2D (42_blockcipher.md R226). -/
def execRc2d (e128 fin : Bool) (s : State) : Host.Outcome State Fault Refusal :=
  finish .out s do
    faultIf (s.keylen.toNat = 0 ∨ s.keylen.toNat > 128) .badLength
    checkCipherLength s
    cipherExecute (rc2Function e128 s) fin s

end Sys2Proof.Machine
end

