-- ==== Sys2Proof/Machine/Curve.lean ====
section
/-! DEFINITION. The elliptic-curve point unit: parameters (44_ecpoint.md R281), the Jacobian functions (R282 to R287) and the
commands ECDBL, ECADD, ECMUL, ECAFF, ECLDG (R289 to R293). -/

namespace Sys2Proof.Machine

/-- The field prime `p` (44_ecpoint.md R281). -/
def Curve.p : Curve → Nat
  | .p256 => 0xffffffff00000001000000000000000000000000ffffffffffffffffffffffff
  | .p384 =>
    0xfffffffffffffffffffffffffffffffffffffffffffffffffffffffffffffffeffffffff0000000000000000ffffffff

/-- The coefficient `b`, which no command uses (44_ecpoint.md R281). -/
def Curve.b : Curve → Nat
  | .p256 => 0x5ac635d8aa3a93e7b3ebbd55769886bc651d06b0cc53b0f63bce3c3e27d2604b
  | .p384 =>
    0xb3312fa7e23ee7e4988e056be3f82d19181d9c6efe8141120314088f5013875ac656398d8a2ed19d2a85c8edd3ec2aef

/-- The base point's x coordinate (44_ecpoint.md R281). -/
def Curve.gx : Curve → Nat
  | .p256 => 0x6b17d1f2e12c4247f8bce6e563a440f277037d812deb33a0f4a13945d898c296
  | .p384 =>
    0xaa87ca22be8b05378eb1c71ef320ad746e1d3b628ba79b9859f741e082542a385502f25dbf55296c3a545e3872760ab7

/-- The base point's y coordinate (44_ecpoint.md R281). -/
def Curve.gy : Curve → Nat
  | .p256 => 0x4fe342e2fe1a7f9b8ee7eb4a7c0f9e162bce33576b315ececbb6406837bf51f5
  | .p384 =>
    0x3617de4a96262c6f5d9e98bf9292dc29f8f41dbd289a147ce9da3113b5f0b8c00a60b1ce1d7e819d7a431d7c90ea0e5f

/-- The order `n` of the base point (44_ecpoint.md R281). -/
def Curve.n : Curve → Nat
  | .p256 => 0xffffffff00000000ffffffffffffffffbce6faada7179e84f3b9cac2fc632551
  | .p384 =>
    0xffffffffffffffffffffffffffffffffffffffffffffffffc7634d81f4372ddf581a0db248b0a77aecec196accc52973

/-- `clen`, the bytes of a coordinate, which is `rlen` too (44_ecpoint.md R281, 46_ecdsa.md R340). -/
def Curve.clen : Curve → Nat
  | .p256 => 32
  | .p384 => 48

/-- `qlen = bitlen(n)` (44_ecpoint.md R281). -/
def Curve.qlen : Curve → Nat
  | .p256 => 256
  | .p384 => 384

/-- A Jacobian triple of field elements (44_ecpoint.md R282). -/
structure Jac where
  x : Nat
  y : Nat
  z : Nat
  deriving DecidableEq, Repr

/-- `INF = (1, 1, 0)` (44_ecpoint.md R282). -/
def Jac.inf : Jac := ⟨1, 1, 0⟩

/-- The base point `(Gx, Gy, 1)` (44_ecpoint.md R281, R282). -/
def Curve.basePoint (c : Curve) : Jac := ⟨c.gx, c.gy, 1⟩

/-- A difference modulo `p`, never negative (44_ecpoint.md R283, 00_scope.md R18). -/
def subMod (p a b : Nat) : Nat := (a + (p - b % p)) % p

/-- `jdbl` over the field of `p` elements (44_ecpoint.md R284). -/
def jdbl (p : Nat) (v : Jac) : Jac :=
  if v.z = 0 ∨ v.y = 0 then Jac.inf
  else
    let delta := v.z * v.z % p
    let gamma := v.y * v.y % p
    let beta := v.x * gamma % p
    let alpha := 3 * subMod p v.x delta * (v.x + delta) % p
    let x3 := subMod p (alpha * alpha) (8 * beta)
    let yz := (v.y + v.z) % p
    let z3 := subMod p (subMod p (yz * yz) gamma) delta
    let y3 := subMod p (alpha * subMod p (4 * beta) x3) (8 * (gamma * gamma))
    ⟨x3, y3, z3⟩

/-- `jadd` over the field of `p` elements (44_ecpoint.md R285). -/
def jadd (p : Nat) (v w : Jac) : Jac :=
  if v.z = 0 ∧ w.z = 0 then Jac.inf
  else if v.z = 0 then w
  else if w.z = 0 then v
  else
    let zz1 := v.z * v.z % p
    let zz2 := w.z * w.z % p
    let u1 := v.x * zz2 % p
    let u2 := w.x * zz1 % p
    let s1 := v.y * (w.z * zz2 % p) % p
    let s2 := w.y * (v.z * zz1 % p) % p
    if u1 = u2 then
      if s1 = s2 then jdbl p v else Jac.inf
    else
      let h := subMod p u2 u1
      let r := subMod p s2 s1
      let hh := h * h % p
      let hhh := h * hh % p
      let uhh := u1 * hh % p
      let x3 := subMod p (subMod p (r * r) hhh) (2 * uhh)
      let y3 := subMod p (r * subMod p uhh x3) (s1 * hhh)
      ⟨x3, y3, v.z * w.z * h % p⟩

/-- The double-and-add of 44_ecpoint.md R286 over a scalar of `n` bits, most significant bit first. -/
def jmulBits (p : Nat) (v : Jac) : Nat → Nat → Jac
  | 0, _ => Jac.inf
  | n + 1, k =>
    let r := jdbl p (jmulBits p v n (k / 2))
    if k % 2 = 1 then jadd p r v else r

/-- `jmul(k, P)` (44_ecpoint.md R286). -/
def jmul (p k : Nat) (v : Jac) : Jac := jmulBits p v (bitlen k) k

/-- `affine((X, Y, Z))` for `Z != 0` (44_ecpoint.md R287). -/
def affine (p : Nat) (v : Jac) : Nat × Nat :=
  let zi := modinvOf v.z p
  let zi2 := zi * zi % p
  (v.x * zi2 % p, v.y * (zi * zi2 % p) % p)

/-- The triple a group of coordinate registers holds. -/
def jacOf (v : Point) : Jac := ⟨v.x.toNat, v.y.toNat, v.z.toNat⟩

/-- The coordinate registers that hold a triple. -/
def pointOf (v : Jac) : Point :=
  ⟨BitVec.ofNat Config.ecBits v.x, BitVec.ofNat Config.ecBits v.y, BitVec.ofNat Config.ecBits v.z⟩

/-- `BAD_OPERAND` unless every coordinate is below `p` of the curve (44_ecpoint.md R288). -/
def checkPoint (c : Curve) (v : Point) : Except FaultCode Unit :=
  faultIf (v.x.toNat ≥ c.p ∨ v.y.toNat ≥ c.p ∨ v.z.toNat ≥ c.p) .badOperand

/-- ECDBL (44_ecpoint.md R289). -/
def execEcdbl (s : State) : Host.Outcome State Fault Refusal :=
  finish .pointR s do
    let c ← selectCurve s
    checkPoint c s.pP
    return setPointR (pointOf (jdbl c.p (jacOf s.pP))) s

/-- ECADD (44_ecpoint.md R290). -/
def execEcadd (s : State) : Host.Outcome State Fault Refusal :=
  finish .pointR s do
    let c ← selectCurve s
    checkPoint c s.pP
    checkPoint c s.pQ
    return setPointR (pointOf (jadd c.p (jacOf s.pP) (jacOf s.pQ))) s

/-- ECMUL (44_ecpoint.md R291). -/
def execEcmul (s : State) : Host.Outcome State Fault Refusal :=
  finish .pointR s do
    let c ← selectCurve s
    checkPoint c s.pP
    return setPointR (pointOf (jmul c.p s.ecK.toNat (jacOf s.pP))) s

/-- ECAFF (44_ecpoint.md R292). -/
def execEcaff (s : State) : Host.Outcome State Fault Refusal :=
  finish .pointR s do
    let c ← selectCurve s
    checkPoint c s.pP
    faultIf (s.pP.z.toNat = 0) .pointAtInfinity
    let xy := affine c.p (jacOf s.pP)
    return setPointR (pointOf ⟨xy.1, xy.2, 1⟩) s

/-- ECLDG (44_ecpoint.md R293); its result location P is not among those a fault zeroes (60_exceptions.md R389). -/
def execEcldg (s : State) : Host.Outcome State Fault Refusal :=
  finish .none s do
    let c ← selectCurve s
    return setPointP (pointOf c.basePoint) s

end Sys2Proof.Machine
end

