-- ==== Sys2Proof/Machine/Sha.lean ====
section
/-! DEFINITION. The functions of the hash unit (40_hash.md R140 to R153). -/

namespace Sys2Proof.Machine

/-! Constants (40_hash.md R141 to R144). -/

/-- `IVAL(a)` as eight 64-bit words, that is `state0(a)`: 32-bit values zero-extended, SHA-1 words 5 to 7 zero
(40_hash.md R141, R153). -/
def state0 : HashAlg → HashWords
  | .sha1 => ⟨0x67452301, 0xefcdab89, 0x98badcfe, 0x10325476, 0xc3d2e1f0, 0, 0, 0⟩
  | .sha256 =>
    ⟨0x6a09e667, 0xbb67ae85, 0x3c6ef372, 0xa54ff53a, 0x510e527f, 0x9b05688c, 0x1f83d9ab, 0x5be0cd19⟩
  | .sha384 =>
    ⟨0xcbbb9d5dc1059ed8, 0x629a292a367cd507, 0x9159015a3070dd17, 0x152fecd8f70e5939,
     0x67332667ffc00b31, 0x8eb44a8768581511, 0xdb0c2e0d64f98fa7, 0x47b5481dbefa4fa4⟩
  | .sha512 =>
    ⟨0x6a09e667f3bcc908, 0xbb67ae8584caa73b, 0x3c6ef372fe94f82b, 0xa54ff53a5f1d36f1,
     0x510e527fade682d1, 0x9b05688c2b3e6c1f, 0x1f83d9abfb41bd6b, 0x5be0cd19137e2179⟩

/-- The words of a vector, word 0 first. -/
def Eight.toList {w : Nat} (x : Eight w) : List (BitVec w) := [x.h0, x.h1, x.h2, x.h3, x.h4, x.h5, x.h6, x.h7]

/-- A table of round constants, given as rows of eight words, `K[8*i .. 8*i+8)` in row `i`. -/
def wordTable {w : Nat} (rows : List (Eight w)) : List (BitVec w) := rows.flatMap Eight.toList

/-- The rows of `K256`, one printed line each (40_hash.md R142). -/
def k256Rows : List (Eight 32) :=
  [⟨0x428a2f98, 0x71374491, 0xb5c0fbcf, 0xe9b5dba5, 0x3956c25b, 0x59f111f1, 0x923f82a4, 0xab1c5ed5⟩,
   ⟨0xd807aa98, 0x12835b01, 0x243185be, 0x550c7dc3, 0x72be5d74, 0x80deb1fe, 0x9bdc06a7, 0xc19bf174⟩,
   ⟨0xe49b69c1, 0xefbe4786, 0x0fc19dc6, 0x240ca1cc, 0x2de92c6f, 0x4a7484aa, 0x5cb0a9dc, 0x76f988da⟩,
   ⟨0x983e5152, 0xa831c66d, 0xb00327c8, 0xbf597fc7, 0xc6e00bf3, 0xd5a79147, 0x06ca6351, 0x14292967⟩,
   ⟨0x27b70a85, 0x2e1b2138, 0x4d2c6dfc, 0x53380d13, 0x650a7354, 0x766a0abb, 0x81c2c92e, 0x92722c85⟩,
   ⟨0xa2bfe8a1, 0xa81a664b, 0xc24b8b70, 0xc76c51a3, 0xd192e819, 0xd6990624, 0xf40e3585, 0x106aa070⟩,
   ⟨0x19a4c116, 0x1e376c08, 0x2748774c, 0x34b0bcb5, 0x391c0cb3, 0x4ed8aa4a, 0x5b9cca4f, 0x682e6ff3⟩,
   ⟨0x748f82ee, 0x78a5636f, 0x84c87814, 0x8cc70208, 0x90befffa, 0xa4506ceb, 0xbef9a3f7, 0xc67178f2⟩]

/-- `K256[0..63]` (40_hash.md R142). -/
def k256 : List (BitVec 32) := wordTable k256Rows

/-- The rows of `K512`, two printed lines each (40_hash.md R143). -/
def k512Rows : List (Eight 64) :=
  [⟨0x428a2f98d728ae22, 0x7137449123ef65cd, 0xb5c0fbcfec4d3b2f, 0xe9b5dba58189dbbc,
    0x3956c25bf348b538, 0x59f111f1b605d019, 0x923f82a4af194f9b, 0xab1c5ed5da6d8118⟩,
   ⟨0xd807aa98a3030242, 0x12835b0145706fbe, 0x243185be4ee4b28c, 0x550c7dc3d5ffb4e2,
    0x72be5d74f27b896f, 0x80deb1fe3b1696b1, 0x9bdc06a725c71235, 0xc19bf174cf692694⟩,
   ⟨0xe49b69c19ef14ad2, 0xefbe4786384f25e3, 0x0fc19dc68b8cd5b5, 0x240ca1cc77ac9c65,
    0x2de92c6f592b0275, 0x4a7484aa6ea6e483, 0x5cb0a9dcbd41fbd4, 0x76f988da831153b5⟩,
   ⟨0x983e5152ee66dfab, 0xa831c66d2db43210, 0xb00327c898fb213f, 0xbf597fc7beef0ee4,
    0xc6e00bf33da88fc2, 0xd5a79147930aa725, 0x06ca6351e003826f, 0x142929670a0e6e70⟩,
   ⟨0x27b70a8546d22ffc, 0x2e1b21385c26c926, 0x4d2c6dfc5ac42aed, 0x53380d139d95b3df,
    0x650a73548baf63de, 0x766a0abb3c77b2a8, 0x81c2c92e47edaee6, 0x92722c851482353b⟩,
   ⟨0xa2bfe8a14cf10364, 0xa81a664bbc423001, 0xc24b8b70d0f89791, 0xc76c51a30654be30,
    0xd192e819d6ef5218, 0xd69906245565a910, 0xf40e35855771202a, 0x106aa07032bbd1b8⟩,
   ⟨0x19a4c116b8d2d0c8, 0x1e376c085141ab53, 0x2748774cdf8eeb99, 0x34b0bcb5e19b48a8,
    0x391c0cb3c5c95a63, 0x4ed8aa4ae3418acb, 0x5b9cca4f7763e373, 0x682e6ff3d6b2b8a3⟩,
   ⟨0x748f82ee5defb2fc, 0x78a5636f43172f60, 0x84c87814a1f0ab72, 0x8cc702081a6439ec,
    0x90befffa23631e28, 0xa4506cebde82bde9, 0xbef9a3f7b2c67915, 0xc67178f2e372532b⟩,
   ⟨0xca273eceea26619c, 0xd186b8c721c0c207, 0xeada7dd6cde0eb1e, 0xf57d4f7fee6ed178,
    0x06f067aa72176fba, 0x0a637dc5a2c898a6, 0x113f9804bef90dae, 0x1b710b35131c471b⟩,
   ⟨0x28db77f523047d84, 0x32caab7b40c72493, 0x3c9ebe0a15c9bebc, 0x431d67c49c100d4c,
    0x4cc5d4becb3e42b6, 0x597f299cfc657e2a, 0x5fcb6fab3ad6faec, 0x6c44198c4a475817⟩]

/-- `K512[0..79]` (40_hash.md R143). -/
def k512 : List (BitVec 64) := wordTable k512Rows

/-- `K1(t)` of SHA-1 (40_hash.md R144). -/
def k1 (t : Nat) : BitVec 32 :=
  if t ≤ 19 then 0x5a827999 else if t ≤ 39 then 0x6ed9eba1 else if t ≤ 59 then 0x8f1bbcdc else 0xca62c1d6

/-! SHA-256 and SHA-512: one compression pseudocode over two word widths (40_hash.md R145 to R148). -/

/-- What R146 and R148 leave to the word width: the four logical functions, and the round constants. -/
structure Sha2 (w : Nat) where
  bs0 : BitVec w → BitVec w
  bs1 : BitVec w → BitVec w
  ss0 : BitVec w → BitVec w
  ss1 : BitVec w → BitVec w
  ks : List (BitVec w)

/-- The functions and constants of SHA-256 (40_hash.md R142, R145). -/
def sha2w32 : Sha2 32 where
  bs0 x := x.rotateRight 2 ^^^ x.rotateRight 13 ^^^ x.rotateRight 22
  bs1 x := x.rotateRight 6 ^^^ x.rotateRight 11 ^^^ x.rotateRight 25
  ss0 x := x.rotateRight 7 ^^^ x.rotateRight 18 ^^^ (x >>> 3)
  ss1 x := x.rotateRight 17 ^^^ x.rotateRight 19 ^^^ (x >>> 10)
  ks := k256

/-- The functions and constants of SHA-384 and SHA-512 (40_hash.md R143, R147). -/
def sha2w64 : Sha2 64 where
  bs0 x := x.rotateRight 28 ^^^ x.rotateRight 34 ^^^ x.rotateRight 39
  bs1 x := x.rotateRight 14 ^^^ x.rotateRight 18 ^^^ x.rotateRight 41
  ss0 x := x.rotateRight 1 ^^^ x.rotateRight 8 ^^^ (x >>> 7)
  ss1 x := x.rotateRight 19 ^^^ x.rotateRight 61 ^^^ (x >>> 6)
  ks := k512

/-- `Ch(x,y,z)` (40_hash.md R145). -/
def ch {w : Nat} (x y z : BitVec w) : BitVec w := (x &&& y) ^^^ (~~~x &&& z)

/-- `Maj(x,y,z)` (40_hash.md R145). -/
def maj {w : Nat} (x y z : BitVec w) : BitVec w := (x &&& y) ^^^ (x &&& z) ^^^ (y &&& z)

/-- The first `n` words of `wb` bytes each of a byte string, big-endian: `W[t] = nat(blk[wb*t .. wb*t+wb))`. -/
def blockWords (w wb : Nat) : Nat → List Byte → List (BitVec w)
  | 0, _ => []
  | n + 1, bs => BitVec.ofNat w (natBE (bs.take wb)) :: blockWords w wb n (bs.drop wb)

/-- Extends a message schedule, held latest word first, by `n` words (40_hash.md R146, second line). -/
def extendSchedule {w : Nat} (f : Sha2 w) : Nat → List (BitVec w) → List (BitVec w)
  | 0, ws => ws
  | n + 1, ws =>
    extendSchedule f n ((f.ss1 (ws.getD 1 0) + ws.getD 6 0 + f.ss0 (ws.getD 14 0) + ws.getD 15 0) :: ws)

/-- One round with its constant and schedule word (40_hash.md R146, the second loop). -/
def sha2Round {w : Nat} (f : Sha2 w) (v : Eight w) (kw : BitVec w × BitVec w) : Eight w :=
  let t1 := v.h7 + f.bs1 v.h4 + ch v.h4 v.h5 v.h6 + kw.1 + kw.2
  let t2 := f.bs0 v.h0 + maj v.h0 v.h1 v.h2
  ⟨t1 + t2, v.h0, v.h1, v.h2, v.h3 + t1, v.h4, v.h5, v.h6⟩

/-- Wordwise sum, the last line of 40_hash.md R146. -/
def Eight.add {w : Nat} (x y : Eight w) : Eight w :=
  ⟨x.h0 + y.h0, x.h1 + y.h1, x.h2 + y.h2, x.h3 + y.h3, x.h4 + y.h4, x.h5 + y.h5, x.h6 + y.h6, x.h7 + y.h7⟩

/-- The message schedule of a block, word 0 first (40_hash.md R146). -/
def sha2Schedule {w : Nat} (f : Sha2 w) (wb : Nat) (blk : List Byte) : List (BitVec w) :=
  (extendSchedule f (f.ks.length - 16) (blockWords w wb 16 blk).reverse).reverse

/-- `comp256` and `comp512` (40_hash.md R146, R148). -/
def sha2Compress {w : Nat} (f : Sha2 w) (wb : Nat) (st : Eight w) (blk : List Byte) : Eight w :=
  Eight.add st ((f.ks.zip (sha2Schedule f wb blk)).foldl (sha2Round f) st)

/-! SHA-1 (40_hash.md R149). -/

/-- The five words of a SHA-1 state. -/
structure Five where
  a : BitVec 32
  b : BitVec 32
  c : BitVec 32
  d : BitVec 32
  e : BitVec 32
  deriving DecidableEq, Repr

/-- Extends a SHA-1 message schedule, held latest word first, by `n` words (40_hash.md R149, second line). -/
def extendSchedule1 : Nat → List (BitVec 32) → List (BitVec 32)
  | 0, ws => ws
  | n + 1, ws =>
    extendSchedule1 n ((ws.getD 2 0 ^^^ ws.getD 7 0 ^^^ ws.getD 13 0 ^^^ ws.getD 15 0).rotateLeft 1 :: ws)

/-- The function `f` of round `t` (40_hash.md R149). -/
def sha1F (t : Nat) (b c d : BitVec 32) : BitVec 32 :=
  if t ≤ 19 then (b &&& c) ||| (~~~b &&& d)
  else if t ≤ 39 then b ^^^ c ^^^ d
  else if t ≤ 59 then (b &&& c) ||| (b &&& d) ||| (c &&& d)
  else b ^^^ c ^^^ d

/-- Round `t` with its schedule word (40_hash.md R149). -/
def sha1Round (v : Five) (tw : Nat × BitVec 32) : Five :=
  ⟨v.a.rotateLeft 5 + sha1F tw.1 v.b v.c v.d + v.e + k1 tw.1 + tw.2, v.a, v.b.rotateLeft 30, v.c, v.d⟩

/-- `comp1` (40_hash.md R149). -/
def comp1 (st : Five) (blk : List Byte) : Five :=
  let ws := (extendSchedule1 64 (blockWords 32 4 16 blk).reverse).reverse
  let v := ((List.range 80).zip ws).foldl sha1Round st
  ⟨st.a + v.a, st.b + v.b, st.c + v.c, st.d + v.d, st.e + v.e⟩

/-! The block-level primitive, padding and the hash function (40_hash.md R150 to R153). -/

/-- Bits 31:0 of a hash register word. -/
def low32 (x : DWord) : BitVec 32 := x.setWidth 32

/-- `zext_64`. -/
def zext64 (x : BitVec 32) : DWord := x.setWidth 64

/-- `compress(a, H, blk)` (40_hash.md R150). -/
def compress (a : HashAlg) (h : HashWords) (blk : List Byte) : HashWords :=
  match a with
  | .sha1 =>
    let r := comp1 ⟨low32 h.h0, low32 h.h1, low32 h.h2, low32 h.h3, low32 h.h4⟩ blk
    ⟨zext64 r.a, zext64 r.b, zext64 r.c, zext64 r.d, zext64 r.e, h.h5, h.h6, h.h7⟩
  | .sha256 =>
    let r := sha2Compress sha2w32 4 ⟨low32 h.h0, low32 h.h1, low32 h.h2, low32 h.h3, low32 h.h4, low32 h.h5,
      low32 h.h6, low32 h.h7⟩ blk
    ⟨zext64 r.h0, zext64 r.h1, zext64 r.h2, zext64 r.h3, zext64 r.h4, zext64 r.h5, zext64 r.h6, zext64 r.h7⟩
  | .sha384 => sha2Compress sha2w64 8 h blk
  | .sha512 => sha2Compress sha2w64 8 h blk

/-- `compress` over the first `n` blocks of a byte string, in order (the loop of 40_hash.md R152 and R155). -/
def absorb (a : HashAlg) : Nat → HashWords → List Byte → HashWords
  | 0, h, _ => h
  | n + 1, h, data =>
    absorb a n (compress a h (data.take (blockBytes a))) (data.drop (blockBytes a))

/-- `pad(a, tlen, total)` (40_hash.md R151); the zero count is `(B - L - 1 - tlen) mod B`. -/
def pad (a : HashAlg) (tlen total : Nat) : List Byte :=
  0x80 :: zeros ((2 * blockBytes a - lengthBytes a - 1 - tlen % blockBytes a) % blockBytes a)
    ++ beBytes (lengthBytes a) (8 * total % 256 ^ lengthBytes a)

/-- The digest a final state stands for (40_hash.md R152, its last three lines). -/
def digestOf (a : HashAlg) (h : HashWords) : List Byte :=
  ((((Eight.toList h).take (stateWords a)).map
    (fun x => beBytes (wordBytes a) (x.toNat % 2 ^ (8 * wordBytes a)))).flatten).take (digestBytes a)

/-- `finalize(a, H, tail, total)` (40_hash.md R152). -/
def finalize (a : HashAlg) (h : HashWords) (tail : List Byte) (total : Nat) : List Byte :=
  let data := tail ++ pad a tail.length total
  digestOf a (absorb a (data.length / blockBytes a) h data)

/-- `hash(a, m)` (40_hash.md R153). -/
def hashOf (a : HashAlg) (m : List Byte) : List Byte := finalize a (state0 a) m m.length

end Sys2Proof.Machine
end

