-- ==== Sys2Proof/Machine/Hmac.lean ====
section
/-! DEFINITION. The HMAC unit (41_hmac.md): its functions R181 to R183 and its commands R185 to R188. -/

namespace Sys2Proof.Machine

/-- `normkey(a, k)` (41_hmac.md R181). -/
def normkey (a : HashAlg) (k : List Byte) : List Byte :=
  if k.length > blockBytes a then hashOf a k ++ zeros (blockBytes a - digestBytes a)
  else k ++ zeros (blockBytes a - k.length)

/-- `ipad(a)` (41_hmac.md R182). -/
def ipad (a : HashAlg) : List Byte := rep 0x36 (blockBytes a)

/-- `opad(a)` (41_hmac.md R182). -/
def opad (a : HashAlg) : List Byte := rep 0x5c (blockBytes a)

/-- `hmac(a, k, m)` (41_hmac.md R182). -/
def hmacOf (a : HashAlg) (k m : List Byte) : List Byte :=
  let k0 := normkey a k
  hashOf a (xorBytes k0 (opad a) ++ hashOf a (xorBytes k0 (ipad a) ++ m))

/-- `ctx_i(a, k)` (41_hmac.md R183). -/
def ctxI (a : HashAlg) (k : List Byte) : HashWords := compress a (state0 a) (xorBytes (normkey a k) (ipad a))

/-- `ctx_o(a, k)` (41_hmac.md R183). -/
def ctxO (a : HashAlg) (k : List Byte) : HashWords := compress a (state0 a) (xorBytes (normkey a k) (opad a))

/-- HMKEY (41_hmac.md R185). -/
def execHmkey (alg : BitVec 4) (s : State) : Host.Outcome State Fault Refusal :=
  withHash alg s fun a =>
    finish .none s do
      faultIf (s.keylen.toNat > Config.keyCap) .badLength
      return closeStream { s with hmI := ctxI a (keyBytes s), hmO := ctxO a (keyBytes s), hmAlg := some a }

/-- HMINIT (41_hmac.md R186). -/
def execHminit (s : State) : Host.Outcome State Fault Refusal :=
  finish .none s do
    let a ← hmacContext s
    return { s with hst := s.hmI, totlen := BitVec.ofNat 64 (blockBytes a), stream := .hmac a }

/-- HMFINAL (41_hmac.md R187). -/
def execHmfinal (s : State) : Host.Outcome State Fault Refusal :=
  finish .out s do
    let a ← openHmacStream s
    faultIf (s.msglen.toNat > Config.msgCap) .badLength
    faultIf (totalAfter s ≥ lengthLimit a) .lenOverflow
    let inner := finalize a s.hst (msgBytes s) (totalAfter s)
    return closeStream (setOut (finalize a s.hmO inner (blockBytes a + digestBytes a)) s)

/-- HMAC (41_hmac.md R188). -/
def execHmac (alg : BitVec 4) (s : State) : Host.Outcome State Fault Refusal :=
  withHash alg s fun a =>
    finish .out s do
      faultIf (s.keylen.toNat > Config.keyCap) .badLength
      faultIf (s.msglen.toNat > Config.msgCap) .badLength
      return closeStream (setOut (hmacOf a (keyBytes s) (msgBytes s)) s)

end Sys2Proof.Machine
end

