-- ==== Sys2Proof/Machine/Rsa.lean ====
section
/-! DEFINITION. The RSA PKCS#1 v1.5 signer (45_rsa.md R320 to R325). -/

namespace Sys2Proof.Machine

/-- `prefix(a)`, the DER bytes before the digest in DigestInfo (45_rsa.md R321). -/
def digestInfoPrefix : HashAlg → List Byte
  | .sha1 => [0x30, 0x21, 0x30, 0x09, 0x06, 0x05, 0x2b, 0x0e, 0x03, 0x02, 0x1a, 0x05, 0x00, 0x04, 0x14]
  | .sha256 =>
    [0x30, 0x31, 0x30, 0x0d, 0x06, 0x09, 0x60, 0x86, 0x48, 0x01, 0x65, 0x03, 0x04, 0x02, 0x01, 0x05, 0x00, 0x04, 0x20]
  | .sha384 =>
    [0x30, 0x41, 0x30, 0x0d, 0x06, 0x09, 0x60, 0x86, 0x48, 0x01, 0x65, 0x03, 0x04, 0x02, 0x02, 0x05, 0x00, 0x04, 0x30]
  | .sha512 =>
    [0x30, 0x51, 0x30, 0x0d, 0x06, 0x09, 0x60, 0x86, 0x48, 0x01, 0x65, 0x03, 0x04, 0x02, 0x03, 0x05, 0x00, 0x04, 0x40]

/-- `tLen(a)` (45_rsa.md R321). -/
def tLen (a : HashAlg) : Nat := (digestInfoPrefix a).length + digestBytes a

/-- `emsa(a, digest, k)`, for `k >= tLen(a) + 11` (45_rsa.md R322). -/
def emsa (a : HashAlg) (digest : List Byte) (k : Nat) : List Byte :=
  0x00 :: 0x01 :: rep 0xFF (k - tLen a - 3) ++ 0x00 :: (digestInfoPrefix a ++ digest)

/-- `rsa_sign(a, digest, k, key)` (45_rsa.md R324). -/
def rsaSign (a : HashAlg) (digest : List Byte) (k : Nat) (key : RsaKey) : Nat := crtKey (natBE (emsa a digest k)) key

/-- `k = ceil(NBITS / 8)` (45_rsa.md R323). -/
def modulusBytes (s : State) : Nat := ceilDiv s.nbits.toNat 8

/-- The digest a signer signs: MSG itself with DG = 1, else the hash of the message in MSG (45_rsa.md R325,
46_ecdsa.md R348). -/
def signDigest (a : HashAlg) (dg : Bool) (s : State) : List Byte :=
  if dg then msgPrefix s (digestBytes a) else hashOf a (msgBytes s)

/-- RSASIGN (45_rsa.md R325). -/
def execRsasign (alg : BitVec 4) (dg : Bool) (s : State) : Host.Outcome State Fault Refusal :=
  withHash alg s fun a =>
    finish .out s do
      checkSignLength a dg s
      faultIf (s.nbits.toNat = 0 ∨ s.nbits.toNat > Config.bnBits) .badOperand
      checkCrtOperands s
      faultIf (tLen a + 11 > modulusBytes s) .rsaCapacity
      let sig := rsaSign a (signDigest a dg s) (modulusBytes s) s.rsa
      faultIf (sig ≥ 256 ^ modulusBytes s) .keyInconsistent
      return closeStream (setOut (beBytes (modulusBytes s) sig) s)

end Sys2Proof.Machine
end

