-- ==== Sys2Proof/Machine/Ecdsa.lean ====
section
/-! DEFINITION. The ECDSA signer with the nonce generator of RFC 6979 (46_ecdsa.md R340 to R349). -/

namespace Sys2Proof.Machine

/-- `bits2int(b)` for an order of `qlen` bits (46_ecdsa.md R341). -/
def bits2int (qlen : Nat) (b : List Byte) : Nat :=
  if 8 * b.length > qlen then natBE b >>> (8 * b.length - qlen) else natBE b

/-- `bits2octets(b)`, with `int2octets(x) = be(rlen, x)` (46_ecdsa.md R341). -/
def bits2octets (n qlen rlen : Nat) (b : List Byte) : List Byte := beBytes rlen (bits2int qlen b % n)

/-- The generator's state: the HMAC key `K` and the value `V` (46_ecdsa.md R342). -/
structure Drbg where
  k : List Byte
  v : List Byte
  deriving DecidableEq, Repr

/-- The generator's state before the first candidate, from the seed `int2octets(d) ‖ bits2octets(h1)` (46_ecdsa.md R342). -/
def drbgInit (a : HashAlg) (seed : List Byte) : Drbg :=
  let v0 := rep 0x01 (digestBytes a)
  let k1 := hmacOf a (rep 0x00 (digestBytes a)) (v0 ++ [0x00] ++ seed)
  let v1 := hmacOf a k1 v0
  let k2 := hmacOf a k1 (v1 ++ [0x01] ++ seed)
  ⟨k2, hmacOf a k2 v1⟩

/-- The `while` loop of `next_candidate`: appends `V` to `T` until `T` has `rlen` bytes; each turn adds at least one byte,
so `rlen` turns are enough (46_ecdsa.md R343). -/
def gatherCandidate (a : HashAlg) (rlen : Nat) (k : List Byte) : Nat → List Byte → List Byte → List Byte × List Byte
  | 0, t, v => (t, v)
  | fuel + 1, t, v =>
    if t.length < rlen then gatherCandidate a rlen k fuel (t ++ hmacOf a k v) (hmacOf a k v) else (t, v)

/-- `next_candidate(K, V)`: the candidate and the state after it (46_ecdsa.md R343). -/
def nextCandidate (a : HashAlg) (qlen rlen : Nat) (g : Drbg) : Nat × Drbg :=
  let tv := gatherCandidate a rlen g.k rlen [] g.v
  (bits2int qlen tv.1, ⟨g.k, tv.2⟩)

/-- `reseed(K, V)` (46_ecdsa.md R343). -/
def reseed (a : HashAlg) (g : Drbg) : Drbg :=
  let k := hmacOf a g.k (g.v ++ [0x00])
  ⟨k, hmacOf a k g.v⟩

/-- The acceptance test of a candidate `k`, with the values `(r, s)` where it is accepted (46_ecdsa.md R344). -/
def acceptCandidate (c : Curve) (d e k : Nat) : Option (Nat × Nat) :=
  if k < 1 ∨ k > c.n - 1 then none
  else
    let r := (affine c.p (jmul c.p k c.basePoint)).1 % c.n
    if r = 0 then none
    else
      let s := modinvOf k c.n * (e + r * d) % c.n
      if s = 0 then none else some (r, s)

/-- The loop of 46_ecdsa.md R347 with `fuel` candidates left, over any candidate test. -/
def signLoop (a : HashAlg) (qlen rlen : Nat) (accept : Nat → Option (Nat × Nat)) : Nat → Drbg → Option (Nat × Nat)
  | 0, _ => none
  | fuel + 1, g =>
    let kg := nextCandidate a qlen rlen g
    match accept kg.1 with
    | some rs => some rs
    | none => signLoop a qlen rlen accept fuel (reseed a kg.2)

/-- The signature `(r, s)` of a digest `h1` under `d`, none after RETRY_MAX rejected candidates (46_ecdsa.md R345, R347). -/
def ecdsaPair (a : HashAlg) (c : Curve) (h1 : List Byte) (d : Nat) : Option (Nat × Nat) :=
  let e := bits2int c.qlen h1 % c.n
  let g := drbgInit a (beBytes c.clen d ++ bits2octets c.n c.qlen c.clen h1)
  signLoop a c.qlen c.clen (acceptCandidate c d e) Config.retryMax g

/-- `der_int(v)`, `v >= 1` (46_ecdsa.md R346). -/
def derInt (v : Nat) : List Byte :=
  let b := beBytes (ceilDiv (bitlen v) 8) v
  let b := if (b.getD 0 0).toNat ≥ 0x80 then 0x00 :: b else b
  0x02 :: BitVec.ofNat 8 b.length :: b

/-- `der_sig(r, s)` (46_ecdsa.md R346). -/
def derSig (r s : Nat) : List Byte :=
  let body := derInt r ++ derInt s
  0x30 :: BitVec.ofNat 8 body.length :: body

/-- `ecdsa_sign(a, h1, d)`; `NONCE_EXHAUSTED` where there is no result (46_ecdsa.md R347, R348). -/
def ecdsaSign (a : HashAlg) (c : Curve) (h1 : List Byte) (d : Nat) : Except FaultCode (List Byte) :=
  match ecdsaPair a c h1 d with
  | none => .error .nonceExhausted
  | some rs => .ok (derSig rs.1 rs.2)

/-- ECSIGN (46_ecdsa.md R348). -/
def execEcsign (alg : BitVec 4) (dg : Bool) (s : State) : Host.Outcome State Fault Refusal :=
  withHash alg s fun a =>
    finish .out s do
      let c ← selectCurve s
      checkSignLength a dg s
      faultIf (s.ecD.toNat = 0 ∨ s.ecD.toNat ≥ c.n) .badOperand
      let sig ← ecdsaSign a c (signDigest a dg s) s.ecD.toNat
      return closeStream (setOut sig s)

end Sys2Proof.Machine
end

