-- ==== Sys2Proof/Machine/Hash.lean ====
section
/-! DEFINITION. The commands of the hash unit (40_hash.md R154 to R158). -/

namespace Sys2Proof.Machine

/-- HINIT (40_hash.md R154). -/
def execHinit (alg : BitVec 4) (s : State) : Host.Outcome State Fault Refusal :=
  withHash alg s fun a =>
    finish .none s (.ok { s with hst := state0 a, totlen := 0, stream := .plain a })

/-- HUPDATE (40_hash.md R155). -/
def execHupdate (s : State) : Host.Outcome State Fault Refusal :=
  finish .none s do
    let a ← openStream s
    faultIf (s.msglen.toNat > Config.msgCap ∨ s.msglen.toNat % blockBytes a ≠ 0) .badLength
    faultIf (totalAfter s ≥ lengthLimit a) .lenOverflow
    return { s with
      hst := absorb a (s.msglen.toNat / blockBytes a) s.hst (msgBytes s)
      totlen := BitVec.ofNat 64 (totalAfter s) }

/-- HFINAL (40_hash.md R156). -/
def execHfinal (s : State) : Host.Outcome State Fault Refusal :=
  finish .out s do
    let a ← openPlainStream s
    faultIf (s.msglen.toNat > Config.msgCap) .badLength
    faultIf (totalAfter s ≥ lengthLimit a) .lenOverflow
    return closeStream (setOut (finalize a s.hst (msgBytes s) (totalAfter s)) s)

/-- HCOMP (40_hash.md R157). -/
def execHcomp (alg : BitVec 4) (s : State) : Host.Outcome State Fault Refusal :=
  withHash alg s fun a =>
    finish .none s do
      faultIf (s.msglen.toNat ≠ blockBytes a) .badLength
      return { s with hst := compress a s.hst (msgPrefix s (blockBytes a)) }

/-- HASH (40_hash.md R158). -/
def execHash (alg : BitVec 4) (s : State) : Host.Outcome State Fault Refusal :=
  withHash alg s fun a =>
    finish .out s do
      faultIf (s.msglen.toNat > Config.msgCap) .badLength
      return closeStream (setOut (hashOf a (msgBytes s)) s)

end Sys2Proof.Machine
end

