-- ==== Sys2Proof/Machine/System.lean ====
section
/-! DEFINITION. The system commands NOP and ZEROIZE (47_system.md R370, R371). -/

namespace Sys2Proof.Machine

/-- NOP (47_system.md R370). -/
def execNop (s : State) : Host.Outcome State Fault Refusal := finish .none s (.ok s)

/-- The writes of ZEROIZE: every item of data state becomes 0 (47_system.md R371). KEY, MSG and OUT are all of `mem`. -/
def zeroizeData (s : State) : State :=
  { s with
    mem := []
    msglen := 0
    keylen := 0
    outlen := 0
    totlen := 0
    hst := zeroWords
    stream := .closed
    hmI := zeroWords
    hmO := zeroWords
    hmAlg := none
    iv := 0
    curve := 0
    nbits := 0
    bnA := 0
    bnE := 0
    bnM := 0
    bnR := 0
    rsa := zeroRsaKey
    ecD := 0
    ecK := 0
    pP := zeroPoint
    pQ := zeroPoint
    pR := zeroPoint }

/-- ZEROIZE (47_system.md R371). -/
def execZeroize (s : State) : Host.Outcome State Fault Refusal := finish .none s (.ok (zeroizeData s))

end Sys2Proof.Machine
end

