-- ==== Sys2Proof/Machine/Dispatch.lean ====
section
/-! DEFINITION. The dispatch of a command to its meaning, one arm per constructor. -/

namespace Sys2Proof.Machine

def exec (i : Instr) (s : State) : Host.Outcome State Fault Refusal :=
  match i with
  | .nop => Sys2Proof.Machine.execNop s
  | .zeroize => Sys2Proof.Machine.execZeroize s
  | .hinit alg => Sys2Proof.Machine.execHinit alg s
  | .hupdate => Sys2Proof.Machine.execHupdate s
  | .hfinal => Sys2Proof.Machine.execHfinal s
  | .hcomp alg => Sys2Proof.Machine.execHcomp alg s
  | .hash alg => Sys2Proof.Machine.execHash alg s
  | .hmkey alg => Sys2Proof.Machine.execHmkey alg s
  | .hminit => Sys2Proof.Machine.execHminit s
  | .hmfinal => Sys2Proof.Machine.execHmfinal s
  | .hmac alg => Sys2Proof.Machine.execHmac alg s
  | .tdesd k2 fin => Sys2Proof.Machine.execTdesd k2 fin s
  | .rc2d e128 fin => Sys2Proof.Machine.execRc2d e128 fin s
  | .modexp => Sys2Proof.Machine.execModexp s
  | .modinv => Sys2Proof.Machine.execModinv s
  | .modcrt => Sys2Proof.Machine.execModcrt s
  | .ecdbl => Sys2Proof.Machine.execEcdbl s
  | .ecadd => Sys2Proof.Machine.execEcadd s
  | .ecmul => Sys2Proof.Machine.execEcmul s
  | .ecaff => Sys2Proof.Machine.execEcaff s
  | .ecldg => Sys2Proof.Machine.execEcldg s
  | .rsasign alg dg => Sys2Proof.Machine.execRsasign alg dg s
  | .ecsign alg dg => Sys2Proof.Machine.execEcsign alg dg s

end Sys2Proof.Machine
end

