-- ==== Sys2Proof/Machine/Agents.lean ====
section
/-! DEFINITION. What each agent does in one step: the core performs the pending command, the host accesses the bus, the
platform resets (00_scope.md R11, 70_reset_and_hazards.md R420). -/

namespace Sys2Proof.Machine

/-- The core moves: where a command is pending it performs all of it, at its end clearing BUSY; a word that does not decode
faults and zeroes nothing; an idle core holds its state (00_scope.md R11, 60_exceptions.md R389, R401). -/
def coreStep (s : State) : Host.Outcome State Fault Refusal :=
  if s.status.busy then
    match decode (fetchWord s) with
    | .ok i => exec i s
    | .error c => .next (raiseFault c .none s)
  else .next s

/-- The platform resets the core; what the host has yet to do and has read stays (70_reset_and_hazards.md R420; log 8). -/
def platformReset (s : State) : State := { State.reset with inputs := s.inputs, busReads := s.busReads }

/-- One event. A STATUS write in the very step in which the core moves clears first, so that a bit the core sets stays set
(10_state.md R37; log 7). -/
def eventStep (e : BusEvent) (s : State) : Host.Outcome State Fault Refusal :=
  match e with
  | .read off width => busRead off width s
  | .write off width v => busWrite off width v s
  | .core => coreStep s
  | .coreWithStatusWrite v => coreStep (acknowledge v s)
  | .reset => .next (platformReset s)

/-- One step of the whole: the next event, or, with none left, the core (20_memory.md R94; log 3). -/
def machineStep (s : State) : Host.Outcome State Fault Refusal :=
  match s.inputs with
  | [] => coreStep s
  | e :: rest => eventStep e { s with inputs := rest }

/-- A command word pending as the very next thing: the accepted CMD write of 10_state.md R33, and nothing the host does
before the core moves (log 5). -/
def pendWord (s : State) (nbits w : Nat) : State :=
  { acceptCommand (BitVec.ofNat 32 (w % 2 ^ nbits)) s with inputs := [] }

end Sys2Proof.Machine
end

