-- ==== Sys2Proof/Machine/Step.lean ====
section
/-! DEFINITION. The step of the machine, and how the host places the command that runs next. -/

namespace Sys2Proof.Machine

/-- One step (00_scope.md R11, 20_memory.md R94). -/
def step (s : State) : Host.Outcome State Fault Refusal := machineStep s

/-- `s` with a command word pending, so that the next step performs it (10_state.md R33; log 5). -/
def State.withFetchWord (s : State) (nbits w : Nat) : State := pendWord s nbits w

end Sys2Proof.Machine
end

