-- ==== Sys2Proof/Safety.lean ====
section
/-! DEFINITION. What counts as a safe run, in the terms the statements use: the legal states, what a command leaves
alone, which result locations a fault zeroes, and which states differ in secrets only. -/

namespace Sys2Proof.Machine

/-! Legal states. -/

/-- The window offsets of KEY (10_state.md R31, R49). -/
def inKey (a : Nat) : Prop := keyBase ≤ a ∧ a < keyBase + Config.keyCap

/-- The window offsets of MSG (10_state.md R31, R49). -/
def inMsg (a : Nat) : Prop := msgBase ≤ a ∧ a < msgBase + Config.msgCap

/-- The window offsets of OUT (10_state.md R31, R49). -/
def inOut (a : Nat) : Prop := outBase ≤ a ∧ a < outBase + Config.msgCap

/-- An algorithm this core can select (00_scope.md R8, R20). -/
def hasAlgorithm : HashAlg → Prop
  | .sha1 => Config.hasSha1 = true
  | .sha256 => True
  | .sha384 => True
  | .sha512 => True

/-- Memory is in its canonical form and holds bytes of KEY, MSG and OUT only (10_state.md R49). -/
def legalMemory (s : State) : Prop := Memory.wf s.mem ∧ ∀ c ∈ s.mem, inKey c.1 ∨ inMsg c.1 ∨ inOut c.1

/-- OUTLEN is at most MSG_CAP and every byte of OUT from OUTLEN on is 0x00 (10_state.md R49). -/
def legalOut (s : State) : Prop :=
  s.outlen.toNat ≤ Config.msgCap ∧ ∀ j, s.outlen.toNat ≤ j → Memory.read s.mem (outBase + j) = 0

/-- `BUSY = 1` implies `DONE = 0` and `ERR = 0` (10_state.md R37). -/
def legalStatus (s : State) : Prop := s.status.busy = true → s.status.done = false ∧ s.status.err = false

/-- ERR holds a code of the table exactly when STATUS.ERR is set, and 0 otherwise (10_state.md R38,
60_exceptions.md R383, R389). -/
def legalErr (s : State) : Prop :=
  (s.status.err = false → s.err = 0) ∧ (s.status.err = true → ∃ c, s.err = faultCode c)

/-- The open stream and the HMAC context name algorithms the core has, and while an HMAC stream is open the context is
valid under the same algorithm (10_state.md R41, 41_hmac.md R187). -/
def legalStream (s : State) : Prop :=
  (∀ a, streamAlg s.stream = some a → hasAlgorithm a) ∧ (∀ a, s.hmAlg = some a → hasAlgorithm a)
    ∧ ∀ a, s.stream = .hmac a → s.hmAlg = some a

/-- The invariant every step keeps. -/
def Legal (s : State) : Prop :=
  legalMemory s ∧ legalOut s ∧ legalStatus s ∧ legalErr s ∧ legalStream s

/-! What a command leaves alone: one predicate for each group of state. -/

/-- The normal end of a command, and what no command writes: CMD, IE, ESTICKY, WRBUSY and the model's own lists
(60_exceptions.md R389, 10_state.md R33, R36, R37). -/
def endsNormally (s t : State) : Prop :=
  t.err = 0 ∧ t.status = ⟨false, true, false, s.status.esticky, s.status.wrbusy⟩
    ∧ t.cmd = s.cmd ∧ t.ie = s.ie ∧ t.inputs = s.inputs ∧ t.busReads = s.busReads

/-- MSGLEN, KEYLEN, CURVE and NBITS are unchanged. -/
def keepsControls (s t : State) : Prop :=
  t.msglen = s.msglen ∧ t.keylen = s.keylen ∧ t.curve = s.curve ∧ t.nbits = s.nbits

/-- HST, TOTLEN and the stream flags are unchanged. -/
def keepsStream (s t : State) : Prop := t.hst = s.hst ∧ t.totlen = s.totlen ∧ t.stream = s.stream

/-- HST, TOTLEN and the stream flags are zero (40_hash.md R159). -/
def streamClosed (t : State) : Prop := t.hst = zeroWords ∧ t.totlen = 0 ∧ t.stream = .closed

/-- The HMAC context is unchanged. -/
def keepsContext (s t : State) : Prop := t.hmI = s.hmI ∧ t.hmO = s.hmO ∧ t.hmAlg = s.hmAlg

/-- IV is unchanged. -/
def keepsIv (s t : State) : Prop := t.iv = s.iv

/-- The wide operand registers and the RSA key are unchanged. -/
def keepsWide (s t : State) : Prop := t.bnA = s.bnA ∧ t.bnE = s.bnE ∧ t.bnM = s.bnM ∧ t.rsa = s.rsa

/-- BN_R is unchanged. -/
def keepsBnR (s t : State) : Prop := t.bnR = s.bnR

/-- EC_D, EC_K and Q are unchanged. -/
def keepsScalars (s t : State) : Prop := t.ecD = s.ecD ∧ t.ecK = s.ecK ∧ t.pQ = s.pQ

/-- P is unchanged. -/
def keepsP (s t : State) : Prop := t.pP = s.pP

/-- R is unchanged. -/
def keepsR (s t : State) : Prop := t.pR = s.pR

/-- Every byte of memory reads as before, and OUTLEN is unchanged: a command that stores nothing. -/
def keepsMemory (s t : State) : Prop :=
  (∀ a, Memory.read t.mem a = Memory.read s.mem a) ∧ t.outlen = s.outlen

/-- Only OUT is stored to: it holds the bytes, then zeros up to MSG_CAP, OUTLEN is their number, and every byte outside
OUT reads as before (10_state.md R49). -/
def storesOut (s t : State) (bytes : List Byte) : Prop :=
  (∀ j, j < Config.msgCap → Memory.read t.mem (outBase + j) = bytes.getD j 0)
    ∧ (∀ a, ¬ inOut a → Memory.read t.mem a = Memory.read s.mem a)
    ∧ t.outlen.toNat = bytes.length

/-- Everything but the hash stream, IV, BN_R, P, R, the HMAC context, OUT and OUTLEN: the operands no command but ZEROIZE
writes, P aside (70_reset_and_hazards.md R425). -/
def keepsOperands (s t : State) : Prop := keepsControls s t ∧ keepsWide s t ∧ keepsScalars s t

/-- The bytes of OUT from 0 up to OUTLEN. -/
def outBytes (s : State) : List Byte := Memory.readBytes s.mem outBase s.outlen.toNat

/-! Faults. -/

/-- The result locations a fault of a decoded command zeroes, per command (60_exceptions.md R389). -/
def faultLocs : Instr → ResultLocs
  | .nop => .none
  | .zeroize => .none
  | .hinit _ => .none
  | .hupdate => .none
  | .hfinal => .out
  | .hcomp _ => .none
  | .hash _ => .out
  | .hmkey _ => .none
  | .hminit => .none
  | .hmfinal => .out
  | .hmac _ => .out
  | .tdesd _ _ => .out
  | .rc2d _ _ => .out
  | .modexp => .bnR
  | .modinv => .bnR
  | .modcrt => .bnR
  | .ecdbl => .pointR
  | .ecadd => .pointR
  | .ecmul => .pointR
  | .ecaff => .pointR
  | .ecldg => .none
  | .rsasign _ _ => .out
  | .ecsign _ _ => .out

/-- `t` is `s` after a fault of code `c` that zeroes `locs`: the whole of 60_exceptions.md R389's "fault CODE". -/
def faultedFrom (c : FaultCode) (locs : ResultLocs) (s t : State) : Prop :=
  t.err = faultCode c
    ∧ t.status = ⟨false, true, true, true, s.status.wrbusy⟩
    ∧ t.cmd = s.cmd ∧ t.ie = s.ie ∧ t.inputs = s.inputs ∧ t.busReads = s.busReads
    ∧ keepsOperands s t ∧ keepsStream s t ∧ keepsContext s t ∧ keepsIv s t ∧ keepsP s t
    ∧ (match locs with
      | .none => keepsMemory s t ∧ keepsBnR s t ∧ keepsR s t
      | .out => storesOut s t [] ∧ keepsBnR s t ∧ keepsR s t
      | .bnR => keepsMemory s t ∧ t.bnR = 0 ∧ keepsR s t
      | .pointR => keepsMemory s t ∧ keepsBnR s t ∧ t.pR = zeroPoint)

/-! Secrets. -/

/-- Two states that differ at most in what no bus read may show: KEY, the RSA key registers, EC_D and the outer half of
the HMAC context; and in its inner half, which a bus read shows only after HMINIT has copied it (10_state.md R50, R54,
70_reset_and_hazards.md R430). -/
def sameButSecrets (s t : State) : Prop :=
  t.cmd = s.cmd ∧ t.status = s.status ∧ t.err = s.err ∧ t.ie = s.ie ∧ t.outlen = s.outlen
    ∧ keepsControls s t ∧ keepsStream s t ∧ t.hmAlg = s.hmAlg ∧ keepsIv s t
    ∧ t.bnA = s.bnA ∧ t.bnE = s.bnE ∧ t.bnM = s.bnM ∧ keepsBnR s t
    ∧ t.ecK = s.ecK ∧ t.pQ = s.pQ ∧ keepsP s t ∧ keepsR s t
    ∧ (∀ a, ¬ inKey a → Memory.read t.mem a = Memory.read s.mem a)
    ∧ t.inputs = s.inputs ∧ t.busReads = s.busReads

/-- Two outcomes that differ at most in secrets. -/
def sameOutcome (x y : Host.Outcome State Fault Refusal) : Prop :=
  match x, y with
  | .next s, .next t => sameButSecrets s t
  | .fault f, .fault g => f = g
  | .refused r, .refused q => r = q
  | _, _ => False

/-- The commands that read no secret: neither KEY, nor the RSA key, nor EC_D, nor the HMAC context's halves; and HMKEY,
whose only results are secret (the operand lists of the command rules of files 40 to 47). -/
def showsNoSecret : Instr → Bool
  | .nop => true
  | .zeroize => true
  | .hinit _ => true
  | .hupdate => true
  | .hfinal => true
  | .hcomp _ => true
  | .hash _ => true
  | .hmkey _ => true
  | .hminit => false
  | .hmfinal => false
  | .hmac _ => false
  | .tdesd _ _ => false
  | .rc2d _ _ => false
  | .modexp => true
  | .modinv => true
  | .modcrt => false
  | .ecdbl => true
  | .ecadd => true
  | .ecmul => true
  | .ecaff => true
  | .ecldg => true
  | .rsasign _ _ => false
  | .ecsign _ _ => false

/-! The spec's tables, written a second time for the statements to compare with. -/

/-- The opcode map of 30_encoding.md R116: OPC, whether column ALG is "1..4", MOD mask. -/
def opTable : List (BitVec 8 × Bool × BitVec 4) :=
  [(0x00, false, 0), (0x01, false, 0),
   (0x10, true, 0), (0x11, false, 0), (0x12, false, 0), (0x13, true, 0), (0x14, true, 0),
   (0x20, true, 0), (0x21, false, 0), (0x22, false, 0), (0x23, true, 0),
   (0x30, false, 3), (0x31, false, 3),
   (0x40, false, 0), (0x41, false, 0), (0x42, false, 0),
   (0x50, false, 0), (0x51, false, 0), (0x52, false, 0), (0x53, false, 0), (0x54, false, 0),
   (0x60, true, 1), (0x70, true, 1)]

/-- The curve the CURVE register names, where it names one (10_state.md R47). -/
def namedCurve (s : State) : Curve := if s.curve = 2 then .p384 else .p256

/-- The algorithm an ALG field names, where the core has it (30_encoding.md R113). -/
def namedHash (alg : BitVec 4) : HashAlg := if alg = 4 then .sha512 else if alg = 3 then .sha384 else .sha256

/-- HALG as an algorithm, where a stream is open (10_state.md R41). -/
def namedStream (s : State) : HashAlg := (streamAlg s.stream).getD .sha256

/-- "ALG is 0, is 5 to 15, or is 1 with HAS_SHA1 = 0" (60_exceptions.md R383). -/
def hashUnsupported (alg : BitVec 4) : Bool := alg == 0 || decide (5 ≤ alg.toNat) || (alg == 1 && !Config.hasSha1)

/-- "CURVE is not 1 or 2" (60_exceptions.md R383). -/
def curveUnsupported (s : State) : Bool := !(s.curve == 1) && !(s.curve == 2)

/-- `MSGLEN > MSG_CAP`. -/
def msgTooLong (s : State) : Bool := decide (4096 < s.msglen.toNat)

/-- `TOTLEN + MSGLEN >= LIMIT(HALG)` (40_hash.md R155). -/
def streamTooLong (s : State) : Bool :=
  decide ((match namedStream s with
    | .sha1 => 2 ^ 61
    | .sha256 => 2 ^ 61
    | .sha384 => 2 ^ 64
    | .sha512 => 2 ^ 64) ≤ s.totlen.toNat + s.msglen.toNat)

/-- "MSGLEN = 0, MSGLEN mod 8 != 0 or MSGLEN > MSG_CAP" (60_exceptions.md R385). -/
def cipherLengthBad (s : State) : Bool :=
  decide (s.msglen.toNat = 0) || decide (s.msglen.toNat % 8 ≠ 0) || msgTooLong s

/-- "DG = 0 and MSGLEN > MSG_CAP; DG = 1 and MSGLEN != hlen(a)" (60_exceptions.md R385). -/
def signLengthBad (alg : BitVec 4) (dg : Bool) (s : State) : Bool :=
  (!dg && msgTooLong s) || (dg && decide (s.msglen.toNat ≠ digestBytes (namedHash alg)))

/-- MODCRT's conditions for BAD_OPERAND (60_exceptions.md R385). -/
def crtOperandBad (s : State) : Bool :=
  decide (s.rsa.p.toNat < 2) || decide (s.rsa.q.toNat < 2)
    || decide (4096 < bitlen s.rsa.p.toNat + bitlen s.rsa.q.toNat)

/-- A coordinate of a point is not below `p` of the selected curve (60_exceptions.md R385). -/
def pointOperandBad (s : State) (v : Point) : Bool :=
  decide ((namedCurve s).p ≤ v.x.toNat) || decide ((namedCurve s).p ≤ v.y.toNat)
    || decide ((namedCurve s).p ≤ v.z.toNat)

/-- The check-phase conditions of each command with their faults, in the order of 60_exceptions.md R387, as the columns
of R383 and R385 give them. -/
def checkConditions (i : Instr) (s : State) : List (Bool × FaultCode) :=
  match i with
  | .nop => []
  | .zeroize => []
  | .hinit alg => [(hashUnsupported alg, .unsupHash)]
  | .hupdate =>
    [(!hopen s, .badSequence),
     (msgTooLong s || decide (s.msglen.toNat % blockBytes (namedStream s) ≠ 0), .badLength),
     (streamTooLong s, .lenOverflow)]
  | .hfinal => [(!hopen s || hmode s, .badSequence), (msgTooLong s, .badLength), (streamTooLong s, .lenOverflow)]
  | .hcomp alg =>
    [(hashUnsupported alg, .unsupHash), (decide (s.msglen.toNat ≠ blockBytes (namedHash alg)), .badLength)]
  | .hash alg => [(hashUnsupported alg, .unsupHash), (msgTooLong s, .badLength)]
  | .hmkey alg => [(hashUnsupported alg, .unsupHash), (decide (256 < s.keylen.toNat), .badLength)]
  | .hminit => [(!hmvalid s, .badSequence)]
  | .hmfinal => [(!hopen s || !hmode s, .badSequence), (msgTooLong s, .badLength), (streamTooLong s, .lenOverflow)]
  | .hmac alg =>
    [(hashUnsupported alg, .unsupHash), (decide (256 < s.keylen.toNat), .badLength), (msgTooLong s, .badLength)]
  | .tdesd k2 _ =>
    [(decide (s.keylen.toNat ≠ if k2 then 16 else 24), .badLength), (cipherLengthBad s, .badLength)]
  | .rc2d _ _ =>
    [(decide (s.keylen.toNat = 0) || decide (128 < s.keylen.toNat), .badLength), (cipherLengthBad s, .badLength)]
  | .modexp => [(decide (s.bnM.toNat = 0), .badOperand)]
  | .modinv => [(decide (s.bnM.toNat < 2), .badOperand)]
  | .modcrt => [(crtOperandBad s, .badOperand)]
  | .ecdbl => [(curveUnsupported s, .unsupCurve), (pointOperandBad s s.pP, .badOperand)]
  | .ecadd =>
    [(curveUnsupported s, .unsupCurve), (pointOperandBad s s.pP || pointOperandBad s s.pQ, .badOperand)]
  | .ecmul => [(curveUnsupported s, .unsupCurve), (pointOperandBad s s.pP, .badOperand)]
  | .ecaff => [(curveUnsupported s, .unsupCurve), (pointOperandBad s s.pP, .badOperand)]
  | .ecldg => [(curveUnsupported s, .unsupCurve)]
  | .rsasign alg dg =>
    [(hashUnsupported alg, .unsupHash), (signLengthBad alg dg s, .badLength),
     (decide (s.nbits.toNat = 0) || decide (4096 < s.nbits.toNat) || crtOperandBad s, .badOperand),
     (decide ((s.nbits.toNat + 7) / 8 < tLen (namedHash alg) + 11), .rsaCapacity)]
  | .ecsign alg dg =>
    [(hashUnsupported alg, .unsupHash), (curveUnsupported s, .unsupCurve), (signLengthBad alg dg s, .badLength),
     (decide (s.ecD.toNat = 0) || decide ((namedCurve s).n ≤ s.ecD.toNat), .badOperand)]

/-- The one fault the check phase reports: the first whose condition holds (60_exceptions.md R387). -/
def checkFault (i : Instr) (s : State) : Option FaultCode :=
  ((checkConditions i s).find? (fun x => x.1)).map (fun x => x.2)

/-- The late faults (60_exceptions.md R388). -/
def lateFaults : Instr → List FaultCode
  | .nop => []
  | .zeroize => []
  | .hinit _ => []
  | .hupdate => []
  | .hfinal => []
  | .hcomp _ => []
  | .hash _ => []
  | .hmkey _ => []
  | .hminit => []
  | .hmfinal => []
  | .hmac _ => []
  | .tdesd _ _ => [.badPadding]
  | .rc2d _ _ => [.badPadding]
  | .modexp => []
  | .modinv => [.notInvertible]
  | .modcrt => []
  | .ecdbl => []
  | .ecadd => []
  | .ecmul => []
  | .ecaff => [.pointAtInfinity]
  | .ecldg => []
  | .rsasign _ _ => [.keyInconsistent]
  | .ecsign _ _ => [.nonceExhausted]

/-- The offsets of RW and WO data (20_memory.md R84, 10_state.md R31). -/
def writableData (off : Nat) : Prop :=
  off = 0x20 ∨ off = 0x24 ∨ off = 0x2C ∨ off = 0x30 ∨ off = 0x38 ∨ off = 0x3C
    ∨ (0x100 ≤ off ∧ off < 0x148)
    ∨ (0x200 ≤ off ∧ off < 0x300)
    ∨ (∃ j, j < 8 ∧ 0x400 + 0x40 * j ≤ off ∧ off < 0x400 + 0x40 * j + 48)
    ∨ (∃ j, j < 9 ∧ j ≠ 3 ∧ 0x1000 + 0x200 * j ≤ off ∧ off < 0x1000 + 0x200 * j + 512)
    ∨ (0x4000 ≤ off ∧ off < 0x5000)

/-- The reserved offsets (20_memory.md R88, 10_state.md R31). -/
def reservedOffset (off : Nat) : Prop :=
  (0x40 ≤ off ∧ off < 0x100)
    ∨ (0x148 ≤ off ∧ off < 0x200)
    ∨ (0x300 ≤ off ∧ off < 0x400)
    ∨ (∃ j, j < 11 ∧ 0x400 + 0x40 * j + 48 ≤ off ∧ off < 0x400 + 0x40 * (j + 1))
    ∨ (0x6C0 ≤ off ∧ off < 0x1000)
    ∨ (0x2200 ≤ off ∧ off < 0x4000)
    ∨ (0x5000 ≤ off ∧ off < 0x8000)
    ∨ (0x9000 ≤ off ∧ off < 0x10000)

/-- The read-only offsets: ID, CAP0 to CAP2, ERR, OUTLEN, HSTAT, RX, RY, RZ, BN_R, OUT (10_state.md R31, R54). -/
def readOnlyOffset (off : Nat) : Prop :=
  off < 0x10 ∨ off = 0x18 ∨ off = 0x28 ∨ off = 0x34
    ∨ (∃ j, 8 ≤ j ∧ j < 11 ∧ 0x400 + 0x40 * j ≤ off ∧ off < 0x400 + 0x40 * j + 48)
    ∨ (0x1600 ≤ off ∧ off < 0x1800)
    ∨ (0x8000 ≤ off ∧ off < 0x9000)

/-- The write-only offsets: KEY, EC_D and the five RSA key registers (10_state.md R31, R54). -/
def writeOnlyOffset (off : Nat) : Prop :=
  (0x200 ≤ off ∧ off < 0x300) ∨ (0x400 ≤ off ∧ off < 0x430) ∨ (0x1800 ≤ off ∧ off < 0x2200)

/-- While idle the bus reads a register of `n` bits at the slot `base`, word `j` being bits `n-1-32j` down to `n-32-32j`
(20_memory.md R86). -/
def readsWordsAt {n : Nat} (base : Nat) (get : State → BitVec n) : Prop :=
  ∀ (s : State) (j : Nat), 32 * (j + 1) ≤ n → s.status.busy = false →
    memRead (base + 4 * j) s = (get s).extractLsb' (n - 32 - 32 * j) 32

/-- While idle a bus write at word `j` of the slot `base` replaces that word of the register and changes nothing else
(20_memory.md R86). -/
def writesWordsAt {n : Nat} (base : Nat) (get : State → BitVec n) (set : State → BitVec n → State) : Prop :=
  ∀ (s : State) (j : Nat) (w : Word), 32 * (j + 1) ≤ n → s.status.busy = false →
    memWrite (base + 4 * j) w s = set s (setBusWord (get s) j w)

/-- A 32-bit register of the host's at an offset: while idle it reads as its value, and a write stores the word and
changes nothing else (20_memory.md R84, R87). -/
def plainRegisterAt (off : Nat) (get : State → Word) (set : State → Word → State) : Prop :=
  ∀ (s : State) (v : Word), s.status.busy = false → memRead off s = get s ∧ memWrite off v s = set s v

/-- A 64-bit item of the host's at a pair of offsets, the high word at the lower one: while idle each half reads as it
stands, and a write stores that half and changes nothing else (20_memory.md R84, R85, R87). -/
def wordPairAt (off : Nat) (get : State → BitVec 64) (set : State → BitVec 64 → State) : Prop :=
  ∀ (s : State) (v : Word), s.status.busy = false →
    memRead off s = (get s).extractLsb' 32 32 ∧ memRead (off + 4) s = (get s).extractLsb' 0 32
    ∧ memWrite off v s = set s (v ++ (get s).extractLsb' 0 32)
    ∧ memWrite (off + 4) v s = set s ((get s).extractLsb' 32 32 ++ v)

/-- HALG in bits 2:0, HOPEN in bit 4 and HMODE in bit 5 of HSTAT (10_state.md R41). -/
def streamBits : StreamMode → Word
  | .closed => 0x00
  | .plain .sha1 => 0x11
  | .plain .sha256 => 0x12
  | .plain .sha384 => 0x13
  | .plain .sha512 => 0x14
  | .hmac .sha1 => 0x31
  | .hmac .sha256 => 0x32
  | .hmac .sha384 => 0x33
  | .hmac .sha512 => 0x34

/-- HMVALID in bit 8 and HM_ALG in bits 14:12 of HSTAT (10_state.md R41). -/
def contextBits : Option HashAlg → Word
  | none => 0x0000
  | some .sha1 => 0x1100
  | some .sha256 => 0x2100
  | some .sha384 => 0x3100
  | some .sha512 => 0x4100

/-! What the statements about whole operations speak of. -/

/-- A host has put a message into MSG and its length into MSGLEN. -/
def loadMsg (m : List Byte) (s : State) : State :=
  { s with mem := Memory.writeBytes s.mem msgBase m, msglen := BitVec.ofNat 32 m.length }

/-- HUPDATE once for each piece, each put into MSG before it (40_hash.md R160). -/
def updateAll : List (List Byte) → State → Host.Outcome State Fault Refusal
  | [], s => .next s
  | c :: cs, s =>
    match exec .hupdate (loadMsg c s) with
    | .next t => updateAll cs t
    | .fault f => .fault f
    | .refused r => .refused r

/-- The CBC decryption `p` of `MSG[0..MSGLEN)` under IV, before any unpadding (42_blockcipher.md R201, R214, R226). -/
def cipherPlain (d : DWord → DWord) (s : State) : List Byte :=
  blocksBytes (cbcDec d s.iv (cipherBlocks (s.msglen.toNat / 8) (msgBytes s)))

/-- `unpad(p) if FINAL = 1 else p` (42_blockcipher.md R214, R226). -/
def plainOut (fin : Bool) (p : List Byte) : Except FaultCode (List Byte) := if fin then unpad p else .ok p

/-- CBC encryption, which the hardware does not perform: what 42_blockcipher.md R229 decrypts. -/
def cbcEnc (e : DWord → DWord) : DWord → List DWord → List DWord
  | _, [] => []
  | v, p :: ps => e (p ^^^ v) :: cbcEnc e (e (p ^^^ v)) ps

/-- Triple-DES EDE encryption, which the hardware does not perform: the inverse of 42_blockcipher.md R213. -/
def tdesEnc (key1 key2 key3 x : DWord) : DWord :=
  desEnc (keysched key3) (desDec (keysched key2) (desEnc (keysched key1) x))

/-- A Jacobian triple satisfies `y^2 = x^3 + a*x + b` with `a = p - 3`, cleared of denominators (44_ecpoint.md R281,
R282). -/
def onCurve (c : Curve) (v : Jac) : Prop :=
  v.y ^ 2 % c.p = (v.x ^ 3 + (c.p - 3) * v.x * v.z ^ 4 + c.b * v.z ^ 6) % c.p

/-- The generator's state before candidate `t`, the first being 0 (46_ecdsa.md R343, R347). -/
def drbgAt (a : HashAlg) (qlen rlen : Nat) (g : Drbg) : Nat → Drbg
  | 0 => g
  | t + 1 => reseed a (nextCandidate a qlen rlen (drbgAt a qlen rlen g t)).2

/-- Candidate `t`, the first being 0 (46_ecdsa.md R343, R347). -/
def candidateAt (a : HashAlg) (qlen rlen : Nat) (g : Drbg) (t : Nat) : Nat :=
  (nextCandidate a qlen rlen (drbgAt a qlen rlen g t)).1

end Sys2Proof.Machine
end

