-- ==== Sys2Proof/Certificates/Slice0/Obligations.lean ====
section
/-! DEFINITION. The statements for the provers. A frame is said with the predicates `keeps…`, `storesOut` and
`streamClosed` of Safety.lean; `endsNormally` says what the end of a command does to STATUS and ERR. -/

open Sys2Proof Sys2Proof.Machine

/-! Encoding and decoding. -/

/-- Decoding the word of a command gives the command back, every operand at every value (30_encoding.md R111, R116). The
first clause ranges over ill-formed commands too (ALG 0, 1 and 5 to 15), for which 30_encoding.md R117 itself gives
UNSUP_HASH: that `decode` keeps their ALG field is the model's choice (log 6). The second clause is R117's decoding. -/
def Obligations.EncodedCommandDecodesBack : Prop :=
  ∀ i : Instr, decode (encode i) = .ok i ∧ (i.wf = true → decodeCommand (encode i) = .ok i)

/-- A word that decodes is the encoding of what it decodes to: no bit of a word is ignored, and no two words stand for
one command (30_encoding.md R117, R118). -/
def Obligations.DecodedWordIsItsEncoding : Prop :=
  ∀ (c : Word) (i : Instr), decode c = .ok i → c = encode i

/-- Decoding is the pseudocode of 30_encoding.md R117 over the opcode map of R116, first failure first. -/
def Obligations.DecodingFollowsTheTable : Prop :=
  ∀ c : Word,
    (fieldRsv c ≠ 0 → decodeCommand c = .error .illegalCmd)
    ∧ (fieldRsv c = 0 → (∀ r ∈ opTable, r.1 ≠ fieldOpc c) → decodeCommand c = .error .illegalCmd)
    ∧ ∀ takesAlg mask, fieldRsv c = 0 → (fieldOpc c, takesAlg, mask) ∈ opTable →
        (fieldMod c &&& ~~~mask ≠ 0 → decodeCommand c = .error .illegalCmd)
        ∧ (fieldMod c &&& ~~~mask = 0 → takesAlg = false →
            (fieldAlg c ≠ 0 → decodeCommand c = .error .illegalCmd)
            ∧ (fieldAlg c = 0 → ∃ i, decodeCommand c = .ok i ∧ encode i = c))
        ∧ (fieldMod c &&& ~~~mask = 0 → takesAlg = true →
            (fieldAlg c = 0 ∨ 5 ≤ (fieldAlg c).toNat → decodeCommand c = .error .unsupHash)
            ∧ (fieldAlg c = 1 → Config.hasSha1 = false → decodeCommand c = .error .unsupHash)
            ∧ (2 ≤ (fieldAlg c).toNat → (fieldAlg c).toNat ≤ 4 → ∃ i, decodeCommand c = .ok i ∧ encode i = c))

/-- Words the spec writes out decode to the commands it names (30_encoding.md R120 and the examples of the command
rules). -/
def Obligations.SpecWordsDecode : Prop :=
  decodeCommand 0x00000000 = .ok .nop
    ∧ decodeCommand 0x01000000 = .ok .zeroize
    ∧ decodeCommand 0x10400000 = .ok (.hinit 4)
    ∧ decodeCommand 0x14200000 = .ok (.hash 2)
    ∧ decodeCommand 0x21000000 = .ok .hminit
    ∧ decodeCommand 0x30030000 = .ok (.tdesd true true)
    ∧ decodeCommand 0x31010000 = .ok (.rc2d false true)
    ∧ decodeCommand 0x31020000 = .ok (.rc2d true false)
    ∧ decodeCommand 0x42000000 = .ok .modcrt
    ∧ decodeCommand 0x54000000 = .ok .ecldg
    ∧ decodeCommand 0x60210000 = .ok (.rsasign 2 true)
    ∧ decodeCommand 0x70310000 = .ok (.ecsign 3 true)

/-! The step. -/

/-- With nothing left for the host to do, or the core's move next, a pending word that decodes to a command is performed
as exactly that command, and an idle core holds its state (00_scope.md R11, 20_memory.md R97, 60_exceptions.md R401; the
order of events is the model's, log 3). -/
def Obligations.StepPerformsTheDecodedCommand : Prop :=
  (∀ (s : State) (i : Instr), s.status.busy = true → decodeCommand s.cmd = .ok i →
      (s.inputs = [] → step s = exec i s)
      ∧ ∀ rest, s.inputs = .core :: rest → step s = exec i { s with inputs := rest })
    ∧ ∀ s : State, s.status.busy = false →
      (s.inputs = [] → step s = .next s)
      ∧ ∀ rest, s.inputs = .core :: rest → step s = .next { s with inputs := rest }

/-- A pending word that does not decode ends in the fault decoding gives and zeroes nothing (30_encoding.md R117, R118,
60_exceptions.md R389). -/
def Obligations.UndecodableWordFaults : Prop :=
  ∀ (s : State) (c : FaultCode), s.inputs = [] → s.status.busy = true → decodeCommand s.cmd = .error c →
    ∃ t, step s = .next t ∧ faultedFrom c .none s t

/-! System commands. -/

/-- NOP ends normally and changes nothing else (47_system.md R370). -/
def Obligations.NopCompletes : Prop :=
  ∀ s : State, ∃ t, exec .nop s = .next t ∧ endsNormally s t
    ∧ keepsOperands s t ∧ keepsStream s t ∧ keepsContext s t ∧ keepsIv s t ∧ keepsBnR s t ∧ keepsP s t ∧ keepsR s t
    ∧ keepsMemory s t

/-- ZEROIZE ends normally with every item of data state zero (47_system.md R371); CMD, IE, ESTICKY and WRBUSY keep their
values through `endsNormally`. -/
def Obligations.ZeroizeCompletes : Prop :=
  ∀ s : State, ∃ t, exec .zeroize s = .next t ∧ endsNormally s t
    ∧ (∀ a, Memory.read t.mem a = 0)
    ∧ t.msglen = 0 ∧ t.keylen = 0 ∧ t.outlen = 0 ∧ streamClosed t
    ∧ t.hmI = zeroWords ∧ t.hmO = zeroWords ∧ hmvalid t = false ∧ hmAlgCode t = 0
    ∧ t.iv = 0 ∧ t.curve = 0 ∧ t.nbits = 0
    ∧ t.bnA = 0 ∧ t.bnE = 0 ∧ t.bnM = 0 ∧ t.bnR = 0 ∧ t.rsa = ⟨0, 0, 0, 0, 0⟩
    ∧ t.ecD = 0 ∧ t.ecK = 0 ∧ t.pP = ⟨0, 0, 0⟩ ∧ t.pQ = ⟨0, 0, 0⟩ ∧ t.pR = ⟨0, 0, 0⟩

/-! Hash commands. -/

/-- HINIT opens a plain stream at the initial value (40_hash.md R154). -/
def Obligations.HinitCompletes : Prop :=
  ∀ (alg : BitVec 4) (a : HashAlg) (s : State), selectHash alg = some a →
    ∃ t, exec (.hinit alg) s = .next t ∧ endsNormally s t
      ∧ t.hst = state0 a ∧ t.totlen = 0 ∧ t.stream = .plain a
      ∧ halg t = algCode a ∧ hopen t = true ∧ hmode t = false
      ∧ keepsOperands s t ∧ keepsContext s t ∧ keepsIv s t ∧ keepsBnR s t ∧ keepsP s t ∧ keepsR s t
      ∧ keepsMemory s t

/-- HUPDATE absorbs the whole blocks of MSG into the open stream, plain or HMAC (40_hash.md R155). -/
def Obligations.HupdateCompletes : Prop :=
  ∀ (a : HashAlg) (s : State), streamAlg s.stream = some a →
    s.msglen.toNat ≤ Config.msgCap → s.msglen.toNat % blockBytes a = 0 → totalAfter s < lengthLimit a →
    ∃ t, exec .hupdate s = .next t ∧ endsNormally s t
      ∧ t.hst = absorb a (s.msglen.toNat / blockBytes a) s.hst (msgBytes s)
      ∧ t.totlen.toNat = s.totlen.toNat + s.msglen.toNat ∧ t.stream = s.stream
      ∧ keepsOperands s t ∧ keepsContext s t ∧ keepsIv s t ∧ keepsBnR s t ∧ keepsP s t ∧ keepsR s t
      ∧ keepsMemory s t

/-- HFINAL writes the digest to OUT and closes the plain stream (40_hash.md R156). -/
def Obligations.HfinalCompletes : Prop :=
  ∀ (a : HashAlg) (s : State), s.stream = .plain a →
    s.msglen.toNat ≤ Config.msgCap → totalAfter s < lengthLimit a →
    ∃ t, exec .hfinal s = .next t ∧ endsNormally s t
      ∧ storesOut s t (finalize a s.hst (msgBytes s) (s.totlen.toNat + s.msglen.toNat))
      ∧ t.outlen.toNat = digestBytes a ∧ streamClosed t
      ∧ keepsOperands s t ∧ keepsContext s t ∧ keepsIv s t ∧ keepsBnR s t ∧ keepsP s t ∧ keepsR s t

/-- HCOMP compresses one block of MSG into HST and touches no stream flag (40_hash.md R157). -/
def Obligations.HcompCompletes : Prop :=
  ∀ (alg : BitVec 4) (a : HashAlg) (s : State), selectHash alg = some a → s.msglen.toNat = blockBytes a →
    ∃ t, exec (.hcomp alg) s = .next t ∧ endsNormally s t
      ∧ t.hst = compress a s.hst (msgPrefix s (blockBytes a)) ∧ t.totlen = s.totlen ∧ t.stream = s.stream
      ∧ keepsOperands s t ∧ keepsContext s t ∧ keepsIv s t ∧ keepsBnR s t ∧ keepsP s t ∧ keepsR s t
      ∧ keepsMemory s t

/-- HASH writes the digest of MSG to OUT and closes the stream (40_hash.md R158). -/
def Obligations.HashCompletes : Prop :=
  ∀ (alg : BitVec 4) (a : HashAlg) (s : State), selectHash alg = some a → s.msglen.toNat ≤ Config.msgCap →
    ∃ t, exec (.hash alg) s = .next t ∧ endsNormally s t
      ∧ storesOut s t (hashOf a (msgBytes s)) ∧ t.outlen.toNat = digestBytes a ∧ streamClosed t
      ∧ keepsOperands s t ∧ keepsContext s t ∧ keepsIv s t ∧ keepsBnR s t ∧ keepsP s t ∧ keepsR s t

/-- HINIT, HUPDATE for each piece of whole blocks and HFINAL with the rest leave in OUT the hash of the whole message, the
same as HASH leaves where the message fits (40_hash.md R160, within the length limit of R155). -/
def Obligations.StreamedHashEqualsOneShot : Prop :=
  ∀ (alg : BitVec 4) (a : HashAlg) (cs : List (List Byte)) (rest : List Byte) (s : State),
    selectHash alg = some a →
    (∀ c ∈ cs, c.length % blockBytes a = 0 ∧ c.length ≤ Config.msgCap) → rest.length ≤ Config.msgCap →
    (cs.flatten ++ rest).length < lengthLimit a →
    ∃ s1 s2 t, exec (.hinit alg) s = .next s1 ∧ updateAll cs s1 = .next s2
      ∧ exec .hfinal (loadMsg rest s2) = .next t
      ∧ endsNormally s t ∧ outBytes t = hashOf a (cs.flatten ++ rest)
      ∧ ((cs.flatten ++ rest).length ≤ Config.msgCap →
          ∃ u, exec (.hash alg) (loadMsg (cs.flatten ++ rest) s) = .next u ∧ outBytes u = outBytes t)

/-! HMAC commands. -/

/-- HMKEY builds the context of the key in KEY and closes the stream (41_hmac.md R185). -/
def Obligations.HmkeyCompletes : Prop :=
  ∀ (alg : BitVec 4) (a : HashAlg) (s : State), selectHash alg = some a → s.keylen.toNat ≤ Config.keyCap →
    ∃ t, exec (.hmkey alg) s = .next t ∧ endsNormally s t
      ∧ t.hmI = ctxI a (keyBytes s) ∧ t.hmO = ctxO a (keyBytes s) ∧ t.hmAlg = some a
      ∧ hmvalid t = true ∧ hmAlgCode t = algCode a ∧ streamClosed t
      ∧ keepsOperands s t ∧ keepsIv s t ∧ keepsBnR s t ∧ keepsP s t ∧ keepsR s t ∧ keepsMemory s t

/-- HMINIT opens an HMAC stream from the context (41_hmac.md R186). -/
def Obligations.HminitCompletes : Prop :=
  ∀ (a : HashAlg) (s : State), s.hmAlg = some a →
    ∃ t, exec .hminit s = .next t ∧ endsNormally s t
      ∧ t.hst = s.hmI ∧ t.totlen.toNat = blockBytes a ∧ t.stream = .hmac a
      ∧ halg t = algCode a ∧ hopen t = true ∧ hmode t = true
      ∧ keepsOperands s t ∧ keepsContext s t ∧ keepsIv s t ∧ keepsBnR s t ∧ keepsP s t ∧ keepsR s t
      ∧ keepsMemory s t

/-- HMFINAL writes the MAC to OUT, closes the HMAC stream and keeps the context (41_hmac.md R187). -/
def Obligations.HmfinalCompletes : Prop :=
  ∀ (a : HashAlg) (s : State), s.stream = .hmac a →
    s.msglen.toNat ≤ Config.msgCap → totalAfter s < lengthLimit a →
    ∃ t, exec .hmfinal s = .next t ∧ endsNormally s t
      ∧ storesOut s t (finalize a s.hmO (finalize a s.hst (msgBytes s) (s.totlen.toNat + s.msglen.toNat))
          (blockBytes a + digestBytes a))
      ∧ t.outlen.toNat = digestBytes a ∧ streamClosed t
      ∧ keepsOperands s t ∧ keepsContext s t ∧ keepsIv s t ∧ keepsBnR s t ∧ keepsP s t ∧ keepsR s t

/-- HMAC writes the MAC of MSG under KEY to OUT, closes the stream and keeps the context (41_hmac.md R188). -/
def Obligations.HmacCompletes : Prop :=
  ∀ (alg : BitVec 4) (a : HashAlg) (s : State), selectHash alg = some a →
    s.keylen.toNat ≤ Config.keyCap → s.msglen.toNat ≤ Config.msgCap →
    ∃ t, exec (.hmac alg) s = .next t ∧ endsNormally s t
      ∧ storesOut s t (hmacOf a (keyBytes s) (msgBytes s)) ∧ t.outlen.toNat = digestBytes a ∧ streamClosed t
      ∧ keepsOperands s t ∧ keepsContext s t ∧ keepsIv s t ∧ keepsBnR s t ∧ keepsP s t ∧ keepsR s t

/-- The context form of HMAC equals the one-shot form: as functions, and as the commands HMKEY; HMINIT; HMFINAL against
HMAC on the same KEY and MSG (41_hmac.md R184). -/
def Obligations.ContextMacEqualsOneShot : Prop :=
  (∀ (a : HashAlg) (k m : List Byte),
      hmacOf a k m = finalize a (ctxO a k) (finalize a (ctxI a k) m (blockBytes a + m.length))
        (blockBytes a + digestBytes a))
    ∧ ∀ (alg : BitVec 4) (a : HashAlg) (s : State), selectHash alg = some a →
      s.keylen.toNat ≤ Config.keyCap → s.msglen.toNat ≤ Config.msgCap →
      ∃ s1 s2 t u, exec (.hmkey alg) s = .next s1 ∧ exec .hminit s1 = .next s2 ∧ exec .hmfinal s2 = .next t
        ∧ exec (.hmac alg) s = .next u ∧ t.outlen = u.outlen
        ∧ ∀ x, Memory.read t.mem x = Memory.read u.mem x

/-! Block-cipher commands. -/

/-- TDESD writes the plaintext to OUT, unpadded with FINAL, and the last ciphertext block to IV (42_blockcipher.md R201,
R214). -/
def Obligations.TdesdCompletes : Prop :=
  ∀ (k2 fin : Bool) (s : State) (q : List Byte),
    s.keylen.toNat = (if k2 then 16 else 24) →
    s.msglen.toNat ≠ 0 → s.msglen.toNat % 8 = 0 → s.msglen.toNat ≤ Config.msgCap →
    plainOut fin (cipherPlain
      (tdesDec (keyDWord s 0) (keyDWord s 8) (if k2 then keyDWord s 0 else keyDWord s 16)) s) = .ok q →
    ∃ t, exec (.tdesd k2 fin) s = .next t ∧ endsNormally s t ∧ storesOut s t q
      ∧ beBytes 8 t.iv.toNat = Memory.readBytes s.mem (msgBase + (s.msglen.toNat - 8)) 8
      ∧ keepsOperands s t ∧ keepsStream s t ∧ keepsContext s t ∧ keepsBnR s t ∧ keepsP s t ∧ keepsR s t

/-- RC2D writes the plaintext to OUT, unpadded with FINAL, and the last ciphertext block to IV (42_blockcipher.md R201,
R226). -/
def Obligations.Rc2dCompletes : Prop :=
  ∀ (e128 fin : Bool) (s : State) (q : List Byte),
    s.keylen.toNat ≠ 0 → s.keylen.toNat ≤ 128 →
    s.msglen.toNat ≠ 0 → s.msglen.toNat % 8 = 0 → s.msglen.toNat ≤ Config.msgCap →
    plainOut fin (cipherPlain (rc2Dec (rc2Expand (keyBytes s) (if e128 then 128 else 40))) s) = .ok q →
    ∃ t, exec (.rc2d e128 fin) s = .next t ∧ endsNormally s t ∧ storesOut s t q
      ∧ beBytes 8 t.iv.toNat = Memory.readBytes s.mem (msgBase + (s.msglen.toNat - 8)) 8
      ∧ keepsOperands s t ∧ keepsStream s t ∧ keepsContext s t ∧ keepsBnR s t ∧ keepsP s t ∧ keepsR s t

/-- Decrypting a ciphertext in two chunks, the second chained from the last block of the first, gives what one decryption
gives (42_blockcipher.md R203). -/
def Obligations.ChunkedDecryption : Prop :=
  ∀ (d : DWord → DWord) (v : DWord) (xs ys : List DWord),
    cbcDec d v (xs ++ ys) = cbcDec d v xs ++ cbcDec d (xs.getLastD v) ys

/-- Triple-DES decryption undoes triple-DES encryption, for every three keys and every block: the permutations, the
rounds and the key schedule of 42_blockcipher.md R205 to R213 fit together. -/
def Obligations.TripleDesUndoesEncryption : Prop :=
  ∀ key1 key2 key3 x : DWord, tdesDec key1 key2 key3 (tdesEnc key1 key2 key3 x) = x

/-- Decrypting a CBC encryption of a PKCS#7-padded message and unpadding gives the message (42_blockcipher.md R201, R202,
R229). -/
def Obligations.PaddedCiphertextRoundTrip : Prop :=
  ∀ (e d : DWord → DWord), (∀ x, d (e x) = x) → ∀ (v : DWord) (m : List Byte),
    unpad (blocksBytes (cbcDec d v (cbcEnc e v
      (cipherBlocks (m.length / 8 + 1) (m ++ rep (BitVec.ofNat 8 (8 - m.length % 8)) (8 - m.length % 8)))))) = .ok m

/-! Big-integer commands. -/

/-- MODEXP leaves `BN_A ^ BN_E mod BN_M` in BN_R (43_bigint.md R251, R254). -/
def Obligations.ModexpCompletes : Prop :=
  ∀ s : State, s.bnM.toNat ≠ 0 →
    ∃ t, exec .modexp s = .next t ∧ endsNormally s t
      ∧ t.bnR.toNat = s.bnA.toNat ^ s.bnE.toNat % s.bnM.toNat
      ∧ keepsOperands s t ∧ keepsStream s t ∧ keepsContext s t ∧ keepsIv s t ∧ keepsP s t ∧ keepsR s t
      ∧ keepsMemory s t

/-- MODINV leaves in BN_R the number below BN_M whose product with BN_A is 1 modulo BN_M (43_bigint.md R252, R255). -/
def Obligations.ModinvCompletes : Prop :=
  ∀ s : State, 2 ≤ s.bnM.toNat → Nat.gcd (s.bnA.toNat % s.bnM.toNat) s.bnM.toNat = 1 →
    ∃ t, exec .modinv s = .next t ∧ endsNormally s t
      ∧ t.bnR.toNat < s.bnM.toNat ∧ s.bnA.toNat * t.bnR.toNat % s.bnM.toNat = 1
      ∧ keepsOperands s t ∧ keepsStream s t ∧ keepsContext s t ∧ keepsIv s t ∧ keepsP s t ∧ keepsR s t
      ∧ keepsMemory s t

/-- MODCRT leaves `sq + q * h` in BN_R, with `sp`, `sq` the two powers and `h` the reduced difference (43_bigint.md R253,
R256). -/
def Obligations.ModcrtCompletes : Prop :=
  ∀ s : State, 2 ≤ s.rsa.p.toNat → 2 ≤ s.rsa.q.toNat →
    bitlen s.rsa.p.toNat + bitlen s.rsa.q.toNat ≤ Config.bnBits →
    ∃ t, exec .modcrt s = .next t ∧ endsNormally s t
      ∧ (t.bnR.toNat : Int) =
          ((s.bnA.toNat ^ s.rsa.dq.toNat % s.rsa.q.toNat : Nat) : Int)
            + s.rsa.q.toNat
              * ((s.rsa.qinv.toNat : Int)
                  * (((s.bnA.toNat ^ s.rsa.dp.toNat % s.rsa.p.toNat : Nat) : Int)
                      - ((s.bnA.toNat ^ s.rsa.dq.toNat % s.rsa.q.toNat : Nat) : Int))
                  % (s.rsa.p.toNat : Int))
      ∧ t.bnR.toNat < s.rsa.p.toNat * s.rsa.q.toNat
      ∧ keepsOperands s t ∧ keepsStream s t ∧ keepsContext s t ∧ keepsIv s t ∧ keepsP s t ∧ keepsR s t
      ∧ keepsMemory s t

/-- For an RSA key as 43_bigint.md R253 describes it, CRT recombination is the private-key power `m^d mod p*q`. The
exponents modulo `p-1` and `q-1` are taken nonzero, without which the equation fails for multiples of a prime. -/
def Obligations.CrtComputesThePower : Prop :=
  ∀ p q d qinv m : Nat, Nat.Prime p → Nat.Prime q → p ≠ q → d % (p - 1) ≠ 0 → d % (q - 1) ≠ 0 →
    q * qinv % p = 1 → m < p * q →
    crtOf m p q (d % (p - 1)) (d % (q - 1)) qinv = m ^ d % (p * q)

/-! Curve commands. -/

/-- ECDBL leaves the double of P in R (44_ecpoint.md R284, R288, R289). -/
def Obligations.EcdblCompletes : Prop :=
  ∀ (c : Curve) (s : State), selectCurve s = .ok c →
    s.pP.x.toNat < c.p → s.pP.y.toNat < c.p → s.pP.z.toNat < c.p →
    ∃ t, exec .ecdbl s = .next t ∧ endsNormally s t ∧ jacOf t.pR = jdbl c.p (jacOf s.pP)
      ∧ keepsOperands s t ∧ keepsStream s t ∧ keepsContext s t ∧ keepsIv s t ∧ keepsBnR s t ∧ keepsP s t
      ∧ keepsMemory s t

/-- ECADD leaves the sum of P and Q in R (44_ecpoint.md R285, R288, R290). -/
def Obligations.EcaddCompletes : Prop :=
  ∀ (c : Curve) (s : State), selectCurve s = .ok c →
    s.pP.x.toNat < c.p → s.pP.y.toNat < c.p → s.pP.z.toNat < c.p →
    s.pQ.x.toNat < c.p → s.pQ.y.toNat < c.p → s.pQ.z.toNat < c.p →
    ∃ t, exec .ecadd s = .next t ∧ endsNormally s t ∧ jacOf t.pR = jadd c.p (jacOf s.pP) (jacOf s.pQ)
      ∧ keepsOperands s t ∧ keepsStream s t ∧ keepsContext s t ∧ keepsIv s t ∧ keepsBnR s t ∧ keepsP s t
      ∧ keepsMemory s t

/-- ECMUL leaves EC_K times P in R, the scalar unreduced (44_ecpoint.md R286, R288, R291). -/
def Obligations.EcmulCompletes : Prop :=
  ∀ (c : Curve) (s : State), selectCurve s = .ok c →
    s.pP.x.toNat < c.p → s.pP.y.toNat < c.p → s.pP.z.toNat < c.p →
    ∃ t, exec .ecmul s = .next t ∧ endsNormally s t ∧ jacOf t.pR = jmul c.p s.ecK.toNat (jacOf s.pP)
      ∧ keepsOperands s t ∧ keepsStream s t ∧ keepsContext s t ∧ keepsIv s t ∧ keepsBnR s t ∧ keepsP s t
      ∧ keepsMemory s t

/-- ECAFF leaves in R the affine form of P with `RZ = 1`: the coordinates `x`, `y` with `x * Z^2 = X` and `y * Z^3 = Y`
in the field, `Z` having an inverse (44_ecpoint.md R287, R292). -/
def Obligations.EcaffCompletes : Prop :=
  ∀ (c : Curve) (s : State), selectCurve s = .ok c →
    s.pP.x.toNat < c.p → s.pP.y.toNat < c.p → s.pP.z.toNat < c.p → s.pP.z.toNat ≠ 0 →
    ∃ t, exec .ecaff s = .next t ∧ endsNormally s t ∧ t.pR.z = 1
      ∧ t.pR.x.toNat < c.p ∧ t.pR.y.toNat < c.p
      ∧ (Nat.gcd s.pP.z.toNat c.p = 1 →
          t.pR.x.toNat * s.pP.z.toNat ^ 2 % c.p = s.pP.x.toNat
          ∧ t.pR.y.toNat * s.pP.z.toNat ^ 3 % c.p = s.pP.y.toNat)
      ∧ keepsOperands s t ∧ keepsStream s t ∧ keepsContext s t ∧ keepsIv s t ∧ keepsBnR s t ∧ keepsP s t
      ∧ keepsMemory s t

/-- ECLDG loads the base point of the selected curve into P (44_ecpoint.md R281, R293). -/
def Obligations.EcldgCompletes : Prop :=
  ∀ (c : Curve) (s : State), selectCurve s = .ok c →
    ∃ t, exec .ecldg s = .next t ∧ endsNormally s t
      ∧ t.pP.x.toNat = c.gx ∧ t.pP.y.toNat = c.gy ∧ t.pP.z.toNat = 1
      ∧ keepsOperands s t ∧ keepsStream s t ∧ keepsContext s t ∧ keepsIv s t ∧ keepsBnR s t ∧ keepsR s t
      ∧ keepsMemory s t

/-- Doubling a point of the curve gives a point of the curve or the point at infinity (44_ecpoint.md R284, R294). -/
def Obligations.DoublingStaysOnCurve : Prop :=
  ∀ (c : Curve) (v : Jac), onCurve c v → jdbl c.p v = Jac.inf ∨ onCurve c (jdbl c.p v)

/-- The laws of addition and of scalar multiplication that hold of the formulas as written (44_ecpoint.md R285, R286,
R294). -/
def Obligations.PointLaws : Prop :=
  ∀ (p : Nat) (v : Jac),
    (v.z ≠ 0 → jadd p v Jac.inf = v ∧ jadd p Jac.inf v = v ∧ jmul p 1 v = v)
    ∧ jadd p v v = jdbl p v
    ∧ jmul p 0 v = Jac.inf
    ∧ ∀ k, 0 < k → jmul p (2 * k) v = jdbl p (jmul p k v) ∧ jmul p (2 * k + 1) v = jadd p (jdbl p (jmul p k v)) v

/-! Signers. -/

/-- RSASIGN writes the signature, `k` bytes big-endian, to OUT and closes the stream (45_rsa.md R323 to R325). -/
def Obligations.RsasignCompletes : Prop :=
  ∀ (alg : BitVec 4) (dg : Bool) (a : HashAlg) (s : State) (digest : List Byte) (k : Nat),
    selectHash alg = some a →
    (dg = false → s.msglen.toNat ≤ Config.msgCap ∧ digest = hashOf a (msgBytes s)) →
    (dg = true → s.msglen.toNat = digestBytes a ∧ digest = msgPrefix s (digestBytes a)) →
    k = ceilDiv s.nbits.toNat 8 → s.nbits.toNat ≠ 0 → s.nbits.toNat ≤ Config.bnBits →
    2 ≤ s.rsa.p.toNat → 2 ≤ s.rsa.q.toNat →
    bitlen s.rsa.p.toNat + bitlen s.rsa.q.toNat ≤ Config.bnBits →
    tLen a + 11 ≤ k → rsaSign a digest k s.rsa < 256 ^ k →
    ∃ t, exec (.rsasign alg dg) s = .next t ∧ endsNormally s t
      ∧ storesOut s t (beBytes k (rsaSign a digest k s.rsa)) ∧ t.outlen.toNat = k ∧ streamClosed t
      ∧ keepsOperands s t ∧ keepsContext s t ∧ keepsIv s t ∧ keepsBnR s t ∧ keepsP s t ∧ keepsR s t

/-- The encoded message has `k` bytes: 00 01, at least eight FF, 00, the prefix and the digest (45_rsa.md R322). -/
def Obligations.EncodedMessageShape : Prop :=
  ∀ (a : HashAlg) (digest : List Byte) (k : Nat), digest.length = digestBytes a → tLen a + 11 ≤ k →
    ∃ n, emsa a digest k
        = [0x00, 0x01] ++ List.replicate n 0xFF ++ [0x00] ++ (digestInfoPrefix a ++ digest)
      ∧ n = k - tLen a - 3 ∧ 8 ≤ n ∧ (emsa a digest k).length = k ∧ natBE (emsa a digest k) < 256 ^ (k - 1)

/-- ECSIGN writes the DER signature to OUT and closes the stream, where a candidate is accepted (46_ecdsa.md R347,
R348). -/
def Obligations.EcsignCompletes : Prop :=
  ∀ (alg : BitVec 4) (dg : Bool) (a : HashAlg) (c : Curve) (s : State) (digest : List Byte) (r w : Nat),
    selectHash alg = some a → selectCurve s = .ok c →
    (dg = false → s.msglen.toNat ≤ Config.msgCap ∧ digest = hashOf a (msgBytes s)) →
    (dg = true → s.msglen.toNat = digestBytes a ∧ digest = msgPrefix s (digestBytes a)) →
    s.ecD.toNat ≠ 0 → s.ecD.toNat < c.n →
    ecdsaPair a c digest s.ecD.toNat = some (r, w) →
    ∃ t, exec (.ecsign alg dg) s = .next t ∧ endsNormally s t
      ∧ storesOut s t (derSig r w) ∧ t.outlen.toNat ≤ 2 * c.clen + 8 ∧ streamClosed t
      ∧ keepsOperands s t ∧ keepsContext s t ∧ keepsIv s t ∧ keepsBnR s t ∧ keepsP s t ∧ keepsR s t

/-- The nonce loop returns what the first accepted candidate gives, among the candidates 0, 1, … up to the bound, and
nothing where all are rejected (46_ecdsa.md R347, R349). -/
def Obligations.NonceCandidatesInOrder : Prop :=
  ∀ (a : HashAlg) (qlen rlen : Nat) (accept : Nat → Option (Nat × Nat)) (bound : Nat) (g : Drbg),
    signLoop a qlen rlen accept bound g
      = (List.range bound).findSome? (fun t => accept (candidateAt a qlen rlen g t))

/-- An accepted candidate `k` lies in `1 .. n-1` and gives `r` and `s` in `1 .. n-1`; where `k` is a unit modulo `n`,
`k * s = e + r * d` modulo `n` (46_ecdsa.md R344). -/
def Obligations.SignatureEquation : Prop :=
  ∀ (c : Curve) (d e k r w : Nat), acceptCandidate c d e k = some (r, w) →
    1 ≤ k ∧ k ≤ c.n - 1 ∧ 1 ≤ r ∧ r < c.n ∧ 1 ≤ w ∧ w < c.n
    ∧ (Nat.gcd k c.n = 1 → k * w % c.n = (e + r * d) % c.n)

/-- A DER signature of values in `1 .. n-1` has 8 to `2 * clen + 8` bytes and starts with 30 and its own length less two;
its two integers start with 02 and their lengths and are the values' big-endian bytes, not negative and minimal: the first
byte is below 0x80, and where it is 0 the second is 0x80 or more (46_ecdsa.md R346). -/
def Obligations.DerSignatureShape : Prop :=
  ∀ (c : Curve) (r w : Nat), 1 ≤ r → r < c.n → 1 ≤ w → w < c.n →
    8 ≤ (derSig r w).length ∧ (derSig r w).length ≤ 2 * c.clen + 8
    ∧ (derSig r w).getD 0 0 = 0x30 ∧ ((derSig r w).getD 1 0).toNat = (derSig r w).length - 2
    ∧ ∃ br bw, derSig r w = [0x30, BitVec.ofNat 8 (br.length + bw.length + 4), 0x02, BitVec.ofNat 8 br.length] ++ br
          ++ [0x02, BitVec.ofNat 8 bw.length] ++ bw
        ∧ natBE br = r ∧ natBE bw = w ∧ (br.getD 0 0).toNat < 0x80 ∧ (bw.getD 0 0).toNat < 0x80
        ∧ (br.getD 0 0 ≠ 0 ∨ 0x80 ≤ (br.getD 1 0).toNat) ∧ (bw.getD 0 0 ≠ 0 ∨ 0x80 ≤ (bw.getD 1 0).toNat)

/-! Ending a command: faults. -/

/-- Every command ends, from every state: normally, or in one fault with exactly the effect of 60_exceptions.md R389,
an unsupported hash zeroing nothing because it is a fault of decoding (R402, 70_reset_and_hazards.md R428). -/
def Obligations.EveryCommandEnds : Prop :=
  ∀ (i : Instr) (s : State), ∃ t, exec i s = .next t
    ∧ (endsNormally s t
      ∨ (∃ c, c ≠ .unsupHash ∧ faultedFrom c (faultLocs i) s t)
      ∨ faultedFrom .unsupHash .none s t)

/-- The check phase reports the first condition that holds, in the order of 60_exceptions.md R387, for every command and
every state; conditions as R383 and R385 list them. -/
def Obligations.CheckPhaseFaultsInOrder : Prop :=
  ∀ (i : Instr) (s : State) (c : FaultCode), checkFault i s = some c →
    ∃ t, exec i s = .next t ∧ faultedFrom c (if c = .unsupHash then .none else faultLocs i) s t

/-- When the whole check phase passes, a command ends normally or in the one late fault its rule names, and no other
(60_exceptions.md R388). -/
def Obligations.OnlyLateFaultsAfterChecks : Prop :=
  ∀ (i : Instr) (s : State), checkFault i s = none →
    ∃ t, exec i s = .next t ∧ (endsNormally s t ∨ ∃ c ∈ lateFaults i, faultedFrom c (faultLocs i) s t)

/-- When the late faults of TDESD, RC2D, MODINV, ECAFF, RSASIGN and ECSIGN happen (60_exceptions.md R383, R388). ECSIGN,
its checks passed, ends in NONCE_EXHAUSTED exactly where the nonce loop accepts no candidate (46_ecdsa.md R349); no operands
that exhaust the loop are known, so that clause is one `if` with both ends. -/
def Obligations.LateFaultConditions : Prop :=
  (∀ (k2 : Bool) (s : State), checkFault (.tdesd k2 true) s = none →
      unpad (cipherPlain (tdesFunction k2 s) s) = .error .badPadding →
      ∃ t, exec (.tdesd k2 true) s = .next t ∧ faultedFrom .badPadding .out s t)
    ∧ (∀ (e128 : Bool) (s : State), checkFault (.rc2d e128 true) s = none →
      unpad (cipherPlain (rc2Function e128 s) s) = .error .badPadding →
      ∃ t, exec (.rc2d e128 true) s = .next t ∧ faultedFrom .badPadding .out s t)
    ∧ (∀ s : State, checkFault .modinv s = none → Nat.gcd (s.bnA.toNat % s.bnM.toNat) s.bnM.toNat ≠ 1 →
      ∃ t, exec .modinv s = .next t ∧ faultedFrom .notInvertible .bnR s t)
    ∧ (∀ s : State, checkFault .ecaff s = none → s.pP.z = 0 →
      ∃ t, exec .ecaff s = .next t ∧ faultedFrom .pointAtInfinity .pointR s t)
    ∧ (∀ (alg : BitVec 4) (dg : Bool) (s : State), checkFault (.rsasign alg dg) s = none →
      256 ^ modulusBytes s ≤
        rsaSign (namedHash alg) (signDigest (namedHash alg) dg s) (modulusBytes s) s.rsa →
      ∃ t, exec (.rsasign alg dg) s = .next t ∧ faultedFrom .keyInconsistent .out s t)
    ∧ ∀ (alg : BitVec 4) (dg : Bool) (s : State), checkFault (.ecsign alg dg) s = none →
      ∃ t, exec (.ecsign alg dg) s = .next t
        ∧ if ecdsaPair (namedHash alg) (namedCurve s) (signDigest (namedHash alg) dg s) s.ecD.toNat = none
          then faultedFrom .nonceExhausted .out s t else endsNormally s t

/-! Host accesses. -/

/-- The three writes that are not data: CMD while idle is accepted, STATUS clears the flags whose bits are 1 and ERR with
STATUS.ERR, IE stores two bits; nothing else changes (20_memory.md R84, 10_state.md R33, R36, R37). -/
def Obligations.ControlWrites : Prop :=
  ∀ (s : State) (v : Word),
    (s.status.busy = false →
      memWrite 0x10 v s =
        { s with cmd := v, err := 0, status := ⟨true, false, false, s.status.esticky, s.status.wrbusy⟩ })
    ∧ memWrite 0x14 v s =
        { s with
          status := ⟨s.status.busy, if v.getLsbD 1 then false else s.status.done,
            if v.getLsbD 2 then false else s.status.err, if v.getLsbD 3 then false else s.status.esticky,
            if v.getLsbD 4 then false else s.status.wrbusy⟩
          err := if v.getLsbD 2 then 0 else s.err }
    ∧ memWrite 0x1C v s = { s with ie := v.setWidth 2 }

/-- A STATUS write in the step in which the core ends a command clears none of the bits the core sets: with `u` the state
the same step leaves without that write, DONE is 1, STATUS.ERR and ERR are those of `u`, ESTICKY is 1 where the command
faults, and all but STATUS is as in `u`, whatever bits the host writes (10_state.md R37). -/
def Obligations.CoreSetWinsOverHostClear : Prop :=
  ∀ (s : State) (v : Word) (rest : List BusEvent), s.inputs = .coreWithStatusWrite v :: rest → s.status.busy = true →
    ∃ t u, step s = .next t ∧ step { s with inputs := .core :: rest } = .next u
      ∧ t.status.busy = false ∧ t.status.done = true
      ∧ t.status.err = u.status.err ∧ t.err = u.err
      ∧ (u.status.err = true → t.status.esticky = true)
      ∧ { t with status := u.status } = u

/-- While BUSY every data read returns 0, every write to RW or WO data, to a read-only offset and to CMD is dropped and sets
WRBUSY and nothing else, and IE and STATUS writes act as ever (20_memory.md R84, R90, 70_reset_and_hazards.md R423). That a
read-only offset follows R90, R423 and 93_implementation_defined.md U5 here, and not the last line of R84, is the model's
inference (log 13). -/
def Obligations.BusyLocksData : Prop :=
  ∀ (s : State) (v : Word), s.status.busy = true →
    (∀ off, 0x20 ≤ off → off < 0x10000 → off % 4 = 0 → memRead off s = 0)
    ∧ (∀ off, off % 4 = 0 → writableData off ∨ readOnlyOffset off ∨ off = 0x10 →
        memWrite off v s = { s with status := { s.status with wrbusy := true } })
    ∧ memWrite 0x1C v s = { s with ie := v.setWidth 2 }
    ∧ memWrite 0x14 v s = acknowledge v s

/-- A reserved offset reads 0 and ignores writes, in every state (20_memory.md R88). -/
def Obligations.ReservedOffsetsInert : Prop :=
  ∀ (s : State) (v : Word) (off : Nat), off % 4 = 0 → reservedOffset off →
    memRead off s = 0 ∧ memWrite off v s = s
    ∧ busRead off 4 s = .next { s with busReads := s.busReads ++ [0] } ∧ busWrite off 4 v s = .next s

/-- A write to a read-only offset is ignored: while idle it changes nothing and sets no flag, while BUSY it changes WRBUSY
to 1 and nothing else; a read of a write-only offset returns 0 whatever stands there (20_memory.md R89). The clause about BUSY
is the model's inference from R90, 70_reset_and_hazards.md R423 and 93_implementation_defined.md U5 (log 13). -/
def Obligations.OneWayOffsets : Prop :=
  ∀ (s : State) (v : Word) (off : Nat), off % 4 = 0 →
    (readOnlyOffset off → memWrite off v s
      = if s.status.busy then { s with status := { s.status with wrbusy := true } } else s)
    ∧ (writeOnlyOffset off → memRead off s = 0)

/-- Bus word `j` of a wide or curve register is bits `n-1-32j` down to `n-32-32j`, and writing it replaces those bits and
no others, at the slot of every wide and curve register: all readable ones read so, all writable ones are written so
(20_memory.md R86, 10_state.md R31, R54). -/
def Obligations.RegisterWordPacking : Prop :=
  (∀ (n j k : Nat) (v : BitVec n) (w : Word), 32 * (j + 1) ≤ n → 32 * (k + 1) ≤ n →
      busWord (setBusWord v j w) k = if k = j then w else busWord v k)
    ∧ (readsWordsAt 0x1000 (fun s => s.bnA) ∧ readsWordsAt 0x1200 (fun s => s.bnE)
      ∧ readsWordsAt 0x1400 (fun s => s.bnM) ∧ readsWordsAt 0x1600 (fun s => s.bnR))
    ∧ (writesWordsAt 0x1000 (fun s => s.bnA) (fun s v => { s with bnA := v })
      ∧ writesWordsAt 0x1200 (fun s => s.bnE) (fun s v => { s with bnE := v })
      ∧ writesWordsAt 0x1400 (fun s => s.bnM) (fun s v => { s with bnM := v })
      ∧ writesWordsAt 0x1800 (fun s => s.rsa.p) (fun s v => { s with rsa := { s.rsa with p := v } })
      ∧ writesWordsAt 0x1A00 (fun s => s.rsa.q) (fun s v => { s with rsa := { s.rsa with q := v } })
      ∧ writesWordsAt 0x1C00 (fun s => s.rsa.dp) (fun s v => { s with rsa := { s.rsa with dp := v } })
      ∧ writesWordsAt 0x1E00 (fun s => s.rsa.dq) (fun s v => { s with rsa := { s.rsa with dq := v } })
      ∧ writesWordsAt 0x2000 (fun s => s.rsa.qinv) (fun s v => { s with rsa := { s.rsa with qinv := v } }))
    ∧ (readsWordsAt 0x440 (fun s => s.ecK)
      ∧ readsWordsAt 0x480 (fun s => s.pP.x) ∧ readsWordsAt 0x4C0 (fun s => s.pP.y) ∧ readsWordsAt 0x500 (fun s => s.pP.z)
      ∧ readsWordsAt 0x540 (fun s => s.pQ.x) ∧ readsWordsAt 0x580 (fun s => s.pQ.y) ∧ readsWordsAt 0x5C0 (fun s => s.pQ.z)
      ∧ readsWordsAt 0x600 (fun s => s.pR.x) ∧ readsWordsAt 0x640 (fun s => s.pR.y)
      ∧ readsWordsAt 0x680 (fun s => s.pR.z))
    ∧ writesWordsAt 0x400 (fun s => s.ecD) (fun s v => { s with ecD := v })
    ∧ writesWordsAt 0x440 (fun s => s.ecK) (fun s v => { s with ecK := v })
    ∧ writesWordsAt 0x480 (fun s => s.pP.x) (fun s v => { s with pP := { s.pP with x := v } })
    ∧ writesWordsAt 0x4C0 (fun s => s.pP.y) (fun s v => { s with pP := { s.pP with y := v } })
    ∧ writesWordsAt 0x500 (fun s => s.pP.z) (fun s v => { s with pP := { s.pP with z := v } })
    ∧ writesWordsAt 0x540 (fun s => s.pQ.x) (fun s v => { s with pQ := { s.pQ with x := v } })
    ∧ writesWordsAt 0x580 (fun s => s.pQ.y) (fun s v => { s with pQ := { s.pQ with y := v } })
    ∧ writesWordsAt 0x5C0 (fun s => s.pQ.z) (fun s v => { s with pQ := { s.pQ with z := v } })

/-- MSG, KEY and OUT words are four bytes, the lowest address in bits 31:24: a write to MSG or KEY changes those four bytes
and no other, and MSG and OUT read as their four bytes, MSG so as what was written (20_memory.md R85). -/
def Obligations.BufferWordPacking : Prop :=
  (∀ (s : State) (v : Word) (off : Nat), s.status.busy = false → off % 4 = 0 → inMsg off ∨ inKey off →
    Memory.read (memWrite off v s).mem off = v.extractLsb' 24 8
    ∧ Memory.read (memWrite off v s).mem (off + 1) = v.extractLsb' 16 8
    ∧ Memory.read (memWrite off v s).mem (off + 2) = v.extractLsb' 8 8
    ∧ Memory.read (memWrite off v s).mem (off + 3) = v.extractLsb' 0 8
    ∧ (∀ a, a < off ∨ off + 4 ≤ a → Memory.read (memWrite off v s).mem a = Memory.read s.mem a)
    ∧ memWrite off v s = { s with mem := (memWrite off v s).mem }
    ∧ (inMsg off → memRead off (memWrite off v s) = v))
    ∧ ∀ (s : State) (off : Nat), s.status.busy = false → off % 4 = 0 → inMsg off ∨ inOut off →
      memRead off s = Memory.read s.mem off ++ Memory.read s.mem (off + 1) ++ Memory.read s.mem (off + 2)
        ++ Memory.read s.mem (off + 3)

/-- A step whose event is a host access is that access of the state without the event. The accesses that exist are those
4 bytes wide at a multiple of 4 inside the window, and a read changes nothing but the model's list of values read; every
other access is refused (20_memory.md R80, R82, R83; 93_implementation_defined.md U3). The list of events, the list of values
read and the names of the two refusals are the model's (log 2, log 4). -/
def Obligations.BusAccessesThatExist : Prop :=
  (∀ (s : State) (rest : List BusEvent) (v : Word) (off width : Nat),
      (s.inputs = .read off width :: rest → step s = busRead off width { s with inputs := rest })
      ∧ (s.inputs = .write off width v :: rest → step s = busWrite off width v { s with inputs := rest }))
    ∧ ∀ (s : State) (v : Word) (off width : Nat),
      (off < 0x10000 → width = 4 → off % 4 = 0 →
        busRead off width s = .next { s with busReads := s.busReads ++ [memRead off s] }
        ∧ busWrite off width v s = .next (memWrite off v s))
      ∧ (width ≠ 4 ∨ off % 4 ≠ 0 →
        busRead off width s = .refused (.unsupportedAccess off width)
        ∧ busWrite off width v s = .refused (.unsupportedAccess off width))
      ∧ (0x10000 ≤ off → width = 4 → off % 4 = 0 →
        busRead off width s = .refused (.outsideWindow off) ∧ busWrite off width v s = .refused (.outsideWindow off))

/-! Reset, interrupt. -/

/-- After reset every item of state is zero, and the reset event brings any state there, a pending command abandoned; what
the host has yet to do and has read is not the core's and stays (10_state.md R53, 70_reset_and_hazards.md R420, R421;
the model's own lists: log 8). -/
def Obligations.ResetZeroesEverything : Prop :=
  (State.reset.cmd = 0 ∧ statusWord State.reset = 0 ∧ State.reset.err = 0 ∧ State.reset.ie = 0
      ∧ irq State.reset = false
      ∧ State.reset.msglen = 0 ∧ State.reset.keylen = 0 ∧ State.reset.outlen = 0 ∧ State.reset.totlen = 0
      ∧ hstatWord State.reset = 0 ∧ State.reset.curve = 0 ∧ State.reset.nbits = 0
      ∧ State.reset.hst = ⟨0, 0, 0, 0, 0, 0, 0, 0⟩ ∧ State.reset.iv = 0
      ∧ State.reset.bnA = 0 ∧ State.reset.bnE = 0 ∧ State.reset.bnM = 0 ∧ State.reset.bnR = 0
      ∧ State.reset.rsa = ⟨0, 0, 0, 0, 0⟩ ∧ State.reset.ecD = 0 ∧ State.reset.ecK = 0
      ∧ State.reset.pP = ⟨0, 0, 0⟩ ∧ State.reset.pQ = ⟨0, 0, 0⟩ ∧ State.reset.pR = ⟨0, 0, 0⟩
      ∧ (∀ a, Memory.read State.reset.mem a = 0)
      ∧ State.reset.hmI = ⟨0, 0, 0, 0, 0, 0, 0, 0⟩ ∧ State.reset.hmO = ⟨0, 0, 0, 0, 0, 0, 0, 0⟩
      ∧ memRead 0x00 State.reset = 0x464F5401 ∧ memRead 0x04 State.reset = 0x00003FFE
      ∧ memRead 0x08 State.reset = 0x10001000 ∧ memRead 0x0C State.reset = 0x00000040)
    ∧ ∀ (s : State) (rest : List BusEvent), s.inputs = .reset :: rest →
      step s = .next { State.reset with inputs := rest, busReads := s.busReads }

/-- The interrupt line is DONE and DONE_IE, or ERR and ERR_IE, and STATUS bit 5 reads it (10_state.md R52, R36,
60_exceptions.md R393). -/
def Obligations.InterruptLine : Prop :=
  (∀ s : State,
      irq s = ((s.status.done && s.ie.getLsbD 0) || (s.status.err && s.ie.getLsbD 1))
      ∧ (memRead 0x14 s).getLsbD 5 = irq s)
    ∧ (∀ s t : State, t.status = s.status → t.ie = s.ie → irq t = irq s)
    ∧ (∀ (s : State) (v : Word), ((s.status.done && v.getLsbD 0) || (s.status.err && v.getLsbD 1)) = true →
        irq (memWrite 0x1C v s) = true)
    ∧ irq State.reset = false

/-! The machine as a whole. -/

/-- The machine right after reset is legal. -/
def Obligations.ResetIsLegal : Prop := Legal State.reset

/-- Every step of every agent keeps a legal state legal: memory in its canonical form and inside the buffers, OUT zero
from OUTLEN on, BUSY excluding DONE and ERR, ERR a code of the table exactly when STATUS.ERR is set, streams and contexts
under algorithms the core has, an open HMAC stream under its context's algorithm (10_state.md R37, R38, R41, R49,
60_exceptions.md R383, 41_hmac.md R187). -/
def Obligations.StepKeepsLegal : Prop :=
  ∀ s t : State, Legal s → step s = .next t → Legal t

/-- Two states that differ in secrets only read the same on the bus at every offset, and a host write leaves them
differing in secrets only (10_state.md R50, R54, 70_reset_and_hazards.md R430). -/
def Obligations.BusShowsNoSecret : Prop :=
  ∀ (s t : State) (off : Nat) (v : Word), sameButSecrets s t →
    memRead off s = memRead off t ∧ sameButSecrets (memWrite off v s) (memWrite off v t)

/-- A command that reads no secret, and HMKEY, leaves two states that differ in secrets only still differing in secrets
only: no such command lets KEY, the RSA key, EC_D or the HMAC context reach a readable place (00_scope.md R12,
10_state.md R50, R54). -/
def Obligations.SecretFreeCommandsLeakNothing : Prop :=
  ∀ (i : Instr) (s t : State), showsNoSecret i = true → sameButSecrets s t → sameOutcome (exec i s) (exec i t)

/-! The control and hash registers on the bus. -/

/-- What the bus reads of STATUS, ERR, IE and CMD at any time, and of OUTLEN and HSTAT while idle; and how MSGLEN, KEYLEN,
CURVE, NBITS, TOTLEN, IV and HST read and are written while idle (10_state.md R33, R36 to R43, 20_memory.md R84, R85,
R87). -/
def Obligations.ControlRegistersOnTheBus : Prop :=
  (∀ s : State,
      ((memRead 0x14 s).getLsbD 0 = s.status.busy ∧ (memRead 0x14 s).getLsbD 1 = s.status.done
        ∧ (memRead 0x14 s).getLsbD 2 = s.status.err ∧ (memRead 0x14 s).getLsbD 3 = s.status.esticky
        ∧ (memRead 0x14 s).getLsbD 4 = s.status.wrbusy ∧ (memRead 0x14 s).getLsbD 5 = irq s
        ∧ ∀ b, 6 ≤ b → (memRead 0x14 s).getLsbD b = false)
      ∧ (memRead 0x18 s).toNat = s.err.toNat ∧ (memRead 0x1C s).toNat = s.ie.toNat ∧ memRead 0x10 s = s.cmd
      ∧ (s.status.busy = false →
        memRead 0x28 s = s.outlen ∧ memRead 0x34 s = streamBits s.stream ||| contextBits s.hmAlg))
    ∧ plainRegisterAt 0x20 (fun s => s.msglen) (fun s v => { s with msglen := v })
    ∧ plainRegisterAt 0x24 (fun s => s.keylen) (fun s v => { s with keylen := v })
    ∧ plainRegisterAt 0x38 (fun s => s.curve) (fun s v => { s with curve := v })
    ∧ plainRegisterAt 0x3C (fun s => s.nbits) (fun s v => { s with nbits := v })
    ∧ wordPairAt 0x2C (fun s => s.totlen) (fun s v => { s with totlen := v })
    ∧ wordPairAt 0x140 (fun s => s.iv) (fun s v => { s with iv := v })
    ∧ wordPairAt 0x100 (fun s => s.hst.h0) (fun s v => { s with hst := { s.hst with h0 := v } })
    ∧ wordPairAt 0x108 (fun s => s.hst.h1) (fun s v => { s with hst := { s.hst with h1 := v } })
    ∧ wordPairAt 0x110 (fun s => s.hst.h2) (fun s v => { s with hst := { s.hst with h2 := v } })
    ∧ wordPairAt 0x118 (fun s => s.hst.h3) (fun s v => { s with hst := { s.hst with h3 := v } })
    ∧ wordPairAt 0x120 (fun s => s.hst.h4) (fun s v => { s with hst := { s.hst with h4 := v } })
    ∧ wordPairAt 0x128 (fun s => s.hst.h5) (fun s v => { s with hst := { s.hst with h5 := v } })
    ∧ wordPairAt 0x130 (fun s => s.hst.h6) (fun s v => { s with hst := { s.hst with h6 := v } })
    ∧ wordPairAt 0x138 (fun s => s.hst.h7) (fun s v => { s with hst := { s.hst with h7 := v } })
end

