-- ==== Sys2Proof/Laws/Memory.lean ====
section
/-! SUPPORT. The laws of bytes and memory: conversions, read after write, and the canonical form. -/

namespace Sys2Proof.Machine

/-! Conversions (00_scope.md R16). -/

@[simp] theorem length_beBytes (n v : Nat) : (beBytes n v).length = n := by
  induction n with
  | zero => rfl
  | succ n ih => simp [beBytes, ih]

@[simp] theorem length_zeros (n : Nat) : (zeros n).length = n := by simp [zeros, rep]

@[simp] theorem length_rep (b : Byte) (n : Nat) : (rep b n).length = n := by simp [rep]

@[simp] theorem natBE_nil : natBE [] = 0 := rfl

theorem natBE_append_singleton (l : List Byte) (b : Byte) : natBE (l ++ [b]) = 256 * natBE l + b.toNat := by
  simp [natBE]

theorem natBE_cons (b : Byte) (l : List Byte) : natBE (b :: l) = b.toNat * 256 ^ l.length + natBE l := by
  induction l using List.reverseRecOn with
  | nil => simp [natBE]
  | append_singleton l c ih =>
    rw [← List.cons_append, natBE_append_singleton, ih, natBE_append_singleton, List.length_append, pow_add]
    simp
    ring

theorem natBE_lt (l : List Byte) : natBE l < 256 ^ l.length := by
  induction l using List.reverseRecOn with
  | nil => simp
  | append_singleton l c ih =>
    rw [natBE_append_singleton, List.length_append, pow_add]
    simp only [List.length_singleton, pow_one]
    have := c.isLt
    omega

theorem natBE_beBytes (n v : Nat) : natBE (beBytes n v) = v % 256 ^ n := by
  induction n with
  | zero => simp [beBytes, Nat.mod_one]
  | succ n ih =>
    have h : (256 : Nat) ^ n = 2 ^ (8 * n) := by rw [pow_mul]; rfl
    rw [beBytes, natBE_cons, ih, length_beBytes, BitVec.toNat_ofNat, Nat.shiftRight_eq_div_pow, ← h,
      Nat.pow_succ (n := 256), Nat.mod_mul (a := 256 ^ n) (b := 256)]
    norm_num
    ring

theorem beBytes_natBE (l : List Byte) : beBytes l.length (natBE l) = l := by
  have key : ∀ (l : List Byte) (u : Nat), beBytes l.length (u * 256 ^ l.length + natBE l) = l := by
    intro l
    induction l with
    | nil => intro u; rfl
    | cons b l ih =>
      intro u
      have h : (256 : Nat) ^ l.length = 2 ^ (8 * l.length) := by rw [pow_mul]; rfl
      have e : u * 256 ^ (b :: l).length + natBE (b :: l) = (u * 256 + b.toNat) * 256 ^ l.length + natBE l := by
        rw [natBE_cons, List.length_cons, Nat.pow_succ]; ring
      rw [e, List.length_cons, beBytes, ih, Nat.shiftRight_eq_div_pow, ← h]
      congr 1
      have hd : ((u * 256 + b.toNat) * 256 ^ l.length + natBE l) / 256 ^ l.length = u * 256 + b.toNat := by
        rw [mul_comm, Nat.mul_add_div (by positivity), Nat.div_eq_of_lt (natBE_lt l), Nat.add_zero]
      rw [hd]
      apply BitVec.eq_of_toNat_eq
      have := b.isLt
      rw [BitVec.toNat_ofNat]
      omega
  simpa using key l 0

/-! Reading one byte. -/

@[simp] theorem read_nil (a : Nat) : Memory.read [] a = 0 := rfl

theorem read_cons (c : Host.Cell) (m : Memory) (a : Nat) :
    Memory.read (c :: m) a = if c.1 = a then c.2 else Memory.read m a := rfl

theorem read_clear (m : Memory) (a n x : Nat) :
    Memory.read (Memory.clear m a n) x = if a ≤ x ∧ x < a + n then 0 else Memory.read m x := by
  induction m with
  | nil => simp [Memory.clear]
  | cons c m ih =>
    by_cases h : c.1 < a ∨ a + n ≤ c.1
    · have : Memory.clear (c :: m) a n = c :: Memory.clear m a n := List.filter_cons_of_pos (by simpa using h)
      rw [this, read_cons, read_cons, ih]
      split_ifs <;> first | rfl | omega
    · have : Memory.clear (c :: m) a n = Memory.clear m a n := List.filter_cons_of_neg (by simpa using h)
      rw [this, ih, read_cons]
      split_ifs <;> first | rfl | omega

theorem read_insert (a : Nat) (v : Byte) (m : Memory) (x : Nat) (h : ∀ c ∈ m, c.1 ≠ a) :
    Memory.read (Memory.insert a v m) x = if x = a then v else Memory.read m x := by
  induction m with
  | nil => simp [Memory.insert, read_cons, eq_comm]
  | cons c m ih =>
    have hc : c.1 ≠ a := h c (by simp)
    have hm : ∀ d ∈ m, d.1 ≠ a := fun d hd => h d (by simp [hd])
    unfold Memory.insert
    split
    · rw [read_cons]; simp only []; split_ifs <;> first | rfl | omega
    · rw [read_cons, read_cons, ih hm]; split_ifs <;> first | rfl | omega

theorem not_mem_clear (m : Memory) (a : Nat) : ∀ c ∈ Memory.clear m a 1, c.1 ≠ a := by
  intro c hc
  simp [Memory.clear] at hc
  omega

/-- Reading a byte after a byte is written: the value written there, what stood there elsewhere. -/
theorem read_write (m : Memory) (a : Nat) (v : Byte) (x : Nat) :
    Memory.read (Memory.write m a v) x = if x = a then v else Memory.read m x := by
  unfold Memory.write
  split
  · next h => rw [read_clear, h]; split_ifs <;> first | rfl | omega
  · rw [read_insert _ _ _ _ (not_mem_clear m a), read_clear]; split_ifs <;> first | rfl | omega

/-- Reading a byte after a byte string is written. -/
theorem read_writeBytes (bs : List Byte) (m : Memory) (a x : Nat) :
    Memory.read (Memory.writeBytes m a bs) x =
      if a ≤ x ∧ x < a + bs.length then bs.getD (x - a) 0 else Memory.read m x := by
  induction bs generalizing m a with
  | nil => simp [Memory.writeBytes]
  | cons b bs ih =>
    rw [Memory.writeBytes, ih, read_write, List.length_cons]
    by_cases h : x = a
    · subst h; simp
    · by_cases h2 : a + 1 ≤ x ∧ x < a + 1 + bs.length
      · rw [if_pos h2, if_pos (by omega)]
        have : x - a = (x - (a + 1)) + 1 := by omega
        rw [this, List.getD_cons_succ]
      · rw [if_neg h2, if_neg h, if_neg (by omega)]

@[simp] theorem length_readBytes (m : Memory) (a n : Nat) : (Memory.readBytes m a n).length = n := by
  induction n generalizing a with
  | zero => rfl
  | succ n ih => simp [Memory.readBytes, ih]

theorem getD_readBytes (m : Memory) (a n j : Nat) (h : j < n) :
    (Memory.readBytes m a n).getD j 0 = Memory.read m (a + j) := by
  induction n generalizing a j with
  | zero => omega
  | succ n ih =>
    cases j with
    | zero => simp [Memory.readBytes]
    | succ j =>
      rw [Memory.readBytes, List.getD_cons_succ, ih (a + 1) j (by omega)]
      congr 1; omega

theorem readBytes_congr (m m' : Memory) (a n : Nat)
    (h : ∀ x, a ≤ x → x < a + n → Memory.read m' x = Memory.read m x) :
    Memory.readBytes m' a n = Memory.readBytes m a n := by
  induction n generalizing a with
  | zero => rfl
  | succ n ih =>
    rw [Memory.readBytes, Memory.readBytes, h a (by omega) (by omega), ih (a + 1) (fun x h1 h2 => h x (by omega) (by omega))]

theorem readBytes_writeBytes (m : Memory) (a : Nat) (bs : List Byte) :
    Memory.readBytes (Memory.writeBytes m a bs) a bs.length = bs := by
  induction bs generalizing m a with
  | nil => rfl
  | cons b bs ih =>
    rw [List.length_cons, Memory.readBytes, Memory.writeBytes, ih, read_writeBytes, read_write]
    simp

theorem readBytes_append (m : Memory) (a n k : Nat) :
    Memory.readBytes m a (n + k) = Memory.readBytes m a n ++ Memory.readBytes m (a + n) k := by
  induction n generalizing a with
  | zero => simp [Memory.readBytes]
  | succ n ih =>
    rw [show n + 1 + k = (n + k) + 1 by omega, Memory.readBytes, Memory.readBytes, ih, List.cons_append,
      show a + 1 + n = a + (n + 1) by omega]

/-! The canonical form. -/

theorem wf_nil : Memory.wf [] := by simp [Memory.wf]

theorem wf_clear {m : Memory} (h : Memory.wf m) (a n : Nat) : Memory.wf (Memory.clear m a n) :=
  ⟨h.1.filter _, fun c hc => h.2 c (List.mem_of_mem_filter hc)⟩

theorem mem_insert (a : Nat) (v : Byte) (m : Memory) (c : Host.Cell) :
    c ∈ Memory.insert a v m ↔ c = (a, v) ∨ c ∈ m := by
  induction m with
  | nil => simp [Memory.insert]
  | cons d m ih =>
    unfold Memory.insert
    split
    · simp
    · simp only [List.mem_cons, ih]; tauto

theorem wf_insert {m : Memory} (h : Memory.wf m) (a : Nat) (v : Byte) (hv : v ≠ 0) (ha : ∀ c ∈ m, c.1 ≠ a) :
    Memory.wf (Memory.insert a v m) := by
  refine ⟨?_, fun c hc => ?_⟩
  · have hp := h.1
    clear h
    induction m with
    | nil => simp [Memory.insert]
    | cons c m ih =>
      have hc : c.1 ≠ a := ha c (by simp)
      rw [List.pairwise_cons] at hp
      unfold Memory.insert
      split
      · next hlt =>
        refine List.pairwise_cons.2 ⟨fun d hd => ?_, List.pairwise_cons.2 hp⟩
        rcases List.mem_cons.1 hd with rfl | hd
        · exact hlt
        · exact lt_trans hlt (hp.1 d hd)
      · next hlt =>
        refine List.pairwise_cons.2 ⟨fun d hd => ?_, ih (fun d hd => ha d (by simp [hd])) hp.2⟩
        rcases (mem_insert a v m d).1 hd with rfl | hd
        · exact lt_of_le_of_ne (not_lt.1 hlt) hc
        · exact hp.1 d hd
  · rcases (mem_insert a v m c).1 hc with rfl | hc
    · exact hv
    · exact h.2 c hc

/-- A write of a byte keeps the canonical form. -/
theorem wf_write {m : Memory} (h : Memory.wf m) (a : Nat) (v : Byte) : Memory.wf (Memory.write m a v) := by
  unfold Memory.write
  split
  · exact wf_clear h a 1
  · next hv => exact wf_insert (wf_clear h a 1) a v hv (not_mem_clear m a)

/-- A write of a byte string keeps the canonical form. -/
theorem wf_writeBytes {m : Memory} (h : Memory.wf m) (a : Nat) (bs : List Byte) :
    Memory.wf (Memory.writeBytes m a bs) := by
  induction bs generalizing m a with
  | nil => exact h
  | cons b bs ih => exact ih (wf_write h a b) (a + 1)

/-- A write of a bus word keeps the canonical form. -/
theorem wf_writeWord {m : Memory} (h : Memory.wf m) (a : Nat) (v : Word) : Memory.wf (Memory.writeWord m a v) :=
  wf_writeBytes h a _

/-- The memory after reset is in canonical form. -/
theorem wf_reset : Memory.wf State.reset.mem := wf_nil

/-- Every entry after a write is the written one or an old one. -/
theorem mem_write {m : Memory} {a : Nat} {v : Byte} {c : Host.Cell} (h : c ∈ Memory.write m a v) :
    c = (a, v) ∨ c ∈ m := by
  unfold Memory.write at h
  split at h
  · exact .inr (List.mem_of_mem_filter h)
  · rcases (mem_insert a v _ c).1 h with h | h
    · exact .inl h
    · exact .inr (List.mem_of_mem_filter h)

/-- Every address after a write of a byte string is among those written or an old one. -/
theorem mem_writeBytes {bs : List Byte} {m : Memory} {a : Nat} {c : Host.Cell} (h : c ∈ Memory.writeBytes m a bs) :
    (a ≤ c.1 ∧ c.1 < a + bs.length) ∨ c ∈ m := by
  induction bs generalizing m a with
  | nil => exact .inr h
  | cons b bs ih =>
    rcases ih h with ⟨h1, h2⟩ | h
    · left; rw [List.length_cons]; omega
    · rcases mem_write h with rfl | h
      · left; simp
      · exact .inr h

/-- An address at which no entry stands reads 0x00. -/
theorem read_eq_zero {m : Memory} {a : Nat} (h : ∀ c ∈ m, c.1 ≠ a) : Memory.read m a = 0 := by
  induction m with
  | nil => rfl
  | cons c m ih =>
    rw [read_cons, if_neg (h c (by simp)), ih (fun d hd => h d (by simp [hd]))]

/-! Bus words (20_memory.md R85). -/

theorem readWord_writeWord (m : Memory) (a : Nat) (v : Word) : Memory.readWord (Memory.writeWord m a v) a = v := by
  have h := readBytes_writeBytes m a (beBytes 4 v.toNat)
  rw [length_beBytes] at h
  rw [Memory.readWord, Memory.writeWord, h, natBE_beBytes]
  apply BitVec.eq_of_toNat_eq
  have := v.isLt
  simp only [BitVec.toNat_ofNat]
  omega

theorem read_writeWord_other (m : Memory) (a : Nat) (v : Word) (x : Nat) (h : x < a ∨ a + 4 ≤ x) :
    Memory.read (Memory.writeWord m a v) x = Memory.read m x := by
  rw [Memory.writeWord, read_writeBytes, length_beBytes, if_neg (by omega)]

end Sys2Proof.Machine
end

