-- ==== Sys2Proof/Laws/Hash.lean ====
section
/-! SUPPORT. Lengths in the hash and HMAC units, and absorbing a byte string in two parts. -/

namespace Sys2Proof.Machine

@[simp] theorem length_toList {w : Nat} (x : Eight w) : (Eight.toList x).length = 8 := rfl

@[simp] theorem length_wordTable {w : Nat} (rows : List (Eight w)) : (wordTable rows).length = 8 * rows.length := by
  induction rows with
  | nil => rfl
  | cons r rows ih => simp only [wordTable, List.flatMap_cons, List.length_append] at *; simp [ih]; omega

/-- 64 round constants (40_hash.md R142). -/
theorem length_k256 : k256.length = 64 := rfl

/-- 80 round constants (40_hash.md R143). -/
theorem length_k512 : k512.length = 80 := rfl

@[simp] theorem length_digestOf (a : HashAlg) (h : HashWords) : (digestOf a h).length = digestBytes a := by
  cases a <;> simp [digestOf, Eight.toList, stateWords, wordBytes, digestBytes]

@[simp] theorem length_finalize (a : HashAlg) (h : HashWords) (tail : List Byte) (total : Nat) :
    (finalize a h tail total).length = digestBytes a := by simp [finalize]

@[simp] theorem length_hashOf (a : HashAlg) (m : List Byte) : (hashOf a m).length = digestBytes a := by simp [hashOf]

@[simp] theorem length_hmacOf (a : HashAlg) (k m : List Byte) : (hmacOf a k m).length = digestBytes a := by
  simp [hmacOf]

theorem blockBytes_pos (a : HashAlg) : 0 < blockBytes a := by cases a <;> decide

theorem digestBytes_le_blockBytes (a : HashAlg) : digestBytes a ≤ blockBytes a := by cases a <;> decide

theorem blockBytes_le (a : HashAlg) : blockBytes a ≤ 128 := by cases a <;> decide

/-- A normalised key is one block (41_hmac.md R181). -/
@[simp] theorem length_normkey (a : HashAlg) (k : List Byte) : (normkey a k).length = blockBytes a := by
  unfold normkey
  have := digestBytes_le_blockBytes a
  split
  · simp; omega
  · simp; omega

@[simp] theorem length_ipad (a : HashAlg) : (ipad a).length = blockBytes a := by simp [ipad]

@[simp] theorem length_opad (a : HashAlg) : (opad a).length = blockBytes a := by simp [opad]

@[simp] theorem length_xorBytes (x y : List Byte) : (xorBytes x y).length = min x.length y.length := by
  simp [xorBytes]

/-- A piece with its padding is a whole number of blocks (40_hash.md R151). -/
theorem length_pad_mod (a : HashAlg) (n total : Nat) : (n + (pad a n total).length) % blockBytes a = 0 := by
  cases a <;> simp [pad, blockBytes, lengthBytes] <;> omega

/-- Absorbing `n` blocks and then `k` more. -/
theorem absorb_append (a : HashAlg) (n k : Nat) (h : HashWords) (x y : List Byte) (hx : x.length = n * blockBytes a) :
    absorb a (n + k) h (x ++ y) = absorb a k (absorb a n h x) y := by
  induction n generalizing h x with
  | zero =>
    have : x = [] := List.eq_nil_of_length_eq_zero (by simpa using hx)
    subst this
    simp [absorb]
  | succ n ih =>
    have hl : blockBytes a ≤ x.length := by rw [hx, Nat.succ_mul]; omega
    rw [show n + 1 + k = (n + k) + 1 by omega, absorb, absorb, List.take_append_of_le_length hl,
      List.drop_append_of_le_length hl, ih]
    rw [List.length_drop, hx, Nat.succ_mul]; omega

/-- Absorbing one block is `compress`. -/
theorem absorb_one (a : HashAlg) (h : HashWords) (x : List Byte) (hx : x.length = blockBytes a) :
    absorb a 1 h x = compress a h x := by
  rw [absorb, absorb, List.take_of_length_le (by omega)]

end Sys2Proof.Machine
end

