-- ==== Sys2Proof/Laws/Ops.lean ====
section
/-! SUPPORT. One lemma per shared operation: everything it can answer, and when. -/

namespace Sys2Proof.Machine

/-! Checks. -/

theorem faultIf_ok {p : Prop} [Decidable p] {c : FaultCode} : faultIf p c = .ok () ↔ ¬ p := by
  unfold faultIf; split <;> simp [*]

theorem faultIf_error {p : Prop} [Decidable p] {c d : FaultCode} : faultIf p c = .error d ↔ p ∧ d = c := by
  unfold faultIf; split <;> simp [*, eq_comm]

@[simp] theorem faultIf_pos {p : Prop} [Decidable p] {c : FaultCode} (h : p) : faultIf p c = .error c := if_pos h

@[simp] theorem faultIf_neg {p : Prop} [Decidable p] {c : FaultCode} (h : ¬ p) : faultIf p c = .ok () := if_neg h

/-- A check followed by the rest of a command: the fault where it fires, the rest where it does not. -/
theorem faultIf_bind {α : Type} (p : Prop) [Decidable p] (c : FaultCode) (k : Unit → Except FaultCode α) :
    (faultIf p c >>= k) = if p then .error c else k () := by
  unfold faultIf; split <;> rfl

/-- The end of a command is always a next state: the normal end of the result, or the fault. -/
theorem finish_eq (l : ResultLocs) (s : State) (r : Except FaultCode State) :
    (∃ t, r = .ok t ∧ finish l s r = .next (endNormal t)) ∨
      ∃ c, r = .error c ∧ finish l s r = .next (raiseFault c l s) := by
  cases r with
  | ok t => exact .inl ⟨t, rfl, rfl⟩
  | error c => exact .inr ⟨c, rfl, rfl⟩

@[simp] theorem finish_ok (l : ResultLocs) (s t : State) : finish l s (.ok t) = .next (endNormal t) := rfl

@[simp] theorem finish_error (l : ResultLocs) (s : State) (c : FaultCode) :
    finish l s (.error c) = .next (raiseFault c l s) := rfl

/-- If a command ends in the next state `t`, then `t` is the normal end of its result or the fault. -/
theorem finish_next {l : ResultLocs} {s t : State} {r : Except FaultCode State} (h : finish l s r = .next t) :
    (∃ u, r = .ok u ∧ t = endNormal u) ∨ ∃ c, r = .error c ∧ t = raiseFault c l s := by
  rcases finish_eq l s r with ⟨u, hr, e⟩ | ⟨c, hr, e⟩ <;> rw [e] at h <;> injection h with h
  · exact .inl ⟨u, hr, h.symm⟩
  · exact .inr ⟨c, hr, h.symm⟩

/-- A command with a hash selector: UNSUP_HASH, or the run under the selected algorithm. -/
theorem withHash_eq (alg : BitVec 4) (s : State) (f : HashAlg → Host.Outcome State Fault Refusal) :
    (selectHash alg = none ∧ withHash alg s f = .next (raiseFault .unsupHash .none s)) ∨
      ∃ a, selectHash alg = some a ∧ withHash alg s f = f a := by
  unfold withHash
  cases h : selectHash alg with
  | none => exact .inl ⟨rfl, rfl⟩
  | some a => exact .inr ⟨a, rfl, rfl⟩

theorem withHash_some {alg : BitVec 4} {a : HashAlg} (h : selectHash alg = some a) (s : State)
    (f : HashAlg → Host.Outcome State Fault Refusal) : withHash alg s f = f a := by
  simp [withHash, h]

theorem withHash_none {alg : BitVec 4} (h : selectHash alg = none) (s : State)
    (f : HashAlg → Host.Outcome State Fault Refusal) :
    withHash alg s f = .next (raiseFault .unsupHash .none s) := by
  simp [withHash, h]

/-- The selector names an algorithm exactly when the command is well formed. -/
theorem selectHash_isSome : ∀ alg : BitVec 4, (selectHash alg).isSome = algAvailable alg := by decide

/-- The algorithms this core can select. -/
theorem selectHash_cases {alg : BitVec 4} {a : HashAlg} (h : selectHash alg = some a) :
    (alg = 2 ∧ a = .sha256) ∨ (alg = 3 ∧ a = .sha384) ∨ (alg = 4 ∧ a = .sha512) := by
  revert h; revert a; revert alg; decide

/-- The curve selector answers the two curves for 1 and 2 and faults otherwise. -/
theorem selectCurve_eq (s : State) :
    (s.curve = 1 ∧ selectCurve s = .ok .p256) ∨ (s.curve = 2 ∧ selectCurve s = .ok .p384) ∨
      (s.curve ≠ 1 ∧ s.curve ≠ 2 ∧ selectCurve s = .error .unsupCurve) := by
  have e1 : s.curve = 1 ↔ s.curve.toNat = 1 := by
    rw [← BitVec.toNat_inj]; rfl
  have e2 : s.curve = 2 ↔ s.curve.toNat = 2 := by
    rw [← BitVec.toNat_inj]; rfl
  unfold selectCurve
  split
  · next h => exact .inl ⟨e1.2 h, rfl⟩
  · next h => exact .inr (.inl ⟨e2.2 h, rfl⟩)
  · next h1 h2 => exact .inr (.inr ⟨fun h => h1 (e1.1 h), fun h => h2 (e2.1 h), rfl⟩)

/-! The open stream. -/

theorem openStream_ok {s : State} {a : HashAlg} : openStream s = .ok a ↔ streamAlg s.stream = some a := by
  unfold openStream; cases s.stream <;> simp [streamAlg]

theorem openStream_error {s : State} {c : FaultCode} :
    openStream s = .error c ↔ s.stream = .closed ∧ c = .badSequence := by
  unfold openStream; cases s.stream <;> simp [eq_comm]

theorem openPlainStream_ok {s : State} {a : HashAlg} : openPlainStream s = .ok a ↔ s.stream = .plain a := by
  unfold openPlainStream; cases s.stream <;> simp

theorem openHmacStream_ok {s : State} {a : HashAlg} : openHmacStream s = .ok a ↔ s.stream = .hmac a := by
  unfold openHmacStream; cases s.stream <;> simp

theorem hmacContext_ok {s : State} {a : HashAlg} : hmacContext s = .ok a ↔ s.hmAlg = some a := by
  unfold hmacContext; cases s.hmAlg <;> simp

/-! Bus accesses. -/

/-- An access answers a next state exactly when it is one that exists. -/
theorem checkAccess_next {off width : Nat} {t u : State} :
    checkAccess off width t = .next u ↔ off < windowBytes ∧ width = 4 ∧ off % 4 = 0 ∧ u = t := by
  unfold checkAccess
  split
  · constructor
    · intro h; cases h
    · rintro ⟨-, h1, h2, -⟩; omega
  · split
    · constructor
      · intro h; cases h
      · rintro ⟨h, -⟩; omega
    · constructor
      · intro h; injection h with h; subst h
        exact ⟨by omega, by omega, by omega, rfl⟩
      · rintro ⟨-, -, -, rfl⟩; rfl

/-- An access that does not exist is refused under one of two names, and no access faults
(20_memory.md R82, 93_implementation_defined.md U3). -/
theorem checkAccess_refused {off width : Nat} {t : State} (h : width ≠ 4 ∨ off % 4 ≠ 0 ∨ windowBytes ≤ off) :
    checkAccess off width t = .refused (.unsupportedAccess off width)
      ∨ (width = 4 ∧ off % 4 = 0 ∧ checkAccess off width t = .refused (.outsideWindow off)) := by
  unfold checkAccess
  split
  · exact .inl rfl
  · rw [if_pos (by omega)]
    exact .inr ⟨by omega, by omega, rfl⟩

/-- A read changes nothing of the machine but the list of values read. -/
theorem busRead_next {off width : Nat} {s t : State} (h : busRead off width s = .next t) :
    t = { s with busReads := s.busReads ++ [memRead off s] } := (checkAccess_next.1 h).2.2.2

/-- A write leaves what the write rule says. -/
theorem busWrite_next {off width : Nat} {v : Word} {s t : State} (h : busWrite off width v s = .next t) :
    off < windowBytes ∧ width = 4 ∧ off % 4 = 0 ∧ t = memWrite off v s := checkAccess_next.1 h

/-- A write outside CMD, STATUS, IE and the reserved offsets: dropped, stored or ignored. -/
theorem writeData_eq (v : Word) (s : State) (l : Loc) :
    (s.status.busy = true ∧ writeData v s l = dropWrite s) ∨
      (s.status.busy = false ∧ ((∃ t, storeLoc s v l = some t ∧ writeData v s l = t) ∨
        (storeLoc s v l = none ∧ writeData v s l = s))) := by
  unfold writeData
  cases s.status.busy
  · refine .inr ⟨rfl, ?_⟩
    cases storeLoc s v l with
    | none => exact .inr ⟨rfl, rfl⟩
    | some t => exact .inl ⟨t, rfl, rfl⟩
  · exact .inl ⟨rfl, rfl⟩

/-- Everything a bus write can do: one of the three control writes, nothing at a reserved offset, or a data write. -/
theorem memWrite_eq (off : Nat) (v : Word) (s : State) :
    (locate off = .cmd ∧ memWrite off v s = writeCmd v s) ∨ (locate off = .status ∧ memWrite off v s = acknowledge v s) ∨
      (locate off = .ie ∧ memWrite off v s = writeIe v s) ∨ (locate off = .reserved ∧ memWrite off v s = s) ∨
      memWrite off v s = writeData v s (locate off) := by
  unfold memWrite
  cases locate off <;> simp

/-! Agents. -/

/-- Everything the core can do when it moves: hold its state, perform the decoded command, or fault in decoding. -/
theorem coreStep_eq (s : State) :
    (s.status.busy = false ∧ coreStep s = .next s) ∨
      (s.status.busy = true ∧ ∃ i, decode s.cmd = .ok i ∧ coreStep s = exec i s) ∨
      (s.status.busy = true ∧ ∃ c, decode s.cmd = .error c ∧ coreStep s = .next (raiseFault c .none s)) := by
  unfold coreStep fetchWord
  cases hb : s.status.busy with
  | false => exact .inl ⟨rfl, by simp⟩
  | true =>
    cases hd : decode s.cmd with
    | ok i => exact .inr (.inl ⟨rfl, i, rfl, by simp⟩)
    | error c => exact .inr (.inr ⟨rfl, c, rfl, by simp⟩)

/-- Everything a step can do: with no event left the core moves, else the first event happens. -/
theorem step_eq (s : State) :
    (s.inputs = [] ∧ step s = coreStep s) ∨
      ∃ e rest, s.inputs = e :: rest ∧ step s = eventStep e { s with inputs := rest } := by
  unfold step machineStep
  cases s.inputs with
  | nil => exact .inl ⟨rfl, rfl⟩
  | cons e rest => exact .inr ⟨e, rest, rfl, rfl⟩

/-- Everything an event can do. -/
theorem eventStep_next {e : BusEvent} {s t : State} (h : eventStep e s = .next t) :
    (∃ off width, e = .read off width ∧ t = { s with busReads := s.busReads ++ [memRead off s] }) ∨
      (∃ off v, e = .write off 4 v ∧ off < windowBytes ∧ off % 4 = 0 ∧ t = memWrite off v s) ∨
      (e = .core ∧ coreStep s = .next t) ∨
      (∃ v, e = .coreWithStatusWrite v ∧ coreStep (acknowledge v s) = .next t) ∨
      (e = .reset ∧ t = platformReset s) := by
  cases e with
  | read off width => exact .inl ⟨off, width, rfl, busRead_next h⟩
  | write off width v =>
    obtain ⟨h1, rfl, h3, h4⟩ := busWrite_next h
    exact .inr (.inl ⟨off, v, rfl, h1, h3, h4⟩)
  | core => exact .inr (.inr (.inl ⟨rfl, h⟩))
  | coreWithStatusWrite v => exact .inr (.inr (.inr (.inl ⟨v, rfl, h⟩)))
  | reset =>
    refine .inr (.inr (.inr (.inr ⟨rfl, ?_⟩)))
    injection h with h
    exact h.symm

end Sys2Proof.Machine
end

