-- ==== Sys2Proof/Laws/PerInstr.lean ====
section
/-! SUPPORT. Facts about every command as syntax, one lemma per constructor. -/

namespace Sys2Proof.Laws.EncodeFields

/-- The four fields of a command's word are its operation code, its selector, its modifier bits and zeros
(30_encoding.md R111). -/
def Statement (i : Instr) : Prop :=
  fieldOpc (encode i) = encodeOpc i ∧ fieldAlg (encode i) = encodeAlg i ∧ fieldMod (encode i) = encodeMod i
    ∧ fieldRsv (encode i) = 0

theorem nop : Statement .nop := by unfold Statement; decide

theorem zeroize : Statement .zeroize := by unfold Statement; decide

theorem hinit (alg : BitVec 4) : Statement (.hinit alg) := by unfold Statement; revert alg; decide

theorem hupdate : Statement .hupdate := by unfold Statement; decide

theorem hfinal : Statement .hfinal := by unfold Statement; decide

theorem hcomp (alg : BitVec 4) : Statement (.hcomp alg) := by unfold Statement; revert alg; decide

theorem hash (alg : BitVec 4) : Statement (.hash alg) := by unfold Statement; revert alg; decide

theorem hmkey (alg : BitVec 4) : Statement (.hmkey alg) := by unfold Statement; revert alg; decide

theorem hminit : Statement .hminit := by unfold Statement; decide

theorem hmfinal : Statement .hmfinal := by unfold Statement; decide

theorem hmac (alg : BitVec 4) : Statement (.hmac alg) := by unfold Statement; revert alg; decide

theorem tdesd (k2 fin : Bool) : Statement (.tdesd k2 fin) := by unfold Statement; revert k2 fin; decide

theorem rc2d (e128 fin : Bool) : Statement (.rc2d e128 fin) := by unfold Statement; revert e128 fin; decide

theorem modexp : Statement .modexp := by unfold Statement; decide

theorem modinv : Statement .modinv := by unfold Statement; decide

theorem modcrt : Statement .modcrt := by unfold Statement; decide

theorem ecdbl : Statement .ecdbl := by unfold Statement; decide

theorem ecadd : Statement .ecadd := by unfold Statement; decide

theorem ecmul : Statement .ecmul := by unfold Statement; decide

theorem ecaff : Statement .ecaff := by unfold Statement; decide

theorem ecldg : Statement .ecldg := by unfold Statement; decide

theorem rsasign (alg : BitVec 4) (dg : Bool) : Statement (.rsasign alg dg) := by unfold Statement; revert alg dg; decide

theorem ecsign (alg : BitVec 4) (dg : Bool) : Statement (.ecsign alg dg) := by unfold Statement; revert alg dg; decide

end Sys2Proof.Laws.EncodeFields
end

