-- ==== Sys2Proof/Laws/State.lean ====
section
/-! SUPPORT. One lemma per field of State per named update. -/

namespace Sys2Proof.Machine

/-! Writing a result to OUT. -/

@[simp] theorem setOut_cmd (bytes : List Byte) (s : State) : (setOut bytes s).cmd = s.cmd := rfl
@[simp] theorem setOut_status (bytes : List Byte) (s : State) : (setOut bytes s).status = s.status := rfl
@[simp] theorem setOut_err (bytes : List Byte) (s : State) : (setOut bytes s).err = s.err := rfl
@[simp] theorem setOut_ie (bytes : List Byte) (s : State) : (setOut bytes s).ie = s.ie := rfl
@[simp] theorem setOut_msglen (bytes : List Byte) (s : State) : (setOut bytes s).msglen = s.msglen := rfl
@[simp] theorem setOut_keylen (bytes : List Byte) (s : State) : (setOut bytes s).keylen = s.keylen := rfl
@[simp] theorem setOut_outlen (bytes : List Byte) (s : State) : (setOut bytes s).outlen = BitVec.ofNat 32 bytes.length := rfl
@[simp] theorem setOut_totlen (bytes : List Byte) (s : State) : (setOut bytes s).totlen = s.totlen := rfl
@[simp] theorem setOut_stream (bytes : List Byte) (s : State) : (setOut bytes s).stream = s.stream := rfl
@[simp] theorem setOut_curve (bytes : List Byte) (s : State) : (setOut bytes s).curve = s.curve := rfl
@[simp] theorem setOut_nbits (bytes : List Byte) (s : State) : (setOut bytes s).nbits = s.nbits := rfl
@[simp] theorem setOut_hst (bytes : List Byte) (s : State) : (setOut bytes s).hst = s.hst := rfl
@[simp] theorem setOut_iv (bytes : List Byte) (s : State) : (setOut bytes s).iv = s.iv := rfl
@[simp] theorem setOut_bnA (bytes : List Byte) (s : State) : (setOut bytes s).bnA = s.bnA := rfl
@[simp] theorem setOut_bnE (bytes : List Byte) (s : State) : (setOut bytes s).bnE = s.bnE := rfl
@[simp] theorem setOut_bnM (bytes : List Byte) (s : State) : (setOut bytes s).bnM = s.bnM := rfl
@[simp] theorem setOut_bnR (bytes : List Byte) (s : State) : (setOut bytes s).bnR = s.bnR := rfl
@[simp] theorem setOut_rsa (bytes : List Byte) (s : State) : (setOut bytes s).rsa = s.rsa := rfl
@[simp] theorem setOut_ecD (bytes : List Byte) (s : State) : (setOut bytes s).ecD = s.ecD := rfl
@[simp] theorem setOut_ecK (bytes : List Byte) (s : State) : (setOut bytes s).ecK = s.ecK := rfl
@[simp] theorem setOut_pP (bytes : List Byte) (s : State) : (setOut bytes s).pP = s.pP := rfl
@[simp] theorem setOut_pQ (bytes : List Byte) (s : State) : (setOut bytes s).pQ = s.pQ := rfl
@[simp] theorem setOut_pR (bytes : List Byte) (s : State) : (setOut bytes s).pR = s.pR := rfl
@[simp] theorem setOut_mem (bytes : List Byte) (s : State) : (setOut bytes s).mem = Memory.writeBytes (Memory.clear s.mem outBase Config.msgCap) outBase bytes := rfl
@[simp] theorem setOut_hmI (bytes : List Byte) (s : State) : (setOut bytes s).hmI = s.hmI := rfl
@[simp] theorem setOut_hmO (bytes : List Byte) (s : State) : (setOut bytes s).hmO = s.hmO := rfl
@[simp] theorem setOut_hmAlg (bytes : List Byte) (s : State) : (setOut bytes s).hmAlg = s.hmAlg := rfl
@[simp] theorem setOut_inputs (bytes : List Byte) (s : State) : (setOut bytes s).inputs = s.inputs := rfl
@[simp] theorem setOut_busReads (bytes : List Byte) (s : State) : (setOut bytes s).busReads = s.busReads := rfl

/-! Writing BN_R. -/

@[simp] theorem setBnR_cmd (v : Nat) (s : State) : (setBnR v s).cmd = s.cmd := rfl
@[simp] theorem setBnR_status (v : Nat) (s : State) : (setBnR v s).status = s.status := rfl
@[simp] theorem setBnR_err (v : Nat) (s : State) : (setBnR v s).err = s.err := rfl
@[simp] theorem setBnR_ie (v : Nat) (s : State) : (setBnR v s).ie = s.ie := rfl
@[simp] theorem setBnR_msglen (v : Nat) (s : State) : (setBnR v s).msglen = s.msglen := rfl
@[simp] theorem setBnR_keylen (v : Nat) (s : State) : (setBnR v s).keylen = s.keylen := rfl
@[simp] theorem setBnR_outlen (v : Nat) (s : State) : (setBnR v s).outlen = s.outlen := rfl
@[simp] theorem setBnR_totlen (v : Nat) (s : State) : (setBnR v s).totlen = s.totlen := rfl
@[simp] theorem setBnR_stream (v : Nat) (s : State) : (setBnR v s).stream = s.stream := rfl
@[simp] theorem setBnR_curve (v : Nat) (s : State) : (setBnR v s).curve = s.curve := rfl
@[simp] theorem setBnR_nbits (v : Nat) (s : State) : (setBnR v s).nbits = s.nbits := rfl
@[simp] theorem setBnR_hst (v : Nat) (s : State) : (setBnR v s).hst = s.hst := rfl
@[simp] theorem setBnR_iv (v : Nat) (s : State) : (setBnR v s).iv = s.iv := rfl
@[simp] theorem setBnR_bnA (v : Nat) (s : State) : (setBnR v s).bnA = s.bnA := rfl
@[simp] theorem setBnR_bnE (v : Nat) (s : State) : (setBnR v s).bnE = s.bnE := rfl
@[simp] theorem setBnR_bnM (v : Nat) (s : State) : (setBnR v s).bnM = s.bnM := rfl
@[simp] theorem setBnR_bnR (v : Nat) (s : State) : (setBnR v s).bnR = BitVec.ofNat Config.bnBits v := rfl
@[simp] theorem setBnR_rsa (v : Nat) (s : State) : (setBnR v s).rsa = s.rsa := rfl
@[simp] theorem setBnR_ecD (v : Nat) (s : State) : (setBnR v s).ecD = s.ecD := rfl
@[simp] theorem setBnR_ecK (v : Nat) (s : State) : (setBnR v s).ecK = s.ecK := rfl
@[simp] theorem setBnR_pP (v : Nat) (s : State) : (setBnR v s).pP = s.pP := rfl
@[simp] theorem setBnR_pQ (v : Nat) (s : State) : (setBnR v s).pQ = s.pQ := rfl
@[simp] theorem setBnR_pR (v : Nat) (s : State) : (setBnR v s).pR = s.pR := rfl
@[simp] theorem setBnR_mem (v : Nat) (s : State) : (setBnR v s).mem = s.mem := rfl
@[simp] theorem setBnR_hmI (v : Nat) (s : State) : (setBnR v s).hmI = s.hmI := rfl
@[simp] theorem setBnR_hmO (v : Nat) (s : State) : (setBnR v s).hmO = s.hmO := rfl
@[simp] theorem setBnR_hmAlg (v : Nat) (s : State) : (setBnR v s).hmAlg = s.hmAlg := rfl
@[simp] theorem setBnR_inputs (v : Nat) (s : State) : (setBnR v s).inputs = s.inputs := rfl
@[simp] theorem setBnR_busReads (v : Nat) (s : State) : (setBnR v s).busReads = s.busReads := rfl

/-! Writing R. -/

@[simp] theorem setPointR_cmd (p : Point) (s : State) : (setPointR p s).cmd = s.cmd := rfl
@[simp] theorem setPointR_status (p : Point) (s : State) : (setPointR p s).status = s.status := rfl
@[simp] theorem setPointR_err (p : Point) (s : State) : (setPointR p s).err = s.err := rfl
@[simp] theorem setPointR_ie (p : Point) (s : State) : (setPointR p s).ie = s.ie := rfl
@[simp] theorem setPointR_msglen (p : Point) (s : State) : (setPointR p s).msglen = s.msglen := rfl
@[simp] theorem setPointR_keylen (p : Point) (s : State) : (setPointR p s).keylen = s.keylen := rfl
@[simp] theorem setPointR_outlen (p : Point) (s : State) : (setPointR p s).outlen = s.outlen := rfl
@[simp] theorem setPointR_totlen (p : Point) (s : State) : (setPointR p s).totlen = s.totlen := rfl
@[simp] theorem setPointR_stream (p : Point) (s : State) : (setPointR p s).stream = s.stream := rfl
@[simp] theorem setPointR_curve (p : Point) (s : State) : (setPointR p s).curve = s.curve := rfl
@[simp] theorem setPointR_nbits (p : Point) (s : State) : (setPointR p s).nbits = s.nbits := rfl
@[simp] theorem setPointR_hst (p : Point) (s : State) : (setPointR p s).hst = s.hst := rfl
@[simp] theorem setPointR_iv (p : Point) (s : State) : (setPointR p s).iv = s.iv := rfl
@[simp] theorem setPointR_bnA (p : Point) (s : State) : (setPointR p s).bnA = s.bnA := rfl
@[simp] theorem setPointR_bnE (p : Point) (s : State) : (setPointR p s).bnE = s.bnE := rfl
@[simp] theorem setPointR_bnM (p : Point) (s : State) : (setPointR p s).bnM = s.bnM := rfl
@[simp] theorem setPointR_bnR (p : Point) (s : State) : (setPointR p s).bnR = s.bnR := rfl
@[simp] theorem setPointR_rsa (p : Point) (s : State) : (setPointR p s).rsa = s.rsa := rfl
@[simp] theorem setPointR_ecD (p : Point) (s : State) : (setPointR p s).ecD = s.ecD := rfl
@[simp] theorem setPointR_ecK (p : Point) (s : State) : (setPointR p s).ecK = s.ecK := rfl
@[simp] theorem setPointR_pP (p : Point) (s : State) : (setPointR p s).pP = s.pP := rfl
@[simp] theorem setPointR_pQ (p : Point) (s : State) : (setPointR p s).pQ = s.pQ := rfl
@[simp] theorem setPointR_pR (p : Point) (s : State) : (setPointR p s).pR = p := rfl
@[simp] theorem setPointR_mem (p : Point) (s : State) : (setPointR p s).mem = s.mem := rfl
@[simp] theorem setPointR_hmI (p : Point) (s : State) : (setPointR p s).hmI = s.hmI := rfl
@[simp] theorem setPointR_hmO (p : Point) (s : State) : (setPointR p s).hmO = s.hmO := rfl
@[simp] theorem setPointR_hmAlg (p : Point) (s : State) : (setPointR p s).hmAlg = s.hmAlg := rfl
@[simp] theorem setPointR_inputs (p : Point) (s : State) : (setPointR p s).inputs = s.inputs := rfl
@[simp] theorem setPointR_busReads (p : Point) (s : State) : (setPointR p s).busReads = s.busReads := rfl

/-! Writing P. -/

@[simp] theorem setPointP_cmd (p : Point) (s : State) : (setPointP p s).cmd = s.cmd := rfl
@[simp] theorem setPointP_status (p : Point) (s : State) : (setPointP p s).status = s.status := rfl
@[simp] theorem setPointP_err (p : Point) (s : State) : (setPointP p s).err = s.err := rfl
@[simp] theorem setPointP_ie (p : Point) (s : State) : (setPointP p s).ie = s.ie := rfl
@[simp] theorem setPointP_msglen (p : Point) (s : State) : (setPointP p s).msglen = s.msglen := rfl
@[simp] theorem setPointP_keylen (p : Point) (s : State) : (setPointP p s).keylen = s.keylen := rfl
@[simp] theorem setPointP_outlen (p : Point) (s : State) : (setPointP p s).outlen = s.outlen := rfl
@[simp] theorem setPointP_totlen (p : Point) (s : State) : (setPointP p s).totlen = s.totlen := rfl
@[simp] theorem setPointP_stream (p : Point) (s : State) : (setPointP p s).stream = s.stream := rfl
@[simp] theorem setPointP_curve (p : Point) (s : State) : (setPointP p s).curve = s.curve := rfl
@[simp] theorem setPointP_nbits (p : Point) (s : State) : (setPointP p s).nbits = s.nbits := rfl
@[simp] theorem setPointP_hst (p : Point) (s : State) : (setPointP p s).hst = s.hst := rfl
@[simp] theorem setPointP_iv (p : Point) (s : State) : (setPointP p s).iv = s.iv := rfl
@[simp] theorem setPointP_bnA (p : Point) (s : State) : (setPointP p s).bnA = s.bnA := rfl
@[simp] theorem setPointP_bnE (p : Point) (s : State) : (setPointP p s).bnE = s.bnE := rfl
@[simp] theorem setPointP_bnM (p : Point) (s : State) : (setPointP p s).bnM = s.bnM := rfl
@[simp] theorem setPointP_bnR (p : Point) (s : State) : (setPointP p s).bnR = s.bnR := rfl
@[simp] theorem setPointP_rsa (p : Point) (s : State) : (setPointP p s).rsa = s.rsa := rfl
@[simp] theorem setPointP_ecD (p : Point) (s : State) : (setPointP p s).ecD = s.ecD := rfl
@[simp] theorem setPointP_ecK (p : Point) (s : State) : (setPointP p s).ecK = s.ecK := rfl
@[simp] theorem setPointP_pP (p : Point) (s : State) : (setPointP p s).pP = p := rfl
@[simp] theorem setPointP_pQ (p : Point) (s : State) : (setPointP p s).pQ = s.pQ := rfl
@[simp] theorem setPointP_pR (p : Point) (s : State) : (setPointP p s).pR = s.pR := rfl
@[simp] theorem setPointP_mem (p : Point) (s : State) : (setPointP p s).mem = s.mem := rfl
@[simp] theorem setPointP_hmI (p : Point) (s : State) : (setPointP p s).hmI = s.hmI := rfl
@[simp] theorem setPointP_hmO (p : Point) (s : State) : (setPointP p s).hmO = s.hmO := rfl
@[simp] theorem setPointP_hmAlg (p : Point) (s : State) : (setPointP p s).hmAlg = s.hmAlg := rfl
@[simp] theorem setPointP_inputs (p : Point) (s : State) : (setPointP p s).inputs = s.inputs := rfl
@[simp] theorem setPointP_busReads (p : Point) (s : State) : (setPointP p s).busReads = s.busReads := rfl

/-! Closing the stream. -/

@[simp] theorem closeStream_cmd (s : State) : (closeStream s).cmd = s.cmd := rfl
@[simp] theorem closeStream_status (s : State) : (closeStream s).status = s.status := rfl
@[simp] theorem closeStream_err (s : State) : (closeStream s).err = s.err := rfl
@[simp] theorem closeStream_ie (s : State) : (closeStream s).ie = s.ie := rfl
@[simp] theorem closeStream_msglen (s : State) : (closeStream s).msglen = s.msglen := rfl
@[simp] theorem closeStream_keylen (s : State) : (closeStream s).keylen = s.keylen := rfl
@[simp] theorem closeStream_outlen (s : State) : (closeStream s).outlen = s.outlen := rfl
@[simp] theorem closeStream_totlen (s : State) : (closeStream s).totlen = 0 := rfl
@[simp] theorem closeStream_stream (s : State) : (closeStream s).stream = .closed := rfl
@[simp] theorem closeStream_curve (s : State) : (closeStream s).curve = s.curve := rfl
@[simp] theorem closeStream_nbits (s : State) : (closeStream s).nbits = s.nbits := rfl
@[simp] theorem closeStream_hst (s : State) : (closeStream s).hst = zeroWords := rfl
@[simp] theorem closeStream_iv (s : State) : (closeStream s).iv = s.iv := rfl
@[simp] theorem closeStream_bnA (s : State) : (closeStream s).bnA = s.bnA := rfl
@[simp] theorem closeStream_bnE (s : State) : (closeStream s).bnE = s.bnE := rfl
@[simp] theorem closeStream_bnM (s : State) : (closeStream s).bnM = s.bnM := rfl
@[simp] theorem closeStream_bnR (s : State) : (closeStream s).bnR = s.bnR := rfl
@[simp] theorem closeStream_rsa (s : State) : (closeStream s).rsa = s.rsa := rfl
@[simp] theorem closeStream_ecD (s : State) : (closeStream s).ecD = s.ecD := rfl
@[simp] theorem closeStream_ecK (s : State) : (closeStream s).ecK = s.ecK := rfl
@[simp] theorem closeStream_pP (s : State) : (closeStream s).pP = s.pP := rfl
@[simp] theorem closeStream_pQ (s : State) : (closeStream s).pQ = s.pQ := rfl
@[simp] theorem closeStream_pR (s : State) : (closeStream s).pR = s.pR := rfl
@[simp] theorem closeStream_mem (s : State) : (closeStream s).mem = s.mem := rfl
@[simp] theorem closeStream_hmI (s : State) : (closeStream s).hmI = s.hmI := rfl
@[simp] theorem closeStream_hmO (s : State) : (closeStream s).hmO = s.hmO := rfl
@[simp] theorem closeStream_hmAlg (s : State) : (closeStream s).hmAlg = s.hmAlg := rfl
@[simp] theorem closeStream_inputs (s : State) : (closeStream s).inputs = s.inputs := rfl
@[simp] theorem closeStream_busReads (s : State) : (closeStream s).busReads = s.busReads := rfl

/-! Accepting a command. -/

@[simp] theorem acceptCommand_cmd (v : Word) (s : State) : (acceptCommand v s).cmd = v := rfl
@[simp] theorem acceptCommand_status (v : Word) (s : State) : (acceptCommand v s).status = { s.status with busy := true, done := false, err := false } := rfl
@[simp] theorem acceptCommand_err (v : Word) (s : State) : (acceptCommand v s).err = 0 := rfl
@[simp] theorem acceptCommand_ie (v : Word) (s : State) : (acceptCommand v s).ie = s.ie := rfl
@[simp] theorem acceptCommand_msglen (v : Word) (s : State) : (acceptCommand v s).msglen = s.msglen := rfl
@[simp] theorem acceptCommand_keylen (v : Word) (s : State) : (acceptCommand v s).keylen = s.keylen := rfl
@[simp] theorem acceptCommand_outlen (v : Word) (s : State) : (acceptCommand v s).outlen = s.outlen := rfl
@[simp] theorem acceptCommand_totlen (v : Word) (s : State) : (acceptCommand v s).totlen = s.totlen := rfl
@[simp] theorem acceptCommand_stream (v : Word) (s : State) : (acceptCommand v s).stream = s.stream := rfl
@[simp] theorem acceptCommand_curve (v : Word) (s : State) : (acceptCommand v s).curve = s.curve := rfl
@[simp] theorem acceptCommand_nbits (v : Word) (s : State) : (acceptCommand v s).nbits = s.nbits := rfl
@[simp] theorem acceptCommand_hst (v : Word) (s : State) : (acceptCommand v s).hst = s.hst := rfl
@[simp] theorem acceptCommand_iv (v : Word) (s : State) : (acceptCommand v s).iv = s.iv := rfl
@[simp] theorem acceptCommand_bnA (v : Word) (s : State) : (acceptCommand v s).bnA = s.bnA := rfl
@[simp] theorem acceptCommand_bnE (v : Word) (s : State) : (acceptCommand v s).bnE = s.bnE := rfl
@[simp] theorem acceptCommand_bnM (v : Word) (s : State) : (acceptCommand v s).bnM = s.bnM := rfl
@[simp] theorem acceptCommand_bnR (v : Word) (s : State) : (acceptCommand v s).bnR = s.bnR := rfl
@[simp] theorem acceptCommand_rsa (v : Word) (s : State) : (acceptCommand v s).rsa = s.rsa := rfl
@[simp] theorem acceptCommand_ecD (v : Word) (s : State) : (acceptCommand v s).ecD = s.ecD := rfl
@[simp] theorem acceptCommand_ecK (v : Word) (s : State) : (acceptCommand v s).ecK = s.ecK := rfl
@[simp] theorem acceptCommand_pP (v : Word) (s : State) : (acceptCommand v s).pP = s.pP := rfl
@[simp] theorem acceptCommand_pQ (v : Word) (s : State) : (acceptCommand v s).pQ = s.pQ := rfl
@[simp] theorem acceptCommand_pR (v : Word) (s : State) : (acceptCommand v s).pR = s.pR := rfl
@[simp] theorem acceptCommand_mem (v : Word) (s : State) : (acceptCommand v s).mem = s.mem := rfl
@[simp] theorem acceptCommand_hmI (v : Word) (s : State) : (acceptCommand v s).hmI = s.hmI := rfl
@[simp] theorem acceptCommand_hmO (v : Word) (s : State) : (acceptCommand v s).hmO = s.hmO := rfl
@[simp] theorem acceptCommand_hmAlg (v : Word) (s : State) : (acceptCommand v s).hmAlg = s.hmAlg := rfl
@[simp] theorem acceptCommand_inputs (v : Word) (s : State) : (acceptCommand v s).inputs = s.inputs := rfl
@[simp] theorem acceptCommand_busReads (v : Word) (s : State) : (acceptCommand v s).busReads = s.busReads := rfl

/-! The normal end. -/

@[simp] theorem endNormal_cmd (s : State) : (endNormal s).cmd = s.cmd := rfl
@[simp] theorem endNormal_status (s : State) : (endNormal s).status = { s.status with err := false, done := true, busy := false } := rfl
@[simp] theorem endNormal_err (s : State) : (endNormal s).err = 0 := rfl
@[simp] theorem endNormal_ie (s : State) : (endNormal s).ie = s.ie := rfl
@[simp] theorem endNormal_msglen (s : State) : (endNormal s).msglen = s.msglen := rfl
@[simp] theorem endNormal_keylen (s : State) : (endNormal s).keylen = s.keylen := rfl
@[simp] theorem endNormal_outlen (s : State) : (endNormal s).outlen = s.outlen := rfl
@[simp] theorem endNormal_totlen (s : State) : (endNormal s).totlen = s.totlen := rfl
@[simp] theorem endNormal_stream (s : State) : (endNormal s).stream = s.stream := rfl
@[simp] theorem endNormal_curve (s : State) : (endNormal s).curve = s.curve := rfl
@[simp] theorem endNormal_nbits (s : State) : (endNormal s).nbits = s.nbits := rfl
@[simp] theorem endNormal_hst (s : State) : (endNormal s).hst = s.hst := rfl
@[simp] theorem endNormal_iv (s : State) : (endNormal s).iv = s.iv := rfl
@[simp] theorem endNormal_bnA (s : State) : (endNormal s).bnA = s.bnA := rfl
@[simp] theorem endNormal_bnE (s : State) : (endNormal s).bnE = s.bnE := rfl
@[simp] theorem endNormal_bnM (s : State) : (endNormal s).bnM = s.bnM := rfl
@[simp] theorem endNormal_bnR (s : State) : (endNormal s).bnR = s.bnR := rfl
@[simp] theorem endNormal_rsa (s : State) : (endNormal s).rsa = s.rsa := rfl
@[simp] theorem endNormal_ecD (s : State) : (endNormal s).ecD = s.ecD := rfl
@[simp] theorem endNormal_ecK (s : State) : (endNormal s).ecK = s.ecK := rfl
@[simp] theorem endNormal_pP (s : State) : (endNormal s).pP = s.pP := rfl
@[simp] theorem endNormal_pQ (s : State) : (endNormal s).pQ = s.pQ := rfl
@[simp] theorem endNormal_pR (s : State) : (endNormal s).pR = s.pR := rfl
@[simp] theorem endNormal_mem (s : State) : (endNormal s).mem = s.mem := rfl
@[simp] theorem endNormal_hmI (s : State) : (endNormal s).hmI = s.hmI := rfl
@[simp] theorem endNormal_hmO (s : State) : (endNormal s).hmO = s.hmO := rfl
@[simp] theorem endNormal_hmAlg (s : State) : (endNormal s).hmAlg = s.hmAlg := rfl
@[simp] theorem endNormal_inputs (s : State) : (endNormal s).inputs = s.inputs := rfl
@[simp] theorem endNormal_busReads (s : State) : (endNormal s).busReads = s.busReads := rfl

/-! Acknowledgement. -/

@[simp] theorem acknowledge_cmd (v : Word) (s : State) : (acknowledge v s).cmd = s.cmd := rfl
@[simp] theorem acknowledge_err (v : Word) (s : State) : (acknowledge v s).err = if v.getLsbD 2 then 0 else s.err := rfl
@[simp] theorem acknowledge_ie (v : Word) (s : State) : (acknowledge v s).ie = s.ie := rfl
@[simp] theorem acknowledge_msglen (v : Word) (s : State) : (acknowledge v s).msglen = s.msglen := rfl
@[simp] theorem acknowledge_keylen (v : Word) (s : State) : (acknowledge v s).keylen = s.keylen := rfl
@[simp] theorem acknowledge_outlen (v : Word) (s : State) : (acknowledge v s).outlen = s.outlen := rfl
@[simp] theorem acknowledge_totlen (v : Word) (s : State) : (acknowledge v s).totlen = s.totlen := rfl
@[simp] theorem acknowledge_stream (v : Word) (s : State) : (acknowledge v s).stream = s.stream := rfl
@[simp] theorem acknowledge_curve (v : Word) (s : State) : (acknowledge v s).curve = s.curve := rfl
@[simp] theorem acknowledge_nbits (v : Word) (s : State) : (acknowledge v s).nbits = s.nbits := rfl
@[simp] theorem acknowledge_hst (v : Word) (s : State) : (acknowledge v s).hst = s.hst := rfl
@[simp] theorem acknowledge_iv (v : Word) (s : State) : (acknowledge v s).iv = s.iv := rfl
@[simp] theorem acknowledge_bnA (v : Word) (s : State) : (acknowledge v s).bnA = s.bnA := rfl
@[simp] theorem acknowledge_bnE (v : Word) (s : State) : (acknowledge v s).bnE = s.bnE := rfl
@[simp] theorem acknowledge_bnM (v : Word) (s : State) : (acknowledge v s).bnM = s.bnM := rfl
@[simp] theorem acknowledge_bnR (v : Word) (s : State) : (acknowledge v s).bnR = s.bnR := rfl
@[simp] theorem acknowledge_rsa (v : Word) (s : State) : (acknowledge v s).rsa = s.rsa := rfl
@[simp] theorem acknowledge_ecD (v : Word) (s : State) : (acknowledge v s).ecD = s.ecD := rfl
@[simp] theorem acknowledge_ecK (v : Word) (s : State) : (acknowledge v s).ecK = s.ecK := rfl
@[simp] theorem acknowledge_pP (v : Word) (s : State) : (acknowledge v s).pP = s.pP := rfl
@[simp] theorem acknowledge_pQ (v : Word) (s : State) : (acknowledge v s).pQ = s.pQ := rfl
@[simp] theorem acknowledge_pR (v : Word) (s : State) : (acknowledge v s).pR = s.pR := rfl
@[simp] theorem acknowledge_mem (v : Word) (s : State) : (acknowledge v s).mem = s.mem := rfl
@[simp] theorem acknowledge_hmI (v : Word) (s : State) : (acknowledge v s).hmI = s.hmI := rfl
@[simp] theorem acknowledge_hmO (v : Word) (s : State) : (acknowledge v s).hmO = s.hmO := rfl
@[simp] theorem acknowledge_hmAlg (v : Word) (s : State) : (acknowledge v s).hmAlg = s.hmAlg := rfl
@[simp] theorem acknowledge_inputs (v : Word) (s : State) : (acknowledge v s).inputs = s.inputs := rfl
@[simp] theorem acknowledge_busReads (v : Word) (s : State) : (acknowledge v s).busReads = s.busReads := rfl

/-! A dropped write. -/

@[simp] theorem dropWrite_cmd (s : State) : (dropWrite s).cmd = s.cmd := rfl
@[simp] theorem dropWrite_status (s : State) : (dropWrite s).status = { s.status with wrbusy := true } := rfl
@[simp] theorem dropWrite_err (s : State) : (dropWrite s).err = s.err := rfl
@[simp] theorem dropWrite_ie (s : State) : (dropWrite s).ie = s.ie := rfl
@[simp] theorem dropWrite_msglen (s : State) : (dropWrite s).msglen = s.msglen := rfl
@[simp] theorem dropWrite_keylen (s : State) : (dropWrite s).keylen = s.keylen := rfl
@[simp] theorem dropWrite_outlen (s : State) : (dropWrite s).outlen = s.outlen := rfl
@[simp] theorem dropWrite_totlen (s : State) : (dropWrite s).totlen = s.totlen := rfl
@[simp] theorem dropWrite_stream (s : State) : (dropWrite s).stream = s.stream := rfl
@[simp] theorem dropWrite_curve (s : State) : (dropWrite s).curve = s.curve := rfl
@[simp] theorem dropWrite_nbits (s : State) : (dropWrite s).nbits = s.nbits := rfl
@[simp] theorem dropWrite_hst (s : State) : (dropWrite s).hst = s.hst := rfl
@[simp] theorem dropWrite_iv (s : State) : (dropWrite s).iv = s.iv := rfl
@[simp] theorem dropWrite_bnA (s : State) : (dropWrite s).bnA = s.bnA := rfl
@[simp] theorem dropWrite_bnE (s : State) : (dropWrite s).bnE = s.bnE := rfl
@[simp] theorem dropWrite_bnM (s : State) : (dropWrite s).bnM = s.bnM := rfl
@[simp] theorem dropWrite_bnR (s : State) : (dropWrite s).bnR = s.bnR := rfl
@[simp] theorem dropWrite_rsa (s : State) : (dropWrite s).rsa = s.rsa := rfl
@[simp] theorem dropWrite_ecD (s : State) : (dropWrite s).ecD = s.ecD := rfl
@[simp] theorem dropWrite_ecK (s : State) : (dropWrite s).ecK = s.ecK := rfl
@[simp] theorem dropWrite_pP (s : State) : (dropWrite s).pP = s.pP := rfl
@[simp] theorem dropWrite_pQ (s : State) : (dropWrite s).pQ = s.pQ := rfl
@[simp] theorem dropWrite_pR (s : State) : (dropWrite s).pR = s.pR := rfl
@[simp] theorem dropWrite_mem (s : State) : (dropWrite s).mem = s.mem := rfl
@[simp] theorem dropWrite_hmI (s : State) : (dropWrite s).hmI = s.hmI := rfl
@[simp] theorem dropWrite_hmO (s : State) : (dropWrite s).hmO = s.hmO := rfl
@[simp] theorem dropWrite_hmAlg (s : State) : (dropWrite s).hmAlg = s.hmAlg := rfl
@[simp] theorem dropWrite_inputs (s : State) : (dropWrite s).inputs = s.inputs := rfl
@[simp] theorem dropWrite_busReads (s : State) : (dropWrite s).busReads = s.busReads := rfl

/-! A write to IE. -/

@[simp] theorem writeIe_cmd (v : Word) (s : State) : (writeIe v s).cmd = s.cmd := rfl
@[simp] theorem writeIe_status (v : Word) (s : State) : (writeIe v s).status = s.status := rfl
@[simp] theorem writeIe_err (v : Word) (s : State) : (writeIe v s).err = s.err := rfl
@[simp] theorem writeIe_ie (v : Word) (s : State) : (writeIe v s).ie = v.setWidth 2 := rfl
@[simp] theorem writeIe_msglen (v : Word) (s : State) : (writeIe v s).msglen = s.msglen := rfl
@[simp] theorem writeIe_keylen (v : Word) (s : State) : (writeIe v s).keylen = s.keylen := rfl
@[simp] theorem writeIe_outlen (v : Word) (s : State) : (writeIe v s).outlen = s.outlen := rfl
@[simp] theorem writeIe_totlen (v : Word) (s : State) : (writeIe v s).totlen = s.totlen := rfl
@[simp] theorem writeIe_stream (v : Word) (s : State) : (writeIe v s).stream = s.stream := rfl
@[simp] theorem writeIe_curve (v : Word) (s : State) : (writeIe v s).curve = s.curve := rfl
@[simp] theorem writeIe_nbits (v : Word) (s : State) : (writeIe v s).nbits = s.nbits := rfl
@[simp] theorem writeIe_hst (v : Word) (s : State) : (writeIe v s).hst = s.hst := rfl
@[simp] theorem writeIe_iv (v : Word) (s : State) : (writeIe v s).iv = s.iv := rfl
@[simp] theorem writeIe_bnA (v : Word) (s : State) : (writeIe v s).bnA = s.bnA := rfl
@[simp] theorem writeIe_bnE (v : Word) (s : State) : (writeIe v s).bnE = s.bnE := rfl
@[simp] theorem writeIe_bnM (v : Word) (s : State) : (writeIe v s).bnM = s.bnM := rfl
@[simp] theorem writeIe_bnR (v : Word) (s : State) : (writeIe v s).bnR = s.bnR := rfl
@[simp] theorem writeIe_rsa (v : Word) (s : State) : (writeIe v s).rsa = s.rsa := rfl
@[simp] theorem writeIe_ecD (v : Word) (s : State) : (writeIe v s).ecD = s.ecD := rfl
@[simp] theorem writeIe_ecK (v : Word) (s : State) : (writeIe v s).ecK = s.ecK := rfl
@[simp] theorem writeIe_pP (v : Word) (s : State) : (writeIe v s).pP = s.pP := rfl
@[simp] theorem writeIe_pQ (v : Word) (s : State) : (writeIe v s).pQ = s.pQ := rfl
@[simp] theorem writeIe_pR (v : Word) (s : State) : (writeIe v s).pR = s.pR := rfl
@[simp] theorem writeIe_mem (v : Word) (s : State) : (writeIe v s).mem = s.mem := rfl
@[simp] theorem writeIe_hmI (v : Word) (s : State) : (writeIe v s).hmI = s.hmI := rfl
@[simp] theorem writeIe_hmO (v : Word) (s : State) : (writeIe v s).hmO = s.hmO := rfl
@[simp] theorem writeIe_hmAlg (v : Word) (s : State) : (writeIe v s).hmAlg = s.hmAlg := rfl
@[simp] theorem writeIe_inputs (v : Word) (s : State) : (writeIe v s).inputs = s.inputs := rfl
@[simp] theorem writeIe_busReads (v : Word) (s : State) : (writeIe v s).busReads = s.busReads := rfl

/-! ZEROIZE. -/

@[simp] theorem zeroizeData_cmd (s : State) : (zeroizeData s).cmd = s.cmd := rfl
@[simp] theorem zeroizeData_status (s : State) : (zeroizeData s).status = s.status := rfl
@[simp] theorem zeroizeData_err (s : State) : (zeroizeData s).err = s.err := rfl
@[simp] theorem zeroizeData_ie (s : State) : (zeroizeData s).ie = s.ie := rfl
@[simp] theorem zeroizeData_msglen (s : State) : (zeroizeData s).msglen = 0 := rfl
@[simp] theorem zeroizeData_keylen (s : State) : (zeroizeData s).keylen = 0 := rfl
@[simp] theorem zeroizeData_outlen (s : State) : (zeroizeData s).outlen = 0 := rfl
@[simp] theorem zeroizeData_totlen (s : State) : (zeroizeData s).totlen = 0 := rfl
@[simp] theorem zeroizeData_stream (s : State) : (zeroizeData s).stream = .closed := rfl
@[simp] theorem zeroizeData_curve (s : State) : (zeroizeData s).curve = 0 := rfl
@[simp] theorem zeroizeData_nbits (s : State) : (zeroizeData s).nbits = 0 := rfl
@[simp] theorem zeroizeData_hst (s : State) : (zeroizeData s).hst = zeroWords := rfl
@[simp] theorem zeroizeData_iv (s : State) : (zeroizeData s).iv = 0 := rfl
@[simp] theorem zeroizeData_bnA (s : State) : (zeroizeData s).bnA = 0 := rfl
@[simp] theorem zeroizeData_bnE (s : State) : (zeroizeData s).bnE = 0 := rfl
@[simp] theorem zeroizeData_bnM (s : State) : (zeroizeData s).bnM = 0 := rfl
@[simp] theorem zeroizeData_bnR (s : State) : (zeroizeData s).bnR = 0 := rfl
@[simp] theorem zeroizeData_rsa (s : State) : (zeroizeData s).rsa = zeroRsaKey := rfl
@[simp] theorem zeroizeData_ecD (s : State) : (zeroizeData s).ecD = 0 := rfl
@[simp] theorem zeroizeData_ecK (s : State) : (zeroizeData s).ecK = 0 := rfl
@[simp] theorem zeroizeData_pP (s : State) : (zeroizeData s).pP = zeroPoint := rfl
@[simp] theorem zeroizeData_pQ (s : State) : (zeroizeData s).pQ = zeroPoint := rfl
@[simp] theorem zeroizeData_pR (s : State) : (zeroizeData s).pR = zeroPoint := rfl
@[simp] theorem zeroizeData_mem (s : State) : (zeroizeData s).mem = [] := rfl
@[simp] theorem zeroizeData_hmI (s : State) : (zeroizeData s).hmI = zeroWords := rfl
@[simp] theorem zeroizeData_hmO (s : State) : (zeroizeData s).hmO = zeroWords := rfl
@[simp] theorem zeroizeData_hmAlg (s : State) : (zeroizeData s).hmAlg = none := rfl
@[simp] theorem zeroizeData_inputs (s : State) : (zeroizeData s).inputs = s.inputs := rfl
@[simp] theorem zeroizeData_busReads (s : State) : (zeroizeData s).busReads = s.busReads := rfl

/-! The reset event. -/

@[simp] theorem platformReset_cmd (s : State) : (platformReset s).cmd = 0 := rfl
@[simp] theorem platformReset_status (s : State) : (platformReset s).status = ⟨false, false, false, false, false⟩ := rfl
@[simp] theorem platformReset_err (s : State) : (platformReset s).err = 0 := rfl
@[simp] theorem platformReset_ie (s : State) : (platformReset s).ie = 0 := rfl
@[simp] theorem platformReset_msglen (s : State) : (platformReset s).msglen = 0 := rfl
@[simp] theorem platformReset_keylen (s : State) : (platformReset s).keylen = 0 := rfl
@[simp] theorem platformReset_outlen (s : State) : (platformReset s).outlen = 0 := rfl
@[simp] theorem platformReset_totlen (s : State) : (platformReset s).totlen = 0 := rfl
@[simp] theorem platformReset_stream (s : State) : (platformReset s).stream = .closed := rfl
@[simp] theorem platformReset_curve (s : State) : (platformReset s).curve = 0 := rfl
@[simp] theorem platformReset_nbits (s : State) : (platformReset s).nbits = 0 := rfl
@[simp] theorem platformReset_hst (s : State) : (platformReset s).hst = zeroWords := rfl
@[simp] theorem platformReset_iv (s : State) : (platformReset s).iv = 0 := rfl
@[simp] theorem platformReset_bnA (s : State) : (platformReset s).bnA = 0 := rfl
@[simp] theorem platformReset_bnE (s : State) : (platformReset s).bnE = 0 := rfl
@[simp] theorem platformReset_bnM (s : State) : (platformReset s).bnM = 0 := rfl
@[simp] theorem platformReset_bnR (s : State) : (platformReset s).bnR = 0 := rfl
@[simp] theorem platformReset_rsa (s : State) : (platformReset s).rsa = zeroRsaKey := rfl
@[simp] theorem platformReset_ecD (s : State) : (platformReset s).ecD = 0 := rfl
@[simp] theorem platformReset_ecK (s : State) : (platformReset s).ecK = 0 := rfl
@[simp] theorem platformReset_pP (s : State) : (platformReset s).pP = zeroPoint := rfl
@[simp] theorem platformReset_pQ (s : State) : (platformReset s).pQ = zeroPoint := rfl
@[simp] theorem platformReset_pR (s : State) : (platformReset s).pR = zeroPoint := rfl
@[simp] theorem platformReset_mem (s : State) : (platformReset s).mem = [] := rfl
@[simp] theorem platformReset_hmI (s : State) : (platformReset s).hmI = zeroWords := rfl
@[simp] theorem platformReset_hmO (s : State) : (platformReset s).hmO = zeroWords := rfl
@[simp] theorem platformReset_hmAlg (s : State) : (platformReset s).hmAlg = none := rfl
@[simp] theorem platformReset_inputs (s : State) : (platformReset s).inputs = s.inputs := rfl
@[simp] theorem platformReset_busReads (s : State) : (platformReset s).busReads = s.busReads := rfl

/-! The flags after an acknowledgement. -/

@[simp] theorem acknowledge_busy (v : Word) (s : State) : (acknowledge v s).status.busy = s.status.busy := rfl
@[simp] theorem acknowledge_done_flag (v : Word) (s : State) :
    (acknowledge v s).status.done = (s.status.done && !v.getLsbD 1) := rfl
@[simp] theorem acknowledge_err_flag (v : Word) (s : State) :
    (acknowledge v s).status.err = (s.status.err && !v.getLsbD 2) := rfl
@[simp] theorem acknowledge_esticky_flag (v : Word) (s : State) :
    (acknowledge v s).status.esticky = (s.status.esticky && !v.getLsbD 3) := rfl
@[simp] theorem acknowledge_wrbusy_flag (v : Word) (s : State) :
    (acknowledge v s).status.wrbusy = (s.status.wrbusy && !v.getLsbD 4) := rfl

/-! Zeroing result locations, and taking a fault. -/

@[simp] theorem clearResults_cmd (l : ResultLocs) (s : State) : (clearResults l s).cmd = s.cmd := by cases l <;> rfl
@[simp] theorem clearResults_status (l : ResultLocs) (s : State) : (clearResults l s).status = s.status := by cases l <;> rfl
@[simp] theorem clearResults_err (l : ResultLocs) (s : State) : (clearResults l s).err = s.err := by cases l <;> rfl
@[simp] theorem clearResults_ie (l : ResultLocs) (s : State) : (clearResults l s).ie = s.ie := by cases l <;> rfl
@[simp] theorem clearResults_msglen (l : ResultLocs) (s : State) : (clearResults l s).msglen = s.msglen := by cases l <;> rfl
@[simp] theorem clearResults_keylen (l : ResultLocs) (s : State) : (clearResults l s).keylen = s.keylen := by cases l <;> rfl
@[simp] theorem clearResults_totlen (l : ResultLocs) (s : State) : (clearResults l s).totlen = s.totlen := by cases l <;> rfl
@[simp] theorem clearResults_stream (l : ResultLocs) (s : State) : (clearResults l s).stream = s.stream := by cases l <;> rfl
@[simp] theorem clearResults_curve (l : ResultLocs) (s : State) : (clearResults l s).curve = s.curve := by cases l <;> rfl
@[simp] theorem clearResults_nbits (l : ResultLocs) (s : State) : (clearResults l s).nbits = s.nbits := by cases l <;> rfl
@[simp] theorem clearResults_hst (l : ResultLocs) (s : State) : (clearResults l s).hst = s.hst := by cases l <;> rfl
@[simp] theorem clearResults_iv (l : ResultLocs) (s : State) : (clearResults l s).iv = s.iv := by cases l <;> rfl
@[simp] theorem clearResults_bnA (l : ResultLocs) (s : State) : (clearResults l s).bnA = s.bnA := by cases l <;> rfl
@[simp] theorem clearResults_bnE (l : ResultLocs) (s : State) : (clearResults l s).bnE = s.bnE := by cases l <;> rfl
@[simp] theorem clearResults_bnM (l : ResultLocs) (s : State) : (clearResults l s).bnM = s.bnM := by cases l <;> rfl
@[simp] theorem clearResults_rsa (l : ResultLocs) (s : State) : (clearResults l s).rsa = s.rsa := by cases l <;> rfl
@[simp] theorem clearResults_ecD (l : ResultLocs) (s : State) : (clearResults l s).ecD = s.ecD := by cases l <;> rfl
@[simp] theorem clearResults_ecK (l : ResultLocs) (s : State) : (clearResults l s).ecK = s.ecK := by cases l <;> rfl
@[simp] theorem clearResults_pP (l : ResultLocs) (s : State) : (clearResults l s).pP = s.pP := by cases l <;> rfl
@[simp] theorem clearResults_pQ (l : ResultLocs) (s : State) : (clearResults l s).pQ = s.pQ := by cases l <;> rfl
@[simp] theorem clearResults_hmI (l : ResultLocs) (s : State) : (clearResults l s).hmI = s.hmI := by cases l <;> rfl
@[simp] theorem clearResults_hmO (l : ResultLocs) (s : State) : (clearResults l s).hmO = s.hmO := by cases l <;> rfl
@[simp] theorem clearResults_hmAlg (l : ResultLocs) (s : State) : (clearResults l s).hmAlg = s.hmAlg := by cases l <;> rfl
@[simp] theorem clearResults_inputs (l : ResultLocs) (s : State) : (clearResults l s).inputs = s.inputs := by cases l <;> rfl
@[simp] theorem clearResults_busReads (l : ResultLocs) (s : State) : (clearResults l s).busReads = s.busReads := by cases l <;> rfl
@[simp] theorem clearResults_none_mem (s : State) : (clearResults .none s).mem = s.mem := rfl
@[simp] theorem clearResults_out_mem (s : State) : (clearResults .out s).mem = Memory.clear s.mem outBase Config.msgCap := rfl
@[simp] theorem clearResults_bnR_mem (s : State) : (clearResults .bnR s).mem = s.mem := rfl
@[simp] theorem clearResults_pointR_mem (s : State) : (clearResults .pointR s).mem = s.mem := rfl
@[simp] theorem clearResults_none_outlen (s : State) : (clearResults .none s).outlen = s.outlen := rfl
@[simp] theorem clearResults_out_outlen (s : State) : (clearResults .out s).outlen = 0 := rfl
@[simp] theorem clearResults_bnR_outlen (s : State) : (clearResults .bnR s).outlen = s.outlen := rfl
@[simp] theorem clearResults_pointR_outlen (s : State) : (clearResults .pointR s).outlen = s.outlen := rfl
@[simp] theorem clearResults_none_bnR (s : State) : (clearResults .none s).bnR = s.bnR := rfl
@[simp] theorem clearResults_out_bnR (s : State) : (clearResults .out s).bnR = s.bnR := rfl
@[simp] theorem clearResults_bnR_bnR (s : State) : (clearResults .bnR s).bnR = 0 := rfl
@[simp] theorem clearResults_pointR_bnR (s : State) : (clearResults .pointR s).bnR = s.bnR := rfl
@[simp] theorem clearResults_none_pR (s : State) : (clearResults .none s).pR = s.pR := rfl
@[simp] theorem clearResults_out_pR (s : State) : (clearResults .out s).pR = s.pR := rfl
@[simp] theorem clearResults_bnR_pR (s : State) : (clearResults .bnR s).pR = s.pR := rfl
@[simp] theorem clearResults_pointR_pR (s : State) : (clearResults .pointR s).pR = zeroPoint := rfl

@[simp] theorem raiseFault_cmd (c : FaultCode) (l : ResultLocs) (s : State) : (raiseFault c l s).cmd = s.cmd := by cases l <;> rfl
@[simp] theorem raiseFault_status (c : FaultCode) (l : ResultLocs) (s : State) :
    (raiseFault c l s).status = { s.status with err := true, esticky := true, done := true, busy := false } := rfl
@[simp] theorem raiseFault_err (c : FaultCode) (l : ResultLocs) (s : State) : (raiseFault c l s).err = faultCode c := rfl
@[simp] theorem raiseFault_ie (c : FaultCode) (l : ResultLocs) (s : State) : (raiseFault c l s).ie = s.ie := by cases l <;> rfl
@[simp] theorem raiseFault_msglen (c : FaultCode) (l : ResultLocs) (s : State) : (raiseFault c l s).msglen = s.msglen := by cases l <;> rfl
@[simp] theorem raiseFault_keylen (c : FaultCode) (l : ResultLocs) (s : State) : (raiseFault c l s).keylen = s.keylen := by cases l <;> rfl
@[simp] theorem raiseFault_outlen (c : FaultCode) (l : ResultLocs) (s : State) : (raiseFault c l s).outlen = (clearResults l s).outlen := rfl
@[simp] theorem raiseFault_totlen (c : FaultCode) (l : ResultLocs) (s : State) : (raiseFault c l s).totlen = s.totlen := by cases l <;> rfl
@[simp] theorem raiseFault_stream (c : FaultCode) (l : ResultLocs) (s : State) : (raiseFault c l s).stream = s.stream := by cases l <;> rfl
@[simp] theorem raiseFault_curve (c : FaultCode) (l : ResultLocs) (s : State) : (raiseFault c l s).curve = s.curve := by cases l <;> rfl
@[simp] theorem raiseFault_nbits (c : FaultCode) (l : ResultLocs) (s : State) : (raiseFault c l s).nbits = s.nbits := by cases l <;> rfl
@[simp] theorem raiseFault_hst (c : FaultCode) (l : ResultLocs) (s : State) : (raiseFault c l s).hst = s.hst := by cases l <;> rfl
@[simp] theorem raiseFault_iv (c : FaultCode) (l : ResultLocs) (s : State) : (raiseFault c l s).iv = s.iv := by cases l <;> rfl
@[simp] theorem raiseFault_bnA (c : FaultCode) (l : ResultLocs) (s : State) : (raiseFault c l s).bnA = s.bnA := by cases l <;> rfl
@[simp] theorem raiseFault_bnE (c : FaultCode) (l : ResultLocs) (s : State) : (raiseFault c l s).bnE = s.bnE := by cases l <;> rfl
@[simp] theorem raiseFault_bnM (c : FaultCode) (l : ResultLocs) (s : State) : (raiseFault c l s).bnM = s.bnM := by cases l <;> rfl
@[simp] theorem raiseFault_bnR (c : FaultCode) (l : ResultLocs) (s : State) : (raiseFault c l s).bnR = (clearResults l s).bnR := rfl
@[simp] theorem raiseFault_rsa (c : FaultCode) (l : ResultLocs) (s : State) : (raiseFault c l s).rsa = s.rsa := by cases l <;> rfl
@[simp] theorem raiseFault_ecD (c : FaultCode) (l : ResultLocs) (s : State) : (raiseFault c l s).ecD = s.ecD := by cases l <;> rfl
@[simp] theorem raiseFault_ecK (c : FaultCode) (l : ResultLocs) (s : State) : (raiseFault c l s).ecK = s.ecK := by cases l <;> rfl
@[simp] theorem raiseFault_pP (c : FaultCode) (l : ResultLocs) (s : State) : (raiseFault c l s).pP = s.pP := by cases l <;> rfl
@[simp] theorem raiseFault_pQ (c : FaultCode) (l : ResultLocs) (s : State) : (raiseFault c l s).pQ = s.pQ := by cases l <;> rfl
@[simp] theorem raiseFault_pR (c : FaultCode) (l : ResultLocs) (s : State) : (raiseFault c l s).pR = (clearResults l s).pR := rfl
@[simp] theorem raiseFault_mem (c : FaultCode) (l : ResultLocs) (s : State) : (raiseFault c l s).mem = (clearResults l s).mem := rfl
@[simp] theorem raiseFault_hmI (c : FaultCode) (l : ResultLocs) (s : State) : (raiseFault c l s).hmI = s.hmI := by cases l <;> rfl
@[simp] theorem raiseFault_hmO (c : FaultCode) (l : ResultLocs) (s : State) : (raiseFault c l s).hmO = s.hmO := by cases l <;> rfl
@[simp] theorem raiseFault_hmAlg (c : FaultCode) (l : ResultLocs) (s : State) : (raiseFault c l s).hmAlg = s.hmAlg := by cases l <;> rfl
@[simp] theorem raiseFault_inputs (c : FaultCode) (l : ResultLocs) (s : State) : (raiseFault c l s).inputs = s.inputs := by cases l <;> rfl
@[simp] theorem raiseFault_busReads (c : FaultCode) (l : ResultLocs) (s : State) : (raiseFault c l s).busReads = s.busReads := by cases l <;> rfl

end Sys2Proof.Machine
end

