-- ==== Sys2Proof/Machine/Script.lean ====
section
/-! DEFINITION. The host's notation: command names (30_encoding.md R120), pseudo-commands (R121) and host programs (R122),
as the lists of bus events they stand for. -/

namespace Sys2Proof.Machine

/-- The suffix of an ALG field; none for a selector without a name (30_encoding.md R120). -/
def algSuffix (alg : BitVec 4) : String :=
  match alg.toNat with
  | 1 => ".SHA1"
  | 2 => ".SHA256"
  | 3 => ".SHA384"
  | 4 => ".SHA512"
  | _ => ""

/-- A modifier's suffix. -/
def modSuffix (on : Bool) (name : String) : String := if on then name else ""

/-- A command as 30_encoding.md R120 writes it. -/
def asmName : Instr → String
  | .nop => "NOP"
  | .zeroize => "ZEROIZE"
  | .hinit alg => "HINIT" ++ algSuffix alg
  | .hupdate => "HUPDATE"
  | .hfinal => "HFINAL"
  | .hcomp alg => "HCOMP" ++ algSuffix alg
  | .hash alg => "HASH" ++ algSuffix alg
  | .hmkey alg => "HMKEY" ++ algSuffix alg
  | .hminit => "HMINIT"
  | .hmfinal => "HMFINAL"
  | .hmac alg => "HMAC" ++ algSuffix alg
  | .tdesd k2 fin => "TDESD" ++ modSuffix k2 ".K2" ++ modSuffix fin ".FINAL"
  | .rc2d e128 fin => "RC2D" ++ modSuffix e128 ".E128" ++ modSuffix fin ".FINAL"
  | .modexp => "MODEXP"
  | .modinv => "MODINV"
  | .modcrt => "MODCRT"
  | .ecdbl => "ECDBL"
  | .ecadd => "ECADD"
  | .ecmul => "ECMUL"
  | .ecaff => "ECAFF"
  | .ecldg => "ECLDG"
  | .rsasign alg dg => "RSASIGN" ++ algSuffix alg ++ modSuffix dg ".DG"
  | .ecsign alg dg => "ECSIGN" ++ algSuffix alg ++ modSuffix dg ".DG"

/-- The lines of a host program, register names as window offsets (30_encoding.md R122). Control flow is the host's.
`wait` names how many polls of STATUS come before the core's step; the last poll comes after it. -/
inductive HostLine where
  | wr (off : Nat) (v : Word)
  | wrbuf (off : Nat) (bytes : List Byte)
  | wrnat (off nbytes v : Nat)
  | cmd (i : Instr)
  | wait (early : Nat)
  | rd (off : Nat)
  | rdbuf (off n : Nat)
  deriving DecidableEq, Repr

/-- The pseudo-commands of 30_encoding.md R121. `n1` to `n3` are the polls each `wait` of HMACCTX makes before the core's
step, as in `HostLine.wait`. -/
inductive Pseudo where
  | sha1
  | sha256
  | sha384
  | sha512
  | tdesd3 (fin : Bool)
  | tdesd2 (fin : Bool)
  | rc2d40 (fin : Bool)
  | rc2d128 (fin : Bool)
  | hmacctx (alg : BitVec 4) (n1 n2 n3 : Nat)
  deriving DecidableEq, Repr

/-- The lines a pseudo-command stands for: a synonym is one command, HMACCTX three commands, each followed by `wait`
(30_encoding.md R121). -/
def expandPseudo : Pseudo → List HostLine
  | .sha1 => [.cmd (.hash 1)]
  | .sha256 => [.cmd (.hash 2)]
  | .sha384 => [.cmd (.hash 3)]
  | .sha512 => [.cmd (.hash 4)]
  | .tdesd3 fin => [.cmd (.tdesd false fin)]
  | .tdesd2 fin => [.cmd (.tdesd true fin)]
  | .rc2d40 fin => [.cmd (.rc2d false fin)]
  | .rc2d128 fin => [.cmd (.rc2d true fin)]
  | .hmacctx alg n1 n2 n3 => [.cmd (.hmkey alg), .wait n1, .cmd .hminit, .wait n2, .cmd .hmfinal, .wait n3]

/-- `n` bus writes of a byte string from an offset on, the last word padded with 0x00 bytes (30_encoding.md R122). -/
def writeWords (off : Nat) : Nat → List Byte → List BusEvent
  | 0, _ => []
  | n + 1, bs =>
    .write off 4 (BitVec.ofNat 32 (natBE ((bs.take 4) ++ zeros (4 - (bs.take 4).length)))) :: writeWords (off + 4) n (bs.drop 4)

/-- `n` bus reads from an offset on. -/
def readWords (off : Nat) : Nat → List BusEvent
  | 0 => []
  | n + 1 => .read off 4 :: readWords (off + 4) n

/-- The bus events of a line (30_encoding.md R122). -/
def lineEvents : HostLine → List BusEvent
  | .wr off v => [.write off 4 v]
  | .wrbuf off bytes => writeWords off (ceilDiv bytes.length 4) bytes
  | .wrnat off nbytes v => writeWords off (nbytes / 4) (beBytes nbytes v)
  | .cmd i => [.write 0x10 4 (encode i)]
  | .wait early => List.replicate early (.read 0x14 4) ++ [.core, .read 0x14 4]
  | .rd off => [.read off 4]
  | .rdbuf off n => readWords off (ceilDiv n 4)

/-- The bus events of a host program without control flow (30_encoding.md R122). -/
def scriptEvents (p : List HostLine) : List BusEvent := (p.map lineEvents).flatten

/-- The bus events of a pseudo-command (30_encoding.md R121, R122). -/
def pseudoEvents (p : Pseudo) : List BusEvent := scriptEvents (expandPseudo p)

end Sys2Proof.Machine
end

