-- ==== Sys2Proof/Tests/Slice0.lean ====
section
/-! SUPPORT. The model's own tests: ill-formed commands refused, one word of every command written out from its encoding,
one or two steps of every command against values of spec/95_test_vectors.md, and for every statement with hypotheses a
witness that meets them. Each test names its source. -/

namespace Sys2Proof.Tests

set_option Elab.async false

open Sys2Proof Sys2Proof.Machine

/-! WellFormed: an ALG field that names no algorithm of the core (30_encoding.md R113). -/

theorem test_hinit_illformed :
    (Instr.wf (.hinit 0), Instr.wf (.hinit 1), Instr.wf (.hinit 5), Instr.wf (.hinit 15)) = (false, false, false, false)
    ∧ Instr.wf (.hinit 2) = true := by decide

theorem test_hcomp_illformed :
    (Instr.wf (.hcomp 0), Instr.wf (.hcomp 1), Instr.wf (.hcomp 5), Instr.wf (.hcomp 15)) = (false, false, false, false)
    ∧ Instr.wf (.hcomp 2) = true := by decide

theorem test_hash_illformed :
    (Instr.wf (.hash 0), Instr.wf (.hash 1), Instr.wf (.hash 5), Instr.wf (.hash 15)) = (false, false, false, false)
    ∧ Instr.wf (.hash 2) = true := by decide

theorem test_hmkey_illformed :
    (Instr.wf (.hmkey 0), Instr.wf (.hmkey 1), Instr.wf (.hmkey 5), Instr.wf (.hmkey 15)) = (false, false, false, false)
    ∧ Instr.wf (.hmkey 2) = true := by decide

theorem test_hmac_illformed :
    (Instr.wf (.hmac 0), Instr.wf (.hmac 1), Instr.wf (.hmac 5), Instr.wf (.hmac 15)) = (false, false, false, false)
    ∧ Instr.wf (.hmac 2) = true := by decide

theorem test_rsasign_illformed :
    (Instr.wf (.rsasign 0 false), Instr.wf (.rsasign 1 false), Instr.wf (.rsasign 5 false), Instr.wf (.rsasign 15 false)) = (false, false, false, false)
    ∧ Instr.wf (.rsasign 2 false) = true := by decide

theorem test_ecsign_illformed :
    (Instr.wf (.ecsign 0 true), Instr.wf (.ecsign 1 true), Instr.wf (.ecsign 5 true), Instr.wf (.ecsign 15 true)) = (false, false, false, false)
    ∧ Instr.wf (.ecsign 2 true) = true := by decide

/-! Decoding: OPC, ALG, MOD, RSV of 30_encoding.md R111 and R116, bit by bit. -/

theorem test_decode_nop : decodeCommand 0b00000000_0000_0000_0000000000000000 = .ok .nop := by decide

theorem test_decode_zeroize : decodeCommand 0b00000001_0000_0000_0000000000000000 = .ok .zeroize := by decide

theorem test_decode_hinit : decodeCommand 0b00010000_0010_0000_0000000000000000 = .ok (.hinit 2) := by decide

theorem test_decode_hupdate : decodeCommand 0b00010001_0000_0000_0000000000000000 = .ok .hupdate := by decide

theorem test_decode_hfinal : decodeCommand 0b00010010_0000_0000_0000000000000000 = .ok .hfinal := by decide

theorem test_decode_hcomp : decodeCommand 0b00010011_0011_0000_0000000000000000 = .ok (.hcomp 3) := by decide

theorem test_decode_hash : decodeCommand 0b00010100_0100_0000_0000000000000000 = .ok (.hash 4) := by decide

theorem test_decode_hmkey : decodeCommand 0b00100000_0010_0000_0000000000000000 = .ok (.hmkey 2) := by decide

theorem test_decode_hminit : decodeCommand 0b00100001_0000_0000_0000000000000000 = .ok .hminit := by decide

theorem test_decode_hmfinal : decodeCommand 0b00100010_0000_0000_0000000000000000 = .ok .hmfinal := by decide

theorem test_decode_hmac : decodeCommand 0b00100011_0011_0000_0000000000000000 = .ok (.hmac 3) := by decide

theorem test_decode_tdesd : decodeCommand 0b00110000_0000_0010_0000000000000000 = .ok (.tdesd true false) := by decide

theorem test_decode_rc2d : decodeCommand 0b00110001_0000_0001_0000000000000000 = .ok (.rc2d false true) := by decide

theorem test_decode_modexp : decodeCommand 0b01000000_0000_0000_0000000000000000 = .ok .modexp := by decide

theorem test_decode_modinv : decodeCommand 0b01000001_0000_0000_0000000000000000 = .ok .modinv := by decide

theorem test_decode_modcrt : decodeCommand 0b01000010_0000_0000_0000000000000000 = .ok .modcrt := by decide

theorem test_decode_ecdbl : decodeCommand 0b01010000_0000_0000_0000000000000000 = .ok .ecdbl := by decide

theorem test_decode_ecadd : decodeCommand 0b01010001_0000_0000_0000000000000000 = .ok .ecadd := by decide

theorem test_decode_ecmul : decodeCommand 0b01010010_0000_0000_0000000000000000 = .ok .ecmul := by decide

theorem test_decode_ecaff : decodeCommand 0b01010011_0000_0000_0000000000000000 = .ok .ecaff := by decide

theorem test_decode_ecldg : decodeCommand 0b01010100_0000_0000_0000000000000000 = .ok .ecldg := by decide

theorem test_decode_rsasign : decodeCommand 0b01100000_0100_0001_0000000000000000 = .ok (.rsasign 4 true) := by decide

theorem test_decode_ecsign : decodeCommand 0b01110000_0011_0000_0000000000000000 = .ok (.ecsign 3 false) := by decide

/-- V-DEC-2, 3, 10, 13, 15 and 16, and an unassigned OPC. -/
theorem test_decode_illegal :
    (decodeCommand 0x00000001, decodeCommand 0x00100000, decodeCommand 0x14210000, decodeCommand 0x30040000)
      = (.error .illegalCmd, .error .illegalCmd, .error .illegalCmd, .error .illegalCmd)
    ∧ (decodeCommand 0x30200000, decodeCommand 0x11000001, decodeCommand 0x02000000)
      = (.error .illegalCmd, .error .illegalCmd, .error .illegalCmd) := by decide

/-- The table's numbering: the word is the number. -/
theorem test_decodeTableWord : decodeTableWord 32 0x30030000 = some (.tdesd true true) := by decide

/-- The assembler names of 30_encoding.md R120. -/
theorem test_asmName : asmName (.rc2d true true) = "RC2D.E128.FINAL" := by decide

/-! Steps. -/

/-- What is read off the state after the core has performed a command word, if it has. -/
def after {α : Type} (s : State) (w : Nat) (f : State → α) : Option α :=
  match step (s.withFetchWord 32 w) with
  | .next t => some (f t)
  | .fault _ => none
  | .refused _ => none

/-- Reset, with bytes in MSG and their number in MSGLEN. -/
def withMsg (m : List Byte) : State := loadMsg m State.reset

/-- A state with bytes in KEY and their number in KEYLEN. -/
def withKey (k : List Byte) (s : State) : State :=
  { s with mem := Memory.writeBytes s.mem keyBase k, keylen := BitVec.ofNat 32 k.length }

/-- The one-block message of 40_hash.md R157: "abc" with its padding. -/
def abcBlock : List Byte := [0x61, 0x62, 0x63, 0x80] ++ zeros 59 ++ [0x18]

/-- V-DEC-1. -/
theorem test_nop_status : after State.reset 0x00000000 statusWord = some 0x02 := by decide

/-- 47_system.md R370: with DONE_IE set the line is up. -/
theorem test_nop_irq : after { State.reset with ie := 1 } 0x00000000 statusWord = some 0x22 := by decide

/-- 47_system.md R371: after a faulted command STATUS ends as 0x0A; the key is gone. -/
theorem test_zeroize :
    after { withKey [1, 2, 3] State.reset with ecD := 5, status := ⟨false, true, true, true, false⟩, err := 0x62 } 0x01000000
      (fun t => (statusWord t, t.err, t.ecD, Memory.read t.mem 0x200, t.keylen)) = some (0x0A, 0, 0, 0, 0) := by decide +kernel

/-- 40_hash.md R154. -/
theorem test_hinit :
    after State.reset 0x10200000 (fun t => (memRead 0x104 t, memRead 0x100 t, hstatWord t)) = some (0x6a09e667, 0, 0x12) := by
  decide

/-- V-DEC-17: no stream. -/
theorem test_hupdate_closed : after State.reset 0x11000000 (fun t => t.err) = some 0x63 := by decide

/-- 40_hash.md R155. -/
theorem test_hupdate :
    after { withMsg abcBlock with hst := state0 .sha256, stream := .plain .sha256 } 0x11000000
      (fun t => (memRead 0x104 t, t.totlen, t.err)) = some (0xba7816bf, 64, 0) := by decide +kernel

/-- 40_hash.md R156: the empty message. -/
theorem test_hfinal :
    after { State.reset with hst := state0 .sha256, stream := .plain .sha256 } 0x12000000
      (fun t => (t.outlen, memRead 0x8000 t, hstatWord t)) = some (32, 0xe3b0c442, 0) := by decide +kernel

/-- V-H-40: the state after one block, high halves zero. -/
theorem test_hcomp :
    after { withMsg abcBlock with hst := state0 .sha256 } 0x13200000 (fun t => t.hst)
      = some ⟨0xba7816bf, 0x8f01cfea, 0x414140de, 0x5dae2223, 0xb00361a3, 0x96177a9c, 0xb410ff61, 0xf20015ad⟩ := by
  decide +kernel

/-- S2: "hello". -/
theorem test_hash_sha256 :
    after (withMsg [0x68, 0x65, 0x6c, 0x6c, 0x6f]) 0x14200000 outBytes
      = some [0x2c, 0xf2, 0x4d, 0xba, 0x5f, 0xb0, 0xa3, 0x0e, 0x26, 0xe8, 0x3b, 0x2a, 0xc5, 0xb9, 0xe2, 0x9e, 0x1b, 0x16, 0x1e, 0x5c, 0x1f, 0xa7, 0x42, 0x5e, 0x73, 0x04, 0x33, 0x62, 0x93, 0x8b, 0x98, 0x24] := by decide +kernel

/-- 00_scope.md R8: no SHA-1 here. -/
theorem test_hash_sha1 : after State.reset 0x14100000 (fun t => (t.err, t.outlen)) = some (0x21, 0) := by decide

/-- 41_hmac.md R185: the key "Jefe". -/
theorem test_hmkey :
    after (withKey [0x4a, 0x65, 0x66, 0x65] State.reset) 0x20200000 (fun t => (t.hmI.h0, t.hmO.h7, hstatWord t))
      = some (0x655da7fa, 0x52f141d5, 0x00002100) := by decide +kernel

/-- 41_hmac.md R186. -/
theorem test_hminit :
    after { State.reset with hmAlg := some .sha256, hmI := ⟨0x655da7fa, 0, 0, 0, 0, 0, 0, 0⟩ } 0x21000000
      (fun t => (memRead 0x104 t, t.totlen, hstatWord t)) = some (0x655da7fa, 64, 0x00002132) := by decide

/-- 41_hmac.md R187: "what do ya want for nothing?" under the context of R185. -/
theorem test_hmfinal :
    after { withMsg [0x77, 0x68, 0x61, 0x74, 0x20, 0x64, 0x6f, 0x20, 0x79, 0x61, 0x20, 0x77, 0x61, 0x6e, 0x74, 0x20, 0x66, 0x6f, 0x72, 0x20, 0x6e, 0x6f, 0x74, 0x68, 0x69, 0x6e, 0x67, 0x3f] with
        hst := ⟨0x655da7fa, 0xcc434b37, 0x5a1cd5cb, 0x0692ee0e, 0xa47a23d3, 0x4c3af449, 0xdba21ae2, 0x78c7500c⟩
        hmO := ⟨0x0eafe3d5, 0x13412e6c, 0x6a6a2feb, 0x2d375acc, 0x51a4fd47, 0x6db095e8, 0x23bfa18a, 0x52f141d5⟩
        hmAlg := some .sha256, stream := .hmac .sha256, totlen := 64 } 0x22000000
      (fun t => (outBytes t, hstatWord t))
      = some ([0x5b, 0xdc, 0xc1, 0x46, 0xbf, 0x60, 0x75, 0x4e, 0x6a, 0x04, 0x24, 0x26, 0x08, 0x95, 0x75, 0xc7, 0x5a, 0x00, 0x3f, 0x08, 0x9d, 0x27, 0x39, 0x83, 0x9d, 0xec, 0x58, 0xb9, 0x64, 0xec, 0x38, 0x43], 0x00002100) := by
  decide +kernel

/-- 41_hmac.md R188: empty key, empty message. -/
theorem test_hmac :
    after State.reset 0x23200000 (fun t => (memRead 0x8000 t, t.outlen)) = some (0xb613679a, 32) := by decide +kernel

/-- The operands of 42_blockcipher.md R214's example. -/
def tdesExample : State :=
  { withKey [0x01, 0x23, 0x45, 0x67, 0x89, 0xab, 0xcd, 0xef, 0x23, 0x45, 0x67, 0x89, 0xab, 0xcd, 0xef, 0x01, 0x45, 0x67, 0x89, 0xab, 0xcd, 0xef, 0x01, 0x23] (withMsg [0xf3, 0x3c, 0x5f, 0x77, 0x85, 0x3e, 0x4c, 0x27]) with
    iv := 0x1234567890abcdef }

/-- V-3DES-1. -/
theorem test_tdesd :
    after tdesExample 0x30010000 (fun t => (outBytes t, t.iv)) = some ([0x68, 0x65, 0x6c, 0x6c, 0x6f], 0xf33c5f77853e4c27) := by
  decide +kernel

/-- V-3DES-6: bad padding leaves IV and zeroes OUT. -/
theorem test_tdesd_padding :
    after { tdesExample with mem := Memory.writeBytes tdesExample.mem msgBase [0xa0, 0x11, 0xb0, 0x7c, 0x73, 0x63, 0x33, 0x75] } 0x30010000
      (fun t => (t.err, t.outlen, t.iv)) = some (0x41, 0, 0x1234567890abcdef) := by decide +kernel

/-- The operands of 42_blockcipher.md R226's example. -/
def rc2Example : State :=
  { withKey [1, 2, 3, 4, 5] (withMsg [0xb3, 0x15, 0x5f, 0x74, 0xb9, 0x2a, 0x5d, 0xd7, 0xd9, 0x97, 0xff, 0xe2, 0x1e, 0x54, 0x6b, 0xeb]) with iv := 0x1234567890abcdef }

/-- V-RC2-1. -/
theorem test_rc2d :
    after rc2Example 0x31010000 (fun t => (outBytes t, t.iv))
      = some ([0x52, 0x43, 0x32, 0x20, 0x6c, 0x65, 0x67, 0x61, 0x63, 0x79, 0x20, 0x64, 0x61, 0x74, 0x61], 0xd997ffe21e546beb) := by decide +kernel

/-- V-BN-1. -/
theorem test_modexp :
    after { State.reset with bnA := 4, bnE := 13, bnM := 497 } 0x40000000 (fun t => (t.bnR, memRead 0x17FC t))
      = some (445, 0x1bd) := by decide +kernel

/-- V-BN-7. -/
theorem test_modexp_zero :
    after { State.reset with bnA := 3, bnE := 4, bnR := 9 } 0x40000000 (fun t => (t.bnR, t.err)) = some (0, 0x64) := by
  decide +kernel

/-- V-BN-12. -/
theorem test_modinv : after { State.reset with bnA := 14, bnM := 11 } 0x41000000 (fun t => t.bnR) = some 4 := by
  decide +kernel

/-- V-BN-10. -/
theorem test_modinv_none :
    after { State.reset with bnA := 6, bnM := 9, bnR := 7 } 0x41000000 (fun t => (t.bnR, t.err)) = some (0, 0x71) := by
  decide +kernel

/-- V-BN-16: the difference of the two powers is negative. -/
theorem test_modcrt :
    after { State.reset with rsa := ⟨61, 53, 53, 49, 38⟩, bnA := 123 } 0x42000000 (fun t => t.bnR) = some 2746 := by
  decide +kernel

/-- P at the base point of P-256, CURVE = 1. -/
def atBase : State := { State.reset with curve := 1, pP := pointOf Curve.p256.basePoint }

/-- 2G of V-EC-A2. -/
def doubleG : Point :=
  ⟨0x9a978f59acd1b5ad570e7d52dcfcde43804b42274f61ddcf1e7d848391d6c70f,
   0x4126885e7f786af905338238e5346d5fe77fc46388668bd0fd59be3190d2f5d1,
   0x9fc685c5fc34ff371dcfd694f81f3c2c579c66aed662bd9d976c80d06f7ea3ea⟩

/-- V-EC-A2. -/
theorem test_ecdbl : after atBase 0x50000000 (fun t => t.pR) = some doubleG := by decide +kernel

/-- 44_ecpoint.md R290: 2G + G. -/
theorem test_ecadd :
    after { atBase with pP := doubleG, pQ := atBase.pP } 0x51000000 (fun t => t.pR.x)
      = some 0x0ec88440c8b00a9e572bf1bceb7d0c5906bd65990a9b7081130bd72e2c136ca0 := by decide +kernel

/-- 44_ecpoint.md R285: P and -P. -/
theorem test_ecadd_opposite :
    after { atBase with pQ := ⟨atBase.pP.x, BitVec.ofNat 384 (Curve.p256.p - Curve.p256.gy), 1⟩ } 0x51000000 (fun t => t.pR)
      = some ⟨1, 1, 0⟩ := by decide +kernel

/-- 44_ecpoint.md R286: 2G by the scalar 2. -/
theorem test_ecmul : after { atBase with ecK := 2 } 0x52000000 (fun t => t.pR) = some doubleG := by decide +kernel

/-- V-EC-A3. -/
theorem test_ecaff :
    after { atBase with pP := doubleG } 0x53000000 (fun t => t.pR)
      = some ⟨0x7cf27b188d034f7e8a52380304b51ac3c08969e277f21b35a60b48fc47669978,
          0x07775510db8ed040293d9ac69f7430dbba7dade63ce982299e04b79d227873d1, 1⟩ := by decide +kernel

/-- 44_ecpoint.md R292: no affine form at infinity. -/
theorem test_ecaff_infinity :
    after { State.reset with curve := 2, pP := ⟨5, 7, 0⟩, pR := ⟨1, 1, 1⟩ } 0x53000000 (fun t => (t.err, t.pR))
      = some (0x73, ⟨0, 0, 0⟩) := by decide +kernel

/-- V-EC-A1. -/
theorem test_ecldg :
    after { State.reset with curve := 1 } 0x54000000 (fun t => (memRead 0x480 t, memRead 0x490 t, memRead 0x52C t))
      = some (0, 0x6b17d1f2, 1) := by decide +kernel

/-- V-DEC-23. -/
theorem test_ecldg_nocurve : after { State.reset with pP := ⟨1, 2, 3⟩ } 0x54000000 (fun t => (t.err, t.pP)) = some (0x22, ⟨1, 2, 3⟩) := by
  decide +kernel

/-- The key of 45_rsa.md R326, NBITS = 512, and a digest in MSG: SHA-256 of "Hello". -/
def rsaExample : State :=
  { withMsg [0x18, 0x5f, 0x8d, 0xb3, 0x22, 0x71, 0xfe, 0x25, 0xf5, 0x61, 0xa6, 0xfc, 0x93, 0x8b, 0x2e, 0x26, 0x43, 0x06, 0xec, 0x30, 0x4e, 0xda, 0x51, 0x80, 0x07, 0xd1, 0x76, 0x48, 0x26, 0x38, 0x19, 0x69] with
    nbits := 512
    rsa := ⟨0xd0ae322888ba53ed7f26ecb3f82c9fabca1d96cff952b9c7c4578a6db3e54d5f,
      0xcea59374207408988b8d019aad64d6cecb6a0fde8bc7804e42638027fcaea4ff,
      0xa41d6b1b0fb4a20eb4a21323d2789db648050f374e986dbd1abfd20146aa7e37,
      0x323109459574597a23bb15fea9caea59c41278d4470327e8da3b2caf89b229a5,
      0x2ab6207f1ac0cd238a27b07ebca87315478acbeb96f961370567f07593587226⟩ }

/-- 45_rsa.md R326, with DG and the digest quoted there. -/
theorem test_rsasign :
    after rsaExample 0x60210000 outBytes
      = some [0x00, 0xd7, 0x12, 0x46, 0xd4, 0x47, 0xcb, 0x2d, 0x19, 0x0a, 0x03, 0x5b, 0x92, 0x67, 0xc7, 0xa8, 0xd1, 0x76, 0x4b, 0xd1, 0xd8, 0x2c, 0xfb, 0x9d, 0x35, 0x2a, 0x1a, 0x00, 0xcd, 0x4f, 0xe1, 0x11, 0x31, 0x2d, 0x64, 0x23, 0x0e, 0x33, 0x3e, 0x75, 0x82, 0xbe, 0xfc, 0x49, 0xa5, 0x2b, 0x7f, 0x0a, 0x80, 0x39, 0xff, 0xcb, 0x91, 0xb3, 0x8a, 0x51, 0x1b, 0xf5, 0x9a, 0xfb, 0x39, 0x58, 0x1a, 0xd2] := by
  decide +kernel

/-- 45_rsa.md R326: SHA-512 does not fit, and OUT is zeroed. -/
theorem test_rsasign_capacity :
    after { rsaExample with msglen := 0, outlen := 3 } 0x60400000 (fun t => (t.err, t.outlen)) = some (0x51, 0) := by
  decide +kernel

/-- SHA-256 of "sample" (46_ecdsa.md R350). -/
def sampleDigest : List Byte := [0xaf, 0x2b, 0xdb, 0xe1, 0xaa, 0x9b, 0x6e, 0xc1, 0xe2, 0xad, 0xe1, 0xd6, 0x94, 0xf4, 0x1f, 0xc7, 0x1a, 0x83, 0x1d, 0x02, 0x68, 0xe9, 0x89, 0x15, 0x62, 0x11, 0x3d, 0x8a, 0x62, 0xad, 0xd1, 0xbf]

/-- The private key of 46_ecdsa.md R350. -/
def sampleKey : Nat := 0xc9afa9d845ba75166b5c215767b1d6934e50c3db36e89b127b8a622b120f6721

/-- 46_ecdsa.md R350: the signature values. -/
theorem test_ecdsaPair :
    ecdsaPair .sha256 .p256 sampleDigest sampleKey
      = some (0xefd48b2aacb6a8fd1140dd9cd45e81d69d2c877b56aaf991c34d0ea84eaf3716,
          0xf7cb1c942d657c41d436c7a1b6e29f65f3e900dbb9aff4064dc4ab2f843acda8) := by decide +kernel

/-- 46_ecdsa.md R350: the digest. -/
theorem test_sampleDigest : hashOf .sha256 [0x73, 0x61, 0x6d, 0x70, 0x6c, 0x65] = sampleDigest := by decide +kernel

/-- V-DEC-14's kind: a BAD_OPERAND before any work. -/
theorem test_ecsign_nokey : after { State.reset with curve := 1 } 0x70200000 (fun t => t.err) = some 0x64 := by decide +kernel

/-! Host accesses. -/

/-- V-ST-2: after the CMD write and before the core moves, STATUS reads BUSY. -/
theorem test_accept : memRead 0x14 (memWrite 0x10 0x00000000 State.reset) = 0x01 := by decide

/-- V-BUS-1: the first byte of a word is in its high bits. -/
theorem test_msg_bytes : (memWrite 0x4000 0x61626364 State.reset).mem
    = [(0x4000, 0x61), (0x4001, 0x62), (0x4002, 0x63), (0x4003, 0x64)] := by decide

/-- 10_state.md R32: the constants. -/
theorem test_constants :
    (memRead 0 State.reset, memRead 4 State.reset, memRead 8 State.reset, memRead 12 State.reset)
      = (0x464F5401, 0x00003FFE, 0x10001000, 0x00000040) := by decide

/-- 20_memory.md R82 and 93_implementation_defined.md U3: a misaligned or narrow access is refused wherever it is, and an
aligned one outside the window too. -/
theorem test_no_such_access :
    busWrite 0x10002 4 0 State.reset = .refused (.unsupportedAccess 0x10002 4)
      ∧ busRead 0x20000 1 State.reset = .refused (.unsupportedAccess 0x20000 1)
      ∧ busRead 0x10000 4 State.reset = .refused (.outsideWindow 0x10000) := ⟨rfl, rfl, rfl⟩

/-- 20_memory.md R90 and 70_reset_and_hazards.md R423: a write while BUSY to OUTLEN, OUT, BN_R or ID sets WRBUSY (log 13);
R88 and 92_eei_decisions.md D40: one to a reserved offset does not. -/
theorem test_readonly_busy :
    let s : State := { State.reset with status := ⟨true, false, false, false, false⟩ }
    ((memWrite 0x28 5 s).status.wrbusy, (memWrite 0x8000 5 s).status.wrbusy, (memWrite 0x1600 5 s).status.wrbusy,
      (memWrite 0x00 5 s).status.wrbusy, (memWrite 0x40 5 s).status.wrbusy) = (true, true, true, true, false) := by decide

/-- 20_memory.md R89: the same writes while idle set no flag. -/
theorem test_readonly_idle : memWrite 0x28 5 State.reset = State.reset ∧ memWrite 0x8000 5 State.reset = State.reset :=
  ⟨rfl, rfl⟩

/-- 30_encoding.md R121 and R122: HMACCTX.SHA256, with one poll before the first command's end. -/
theorem test_hmacctx_events :
    pseudoEvents (.hmacctx 2 1 0 0)
      = [.write 0x10 4 0x20200000, .read 0x14 4, .core, .read 0x14 4,
         .write 0x10 4 0x21000000, .core, .read 0x14 4,
         .write 0x10 4 0x22000000, .core, .read 0x14 4] := by decide

/-- 40_hash.md R142 and R143: both tables are cube roots of the same primes, so a K256 word is the high half of K512's. -/
theorem test_k256_is_k512_high : k256 = (k512.take 64).map (fun x => x.extractLsb' 32 32) := by decide

/-! Witnesses: for every statement with hypotheses, operands that meet them all. -/

/-- A state in which a word is pending. -/
def pending (w : Word) : State := { State.reset with cmd := w, status := ⟨true, false, false, false, false⟩ }

theorem witness_EncodedCommandDecodesBack : (Instr.hash 2).wf = true := by decide

theorem witness_DecodedWordIsItsEncoding : decode 0x70310000 = .ok (.ecsign 3 true) := by decide

theorem witness_DecodingFollowsTheTable_reserved : fieldRsv 0x14208000 ≠ 0 := by decide

theorem witness_DecodingFollowsTheTable_unassigned : fieldRsv 0xFF000000 = 0 ∧ ∀ r ∈ opTable, r.1 ≠ fieldOpc 0xFF000000 := by
  refine ⟨by decide, ?_⟩
  rw [show fieldOpc 0xFF000000 = 0xFF by decide]
  simp [opTable]

theorem witness_DecodingFollowsTheTable_modifier :
    fieldRsv 0x30040000 = 0 ∧ (fieldOpc 0x30040000, false, 3#4) ∈ opTable ∧ fieldMod 0x30040000 &&& ~~~3#4 ≠ 0 := by decide

theorem witness_DecodingFollowsTheTable_plain :
    fieldRsv 0x30230000 = 0 ∧ (fieldOpc 0x30230000, false, 3#4) ∈ opTable ∧ fieldMod 0x30230000 &&& ~~~3#4 = 0
      ∧ fieldAlg 0x30230000 ≠ 0 ∧ fieldMod 0x30030000 &&& ~~~3#4 = 0 ∧ fieldAlg 0x30030000 = 0 := by decide

theorem witness_DecodingFollowsTheTable_selector :
    (fieldOpc 0x14500000, true, 0#4) ∈ opTable ∧ fieldMod 0x14500000 &&& ~~~0#4 = 0 ∧ 5 ≤ (fieldAlg 0x14500000).toNat
      ∧ fieldAlg 0x14000000 = 0 ∧ fieldAlg 0x14100000 = 1 ∧ Config.hasSha1 = false
      ∧ (fieldAlg 0x14200000).toNat = 2 ∧ (fieldAlg 0x14400000).toNat = 4 := by decide

theorem witness_StepPerformsTheDecodedCommand :
    (pending 0x14200000).status.busy = true ∧ decodeCommand (pending 0x14200000).cmd = .ok (.hash 2)
      ∧ (pending 0x14200000).inputs = [] := by decide

theorem witness_StepPerformsTheDecodedCommand_core :
    ({ pending 0x14200000 with inputs := [.core] } : State).inputs = .core :: [] ∧ State.reset.status.busy = false := by
  decide

theorem witness_UndecodableWordFaults :
    (pending 0x14000000).inputs = [] ∧ (pending 0x14000000).status.busy = true
      ∧ decodeCommand (pending 0x14000000).cmd = .error .unsupHash
      ∧ decodeCommand (pending 0x00000001).cmd = .error .illegalCmd := by decide

theorem witness_HinitCompletes : selectHash 2 = some .sha256 ∧ selectHash 4 = some .sha512 := by decide

/-- The largest message and the last total length below the limit. -/
theorem witness_HupdateCompletes :
    let s : State := { State.reset with stream := .plain .sha256, msglen := 4096, totlen := 0x1fffffffffffefff }
    streamAlg s.stream = some .sha256 ∧ s.msglen.toNat ≤ Config.msgCap ∧ s.msglen.toNat % blockBytes .sha256 = 0
      ∧ totalAfter s < lengthLimit .sha256 ∧ totalAfter s + 1 = lengthLimit .sha256 := by decide

theorem witness_HfinalCompletes :
    let s : State := { State.reset with stream := .plain .sha512, msglen := 4095 }
    s.stream = .plain .sha512 ∧ s.msglen.toNat ≤ Config.msgCap ∧ totalAfter s < lengthLimit .sha512 := by decide

theorem witness_HcompCompletes :
    selectHash 3 = some .sha384 ∧ ({ State.reset with msglen := 128 } : State).msglen.toNat = blockBytes .sha384 := by decide

theorem witness_HashCompletes :
    selectHash 2 = some .sha256 ∧ ({ State.reset with msglen := 4096 } : State).msglen.toNat ≤ Config.msgCap := by decide

theorem witness_StreamedHashEqualsOneShot :
    selectHash 2 = some .sha256
      ∧ (∀ c ∈ [abcBlock, abcBlock], c.length % blockBytes .sha256 = 0 ∧ c.length ≤ Config.msgCap)
      ∧ [0x61#8].length ≤ Config.msgCap ∧ ([abcBlock, abcBlock].flatten ++ [0x61#8]).length < lengthLimit .sha256
      ∧ ([abcBlock, abcBlock].flatten ++ [0x61#8]).length ≤ Config.msgCap := by decide +kernel

theorem witness_HmkeyCompletes :
    selectHash 2 = some .sha256 ∧ ({ State.reset with keylen := 256 } : State).keylen.toNat ≤ Config.keyCap := by decide

theorem witness_HminitCompletes : ({ State.reset with hmAlg := some .sha384 } : State).hmAlg = some .sha384 := by decide

theorem witness_HmfinalCompletes :
    let s : State := { State.reset with stream := .hmac .sha256, hmAlg := some .sha256, totlen := 64, msglen := 4096 }
    s.stream = .hmac .sha256 ∧ s.msglen.toNat ≤ Config.msgCap ∧ totalAfter s < lengthLimit .sha256 := by decide

theorem witness_HmacCompletes :
    let s : State := { State.reset with keylen := 256, msglen := 4096 }
    selectHash 4 = some .sha512 ∧ s.keylen.toNat ≤ Config.keyCap ∧ s.msglen.toNat ≤ Config.msgCap := by decide

theorem witness_ContextMacEqualsOneShot :
    selectHash 2 = some .sha256 ∧ (withKey [1] (withMsg [2])).keylen.toNat ≤ Config.keyCap
      ∧ (withKey [1] (withMsg [2])).msglen.toNat ≤ Config.msgCap := by decide

/-- 42_blockcipher.md R214's example, with FINAL. -/
theorem witness_TdesdCompletes :
    tdesExample.keylen.toNat = (if false then 16 else 24) ∧ tdesExample.msglen.toNat ≠ 0
      ∧ tdesExample.msglen.toNat % 8 = 0 ∧ tdesExample.msglen.toNat ≤ Config.msgCap
      ∧ plainOut true (cipherPlain (tdesDec (keyDWord tdesExample 0) (keyDWord tdesExample 8)
          (if false then keyDWord tdesExample 0 else keyDWord tdesExample 16)) tdesExample)
        = .ok [0x68, 0x65, 0x6c, 0x6c, 0x6f] := by decide +kernel

/-- 42_blockcipher.md R226's example, with FINAL. -/
theorem witness_Rc2dCompletes :
    rc2Example.keylen.toNat ≠ 0 ∧ rc2Example.keylen.toNat ≤ 128 ∧ rc2Example.msglen.toNat ≠ 0
      ∧ rc2Example.msglen.toNat % 8 = 0 ∧ rc2Example.msglen.toNat ≤ Config.msgCap
      ∧ plainOut true (cipherPlain (rc2Dec (rc2Expand (keyBytes rc2Example) (if false then 128 else 40))) rc2Example)
        = .ok [0x52, 0x43, 0x32, 0x20, 0x6c, 0x65, 0x67, 0x61, 0x63, 0x79, 0x20, 0x64, 0x61, 0x74, 0x61] := by
  decide +kernel

theorem witness_PaddedCiphertextRoundTrip : ∀ x : DWord, (x + 1) - 1 = x := fun x => BitVec.add_sub_cancel x 1

theorem witness_ModexpCompletes : ({ State.reset with bnM := 1 } : State).bnM.toNat ≠ 0 := by decide +kernel

theorem witness_ModinvCompletes :
    let s : State := { State.reset with bnA := 14, bnM := 11 }
    2 ≤ s.bnM.toNat ∧ Nat.gcd (s.bnA.toNat % s.bnM.toNat) s.bnM.toNat = 1 := by decide +kernel

theorem witness_ModcrtCompletes :
    let s : State := { State.reset with rsa := ⟨61, 53, 53, 49, 38⟩, bnA := 123 }
    2 ≤ s.rsa.p.toNat ∧ 2 ≤ s.rsa.q.toNat ∧ bitlen s.rsa.p.toNat + bitlen s.rsa.q.toNat ≤ Config.bnBits := by
  decide +kernel

/-- The toy key of 43_bigint.md R256. -/
theorem witness_CrtComputesThePower :
    Nat.Prime 61 ∧ Nat.Prime 53 ∧ 61 ≠ 53 ∧ 2753 % (61 - 1) ≠ 0 ∧ 2753 % (53 - 1) ≠ 0 ∧ 53 * 38 % 61 = 1
      ∧ 3232 < 61 * 53 := by norm_num

theorem witness_EcdblCompletes :
    selectCurve atBase = .ok .p256 ∧ atBase.pP.x.toNat < Curve.p256.p ∧ atBase.pP.y.toNat < Curve.p256.p
      ∧ atBase.pP.z.toNat < Curve.p256.p := by decide +kernel

/-- The largest coordinate, on the other curve. -/
theorem witness_EcaddCompletes :
    let v : Point := ⟨BitVec.ofNat 384 (Curve.p384.p - 1), 1, 1⟩
    let s : State := { State.reset with curve := 2, pP := v, pQ := v }
    selectCurve s = .ok .p384 ∧ s.pP.x.toNat < Curve.p384.p ∧ s.pP.y.toNat < Curve.p384.p
      ∧ s.pP.z.toNat < Curve.p384.p ∧ s.pQ.x.toNat < Curve.p384.p ∧ s.pQ.y.toNat < Curve.p384.p
      ∧ s.pQ.z.toNat < Curve.p384.p ∧ s.pP.x.toNat + 1 = Curve.p384.p := by decide +kernel

theorem witness_EcmulCompletes :
    let s : State := { atBase with ecK := 5 }
    selectCurve s = .ok .p256 ∧ s.pP.x.toNat < Curve.p256.p ∧ s.pP.y.toNat < Curve.p256.p
      ∧ s.pP.z.toNat < Curve.p256.p := by decide +kernel

theorem witness_EcaffCompletes :
    let s : State := { atBase with pP := doubleG }
    selectCurve s = .ok .p256 ∧ s.pP.x.toNat < Curve.p256.p ∧ s.pP.y.toNat < Curve.p256.p
      ∧ s.pP.z.toNat < Curve.p256.p ∧ s.pP.z.toNat ≠ 0 ∧ Nat.gcd s.pP.z.toNat Curve.p256.p = 1 := by decide +kernel

theorem witness_EcldgCompletes : selectCurve ({ State.reset with curve := 2 } : State) = .ok .p384 := by decide

theorem witness_DoublingStaysOnCurve : onCurve .p256 Curve.p256.basePoint ∧ onCurve .p384 Curve.p384.basePoint := by
  unfold onCurve; decide +kernel

theorem witness_PointLaws : Curve.p256.basePoint.z ≠ 0 ∧ 0 < 1 := by decide

/-- The key and digest of 45_rsa.md R326, DG = 1. -/
theorem witness_RsasignCompletes_digest :
    selectHash 2 = some .sha256 ∧ rsaExample.msglen.toNat = digestBytes .sha256 ∧ 64 = ceilDiv rsaExample.nbits.toNat 8
      ∧ rsaExample.nbits.toNat ≠ 0 ∧ rsaExample.nbits.toNat ≤ Config.bnBits
      ∧ 2 ≤ rsaExample.rsa.p.toNat ∧ 2 ≤ rsaExample.rsa.q.toNat
      ∧ bitlen rsaExample.rsa.p.toNat + bitlen rsaExample.rsa.q.toNat ≤ Config.bnBits ∧ tLen .sha256 + 11 ≤ 64
      ∧ rsaSign .sha256 (msgPrefix rsaExample (digestBytes .sha256)) 64 rsaExample.rsa < 256 ^ 64 := by decide +kernel

/-- The same key and the empty message, DG = 0. -/
theorem witness_RsasignCompletes_message :
    let s : State := { rsaExample with msglen := 0 }
    selectHash 2 = some .sha256 ∧ s.msglen.toNat ≤ Config.msgCap ∧ 64 = ceilDiv s.nbits.toNat 8 ∧ s.nbits.toNat ≠ 0
      ∧ s.nbits.toNat ≤ Config.bnBits ∧ 2 ≤ s.rsa.p.toNat ∧ 2 ≤ s.rsa.q.toNat
      ∧ bitlen s.rsa.p.toNat + bitlen s.rsa.q.toNat ≤ Config.bnBits ∧ tLen .sha256 + 11 ≤ 64
      ∧ rsaSign .sha256 (hashOf .sha256 (msgBytes s)) 64 s.rsa < 256 ^ 64 := by decide +kernel

/-- 62 bytes, the least for SHA-256 (45_rsa.md R323). -/
theorem witness_EncodedMessageShape : (zeros 32).length = digestBytes .sha256 ∧ tLen .sha256 + 11 ≤ 62 := by decide

/-- The operands of 46_ecdsa.md R350: the message with DG = 0, its digest with DG = 1. -/
def ecExample (m : List Byte) : State := { withMsg m with curve := 1, ecD := BitVec.ofNat 384 sampleKey }

theorem witness_EcsignCompletes_message :
    let s := ecExample [0x73, 0x61, 0x6d, 0x70, 0x6c, 0x65]
    selectHash 2 = some .sha256 ∧ selectCurve s = .ok .p256 ∧ s.msglen.toNat ≤ Config.msgCap
      ∧ hashOf .sha256 (msgBytes s) = sampleDigest ∧ s.ecD.toNat ≠ 0 ∧ s.ecD.toNat < Curve.p256.n
      ∧ s.ecD.toNat = sampleKey := by decide +kernel

theorem witness_EcsignCompletes_digest :
    let s := ecExample sampleDigest
    selectHash 2 = some .sha256 ∧ selectCurve s = .ok .p256 ∧ s.msglen.toNat = digestBytes .sha256
      ∧ msgPrefix s (digestBytes .sha256) = sampleDigest ∧ s.ecD.toNat ≠ 0 ∧ s.ecD.toNat < Curve.p256.n
      ∧ s.ecD.toNat = sampleKey := by decide +kernel

/-- A candidate 1 is accepted and is a unit. -/
theorem witness_SignatureEquation :
    acceptCandidate .p256 5 7 1 = some (Curve.p256.gx, (7 + Curve.p256.gx * 5) % Curve.p256.n)
      ∧ Nat.gcd 1 Curve.p256.n = 1 := by decide +kernel

theorem witness_DerSignatureShape :
    1 ≤ 1 ∧ 1 < Curve.p384.n ∧ 1 ≤ Curve.p384.n - 1 ∧ Curve.p384.n - 1 < Curve.p384.n := by decide

/-- The examples of 60_exceptions.md R387 that pass the first step of its order. -/
theorem witness_CheckPhaseFaultsInOrder :
    checkFault (.ecsign 1 false) State.reset = some .unsupHash
      ∧ checkFault (.rsasign 4 false) { State.reset with nbits := 512 } = some .badOperand
      ∧ checkFault .hfinal { State.reset with msglen := 0xFFFFFFFF } = some .badSequence
      ∧ checkFault .ecdbl State.reset = some .unsupCurve := by decide +kernel

/-- Boundary values of the length conditions: the last that fails, the last that passes. -/
theorem witness_CheckPhaseFaultsInOrder_lengths :
    checkFault (.hash 2) { State.reset with msglen := 4097 } = some .badLength
      ∧ checkFault (.hash 2) { State.reset with msglen := 4096 } = none
      ∧ checkFault (.hmkey 2) { State.reset with keylen := 257 } = some .badLength
      ∧ checkFault (.rc2d false false) { State.reset with keylen := 129, msglen := 8 } = some .badLength
      ∧ checkFault (.tdesd true false) { State.reset with keylen := 16, msglen := 4104 } = some .badLength
      ∧ checkFault (.tdesd true false) { State.reset with keylen := 16, msglen := 4096 } = none := by decide

/-- V-H-60: the total reaches the limit. -/
theorem witness_CheckPhaseFaultsInOrder_total :
    checkFault .hupdate { State.reset with stream := .plain .sha256, totlen := 0x1fffffffffffffc0, msglen := 64 }
      = some .lenOverflow := by decide

/-- 45_rsa.md R323: 61 bytes are one too few for SHA-256, 62 are enough. -/
theorem witness_CheckPhaseFaultsInOrder_capacity :
    checkFault (.rsasign 2 true) { rsaExample with nbits := 488 } = some .rsaCapacity
      ∧ checkFault (.rsasign 2 true) { rsaExample with nbits := 489 } = none := by decide +kernel

theorem witness_OnlyLateFaultsAfterChecks :
    checkFault .modinv { State.reset with bnM := 2 } = none ∧ checkFault .nop State.reset = none := by decide +kernel

/-- V-3DES-6. -/
theorem witness_LateFaultConditions_tdesd :
    let s : State := { tdesExample with mem := Memory.writeBytes tdesExample.mem msgBase [0xa0, 0x11, 0xb0, 0x7c, 0x73, 0x63, 0x33, 0x75] }
    checkFault (.tdesd false true) s = none ∧ unpad (cipherPlain (tdesFunction false s) s) = .error .badPadding := by
  decide +kernel

/-- V-RC2-4: the wrong effective key length. -/
theorem witness_LateFaultConditions_rc2d :
    checkFault (.rc2d true true) rc2Example = none
      ∧ unpad (cipherPlain (rc2Function true rc2Example) rc2Example) = .error .badPadding := by decide +kernel

/-- V-BN-10. -/
theorem witness_LateFaultConditions_modinv :
    let s : State := { State.reset with bnA := 6, bnM := 9 }
    checkFault .modinv s = none ∧ Nat.gcd (s.bnA.toNat % s.bnM.toNat) s.bnM.toNat ≠ 1 := by decide +kernel

theorem witness_LateFaultConditions_ecaff :
    let s : State := { State.reset with curve := 1, pP := ⟨5, 7, 0⟩ }
    checkFault .ecaff s = none ∧ s.pP.z = 0 := by decide +kernel

/-- Primes far above the modulus length NBITS gives. -/
theorem witness_LateFaultConditions_rsasign :
    let s : State := { withMsg (zeros 32) with
      msglen := 32, nbits := 496, rsa := ⟨BitVec.ofNat 4096 (2 ^ 520), 2, 1, 1, BitVec.ofNat 4096 (2 ^ 20)⟩ }
    checkFault (.rsasign 2 true) s = none
      ∧ 256 ^ modulusBytes s ≤ rsaSign (namedHash 2) (signDigest (namedHash 2) true s) (modulusBytes s) s.rsa := by
  decide +kernel

/-- The key and digest of 46_ecdsa.md R350, and the largest key that passes the checks. -/
theorem witness_LateFaultConditions_ecsign :
    checkFault (.ecsign 2 true) (ecExample sampleDigest) = none
      ∧ checkFault (.ecsign 2 true) { ecExample sampleDigest with ecD := BitVec.ofNat 384 (Curve.p256.n - 1) } = none := by
  decide +kernel

theorem witness_ControlWrites : State.reset.status.busy = false := by decide

/-- The host writes 1 to every clearable bit in the core's own step. -/
theorem witness_CoreSetWinsOverHostClear :
    let s : State := { pending 0x00000001 with inputs := [.coreWithStatusWrite 0x1E] }
    s.inputs = .coreWithStatusWrite 0x1E :: [] ∧ s.status.busy = true := by decide

/-- 10_state.md R37: the command faults in the step in which the host clears every bit; DONE, ERR and ESTICKY stay set. -/
theorem test_set_wins :
    (match step { pending 0x00000001 with inputs := [.coreWithStatusWrite 0x1E] } with
      | .next t => some (statusWord t, t.err)
      | .fault _ => none
      | .refused _ => none) = some (0x0E, 0x61) := by decide

/-- The first and the last data offsets, and the last word of each writable range. -/
theorem witness_BusyLocksData :
    (pending 0).status.busy = true ∧ writableData 0x20 ∧ writableData 0x144 ∧ writableData 0x2FC ∧ writableData 0x4FFC
      ∧ readOnlyOffset 0x00 ∧ readOnlyOffset 0x34 ∧ readOnlyOffset 0x1600 ∧ readOnlyOffset 0x8FFC := by
  simp [writableData, readOnlyOffset, pending]

theorem witness_BusyLocksData_slots : writableData 0x5EC ∧ writableData 0x21FC := by
  unfold writableData
  exact ⟨by right; right; right; right; right; right; right; right; left; exact ⟨7, by decide⟩,
    by right; right; right; right; right; right; right; right; right; left; exact ⟨8, by decide⟩⟩

theorem witness_ReservedOffsetsInert : reservedOffset 0x40 ∧ reservedOffset 0xFC ∧ reservedOffset 0x148 ∧ reservedOffset 0x5000
    ∧ reservedOffset 0xFFFC := by simp [reservedOffset]

theorem witness_ReservedOffsetsInert_slot : reservedOffset 0x430 ∧ reservedOffset 0x6BC := by
  unfold reservedOffset
  exact ⟨by right; right; right; left; exact ⟨0, by decide⟩, by right; right; right; left; exact ⟨10, by decide⟩⟩

theorem witness_OneWayOffsets : readOnlyOffset 0x00 ∧ readOnlyOffset 0x17FC ∧ readOnlyOffset 0x8FFC ∧ writeOnlyOffset 0x200
    ∧ writeOnlyOffset 0x42C ∧ writeOnlyOffset 0x21FC := by simp [readOnlyOffset, writeOnlyOffset]

theorem witness_OneWayOffsets_slot : readOnlyOffset 0x6AC := by
  unfold readOnlyOffset; right; right; right; right; left; exact ⟨10, by decide⟩

theorem witness_RegisterWordPacking :
    32 * (127 + 1) ≤ Config.bnBits ∧ 32 * (11 + 1) ≤ Config.ecBits ∧ State.reset.status.busy = false := by decide

theorem witness_BufferWordPacking :
    State.reset.status.busy = false ∧ 0x4FFC % 4 = 0 ∧ inMsg 0x4FFC ∧ inMsg 0x4000 ∧ inKey 0x200 ∧ inKey 0x2FC
      ∧ inOut 0x8000 ∧ inOut 0x8FFC := by
  unfold inMsg inKey inOut; decide

theorem witness_BusAccessesThatExist :
    0xFFFC < 0x10000 ∧ 0xFFFC % 4 = 0 ∧ 0xFFFD % 4 ≠ 0 ∧ 0x10001 % 4 ≠ 0 ∧ 0x10000 ≤ 0x10000 ∧ 0x10000 % 4 = 0 := by
  decide

theorem witness_BusAccessesThatExist_event :
    ({ State.reset with inputs := [.read 0x14 4] } : State).inputs = .read 0x14 4 :: []
      ∧ ({ State.reset with inputs := [.write 0x20 4 5, .core] } : State).inputs = .write 0x20 4 5 :: [.core] := by decide

/-- Idle, with an HMAC stream open under a valid context. -/
theorem witness_ControlRegistersOnTheBus :
    let s : State := { State.reset with stream := .hmac .sha512, hmAlg := some .sha512, totlen := 128 }
    s.status.busy = false ∧ streamBits s.stream ||| contextBits s.hmAlg = 0x4134 := by decide

theorem witness_ResetZeroesEverything :
    ({ pending 0x01000000 with inputs := [.reset] } : State).inputs = .reset :: [] := by decide

theorem witness_InterruptLine :
    let s : State := { State.reset with status := ⟨false, true, false, false, false⟩ }
    ((s.status.done && (1 : Word).getLsbD 0) || (s.status.err && (1 : Word).getLsbD 1)) = true := by decide

/-- A legal state with a byte in MSG, a fault recorded and an HMAC stream open, from which a step goes on. -/
theorem witness_StepKeepsLegal :
    let s : State := { State.reset with
      mem := [(0x4000, 1)], status := ⟨false, true, true, true, false⟩, err := 0x62
      stream := .hmac .sha256, hmAlg := some .sha256 }
    Legal s ∧ step s = .next s := by
  refine ⟨⟨⟨by decide, ?_⟩, ⟨by decide, ?_⟩, fun h => absurd h (by decide), ⟨by decide, fun _ => ⟨.badLength, rfl⟩⟩, ?_⟩, rfl⟩
  · intro c hc
    simp only [List.mem_singleton] at hc
    subst hc
    exact .inr (.inl (by unfold inMsg; decide))
  · intro j _
    apply read_eq_zero
    intro c hc
    simp only [List.mem_singleton] at hc
    subst hc
    simp only [outBase]
    omega
  · refine ⟨fun a h => ?_, fun a h => ?_, fun a h => ?_⟩
    · simp only [streamAlg, Option.some.injEq] at h; subst h; trivial
    · simp only [Option.some.injEq] at h; subst h; trivial
    · simp only [StreamMode.hmac.injEq] at h; subst h; rfl

/-- Two states with different keys everywhere. -/
theorem witness_BusShowsNoSecret :
    sameButSecrets State.reset { State.reset with
      mem := [(0x200, 7)], ecD := 5, rsa := ⟨1, 2, 3, 4, 5⟩, hmO := ⟨1, 0, 0, 0, 0, 0, 0, 0⟩ } := by
  refine ⟨rfl, rfl, rfl, rfl, rfl, ⟨rfl, rfl, rfl, rfl⟩, ⟨rfl, rfl, rfl⟩, rfl, rfl, rfl, rfl, rfl, rfl, rfl, rfl, rfl, rfl, ?_,
    rfl, rfl⟩
  intro a ha
  rw [read_eq_zero, read_eq_zero]
  · intro c hc; cases hc
  · intro c hc
    simp only [List.mem_singleton] at hc
    subst hc
    rintro rfl
    exact ha (by unfold inKey; decide)

theorem witness_SecretFreeCommandsLeakNothing : showsNoSecret (.hmkey 2) = true ∧ showsNoSecret .modexp = true := by decide

end Sys2Proof.Tests
end

