-- ==== Sys2Proof/Proofs/StepDecoded.lean ====
section
/-! The step with a command pending, and with none: obligation O5. -/

namespace Sys2Proof.Machine

/-- A word that decodes to a well-formed command decodes to that command when ALG is kept as written (log 6). -/
theorem decode_of_decodeCommand {c : Word} {i : Instr} (h : decodeCommand c = .ok i) : decode c = .ok i := by
  unfold decodeCommand at h
  cases hd : decode c with
  | error e => simp [hd] at h
  | ok j =>
    by_cases hw : j.wf = true
    · simpa [hd, hw] using h
    · simp [hd, hw] at h

theorem coreStep_of_decodeCommand {s : State} {i : Instr} (hb : s.status.busy = true)
    (hd : decodeCommand s.cmd = .ok i) : coreStep s = exec i s := by
  have hdec := decode_of_decodeCommand hd
  obtain ⟨hidle, -⟩ | ⟨-, j, hj, hstep⟩ | ⟨-, c, hc, -⟩ := coreStep_eq s
  · simp [hb] at hidle
  · obtain rfl : i = j := by simpa [hdec] using hj
    exact hstep
  · simp [hdec] at hc

theorem coreStep_of_idle {s : State} (hb : s.status.busy = false) : coreStep s = .next s := by
  simp [coreStep, hb]

theorem step_of_inputs_nil {s : State} (h : s.inputs = []) : step s = coreStep s := by
  simp [step, machineStep, h]

theorem step_of_inputs_core {s : State} {rest : List BusEvent} (h : s.inputs = .core :: rest) :
    step s = coreStep { s with inputs := rest } := by
  simp [step, machineStep, eventStep, h]

/-- Settles O5: both ways to the core's move are `coreStep`, whose outcome depends on BUSY and on CMD alone. -/
theorem stepPerformsTheDecodedCommand : Obligations.StepPerformsTheDecodedCommand := by
  unfold Obligations.StepPerformsTheDecodedCommand
  refine ⟨fun s i hb hd => ⟨fun h => ?_, fun rest h => ?_⟩, fun s hb => ⟨fun h => ?_, fun rest h => ?_⟩⟩
  · rw [step_of_inputs_nil h, coreStep_of_decodeCommand hb hd]
  · rw [step_of_inputs_core h, coreStep_of_decodeCommand (s := { s with inputs := rest }) hb hd]
  · rw [step_of_inputs_nil h, coreStep_of_idle hb]
  · rw [step_of_inputs_core h, coreStep_of_idle (s := { s with inputs := rest }) hb]

end Sys2Proof.Machine
end

