-- ==== Sys2Proof/Proofs/SecretsRelation.lean ====
section
/-! The relation `sameButSecrets`: a state and its copy with other secrets. The shared operations keep it, and what the
commands read outside KEY is the same in both. -/

namespace Sys2Proof.Machine

/-- Everything in which two states related by `sameButSecrets` may differ; of `mem` only the bytes of KEY may. -/
structure Secrets where
  rsa : RsaKey
  ecD : BitVec Config.ecBits
  hmI : HashWords
  hmO : HashWords
  mem : Memory

/-- The state `s` with the secrets `k` in place of its own. -/
def withSecrets (k : Secrets) (s : State) : State :=
  { s with rsa := k.rsa, ecD := k.ecD, hmI := k.hmI, hmO := k.hmO, mem := k.mem }

/-- Two memories that read the same at every address outside KEY. -/
def agreeOutsideKey (m n : Memory) : Prop := ∀ a, ¬ inKey a → Memory.read n a = Memory.read m a

theorem sameButSecrets_withSecrets {s : State} {k : Secrets} (h : agreeOutsideKey s.mem k.mem) :
    sameButSecrets s (withSecrets k s) :=
  ⟨rfl, rfl, rfl, rfl, rfl, ⟨rfl, rfl, rfl, rfl⟩, ⟨rfl, rfl, rfl⟩, rfl, rfl, rfl, rfl, rfl, rfl, rfl, rfl, rfl, rfl, h,
    rfl, rfl⟩

/-- Two states differ in secrets only exactly when one is the other with some secrets replaced. -/
theorem sameButSecrets_iff {s t : State} :
    sameButSecrets s t ↔ ∃ k, t = withSecrets k s ∧ agreeOutsideKey s.mem k.mem := by
  constructor
  · rintro ⟨hcmd, hstatus, herr, hie, houtlen, ⟨hmsglen, hkeylen, hcurve, hnbits⟩, ⟨hhst, htotlen, hstream⟩, hhmAlg, hiv,
      hbnA, hbnE, hbnM, hbnR, hecK, hpQ, hpP, hpR, hmem, hinputs, hbusReads⟩
    refine ⟨⟨t.rsa, t.ecD, t.hmI, t.hmO, t.mem⟩, ?_, hmem⟩
    cases s
    cases t
    cases hcmd; cases hstatus; cases herr; cases hie; cases houtlen; cases hmsglen; cases hkeylen; cases hcurve
    cases hnbits; cases hhst; cases htotlen; cases hstream; cases hhmAlg; cases hiv; cases hbnA; cases hbnE; cases hbnM
    cases hbnR; cases hecK; cases hpQ; cases hpP; cases hpR; cases hinputs; cases hbusReads
    rfl
  · rintro ⟨k, rfl, hk⟩
    exact sameButSecrets_withSecrets hk

theorem sameButSecrets_refl (s : State) : sameButSecrets s s := sameButSecrets_iff.2 ⟨⟨_, _, _, _, _⟩, rfl, fun _ _ => rfl⟩

/-! Memory. -/

theorem agreeOutsideKey_clear {m n : Memory} (h : agreeOutsideKey m n) (a l : Nat) :
    agreeOutsideKey (Memory.clear m a l) (Memory.clear n a l) := fun x hx => by
  rw [read_clear, read_clear, h x hx]

theorem agreeOutsideKey_writeBytes {m n : Memory} (h : agreeOutsideKey m n) (a : Nat) (bs : List Byte) :
    agreeOutsideKey (Memory.writeBytes m a bs) (Memory.writeBytes n a bs) := fun x hx => by
  rw [read_writeBytes, read_writeBytes, h x hx]

/-- MSG lies outside KEY (10_state.md R31). -/
theorem not_inKey_of_inMsg {a : Nat} (h : inMsg a) : ¬ inKey a := by
  unfold inMsg msgBase at h
  unfold inKey keyBase Config.keyCap
  omega

section
variable {s t : State} (h : sameButSecrets s t)
include h

theorem msgPrefix_congr {n : Nat} (hn : n ≤ Config.msgCap) : msgPrefix t n = msgPrefix s n := by
  obtain ⟨k, rfl, hk⟩ := sameButSecrets_iff.1 h
  exact readBytes_congr _ _ _ _ fun x hlo hhi => hk x (not_inKey_of_inMsg ⟨hlo, by omega⟩)

theorem msgBytes_congr (hn : s.msglen.toNat ≤ Config.msgCap) : msgBytes t = msgBytes s := by
  obtain ⟨k, rfl, -⟩ := sameButSecrets_iff.1 h
  exact msgPrefix_congr h hn

/-! The shared operations. -/

theorem setOut_sameButSecrets (bytes : List Byte) : sameButSecrets (setOut bytes s) (setOut bytes t) := by
  obtain ⟨k, rfl, hk⟩ := sameButSecrets_iff.1 h
  exact sameButSecrets_iff.2 ⟨{ k with mem := (setOut bytes (withSecrets k s)).mem }, rfl,
    agreeOutsideKey_writeBytes (agreeOutsideKey_clear hk _ _) _ _⟩

theorem setBnR_sameButSecrets (v : Nat) : sameButSecrets (setBnR v s) (setBnR v t) := by
  obtain ⟨k, rfl, hk⟩ := sameButSecrets_iff.1 h
  exact sameButSecrets_iff.2 ⟨k, rfl, hk⟩

theorem setPointR_sameButSecrets (p : Point) : sameButSecrets (setPointR p s) (setPointR p t) := by
  obtain ⟨k, rfl, hk⟩ := sameButSecrets_iff.1 h
  exact sameButSecrets_iff.2 ⟨k, rfl, hk⟩

theorem setPointP_sameButSecrets (p : Point) : sameButSecrets (setPointP p s) (setPointP p t) := by
  obtain ⟨k, rfl, hk⟩ := sameButSecrets_iff.1 h
  exact sameButSecrets_iff.2 ⟨k, rfl, hk⟩

theorem setStream_sameButSecrets (w : HashWords) (n : BitVec 64) (m : StreamMode) :
    sameButSecrets { s with hst := w, totlen := n, stream := m } { t with hst := w, totlen := n, stream := m } := by
  obtain ⟨k, rfl, hk⟩ := sameButSecrets_iff.1 h
  exact sameButSecrets_iff.2 ⟨k, rfl, hk⟩

theorem closeStream_sameButSecrets : sameButSecrets (closeStream s) (closeStream t) := setStream_sameButSecrets h _ _ _

/-- Two contexts under one algorithm, whatever keys they hold, differ in secrets only. -/
theorem setContext_sameButSecrets (a : HashAlg) (i o i' o' : HashWords) :
    sameButSecrets { s with hmI := i, hmO := o, hmAlg := some a } { t with hmI := i', hmO := o', hmAlg := some a } := by
  obtain ⟨k, rfl, hk⟩ := sameButSecrets_iff.1 h
  exact sameButSecrets_iff.2 ⟨{ k with hmI := i', hmO := o' }, rfl, hk⟩

theorem zeroizeData_sameButSecrets : sameButSecrets (zeroizeData s) (zeroizeData t) := by
  obtain ⟨k, rfl, -⟩ := sameButSecrets_iff.1 h
  exact sameButSecrets_refl (zeroizeData s)

theorem clearResults_sameButSecrets (l : ResultLocs) : sameButSecrets (clearResults l s) (clearResults l t) := by
  cases l with
  | none => exact h
  | out => exact setOut_sameButSecrets h []
  | bnR => exact setBnR_sameButSecrets h 0
  | pointR => exact setPointR_sameButSecrets h zeroPoint

theorem endNormal_sameButSecrets : sameButSecrets (endNormal s) (endNormal t) := by
  obtain ⟨k, rfl, hk⟩ := sameButSecrets_iff.1 h
  exact sameButSecrets_iff.2 ⟨k, rfl, hk⟩

theorem raiseFault_sameButSecrets (c : FaultCode) (l : ResultLocs) :
    sameButSecrets (raiseFault c l s) (raiseFault c l t) := by
  obtain ⟨k, hk, hm⟩ := sameButSecrets_iff.1 (clearResults_sameButSecrets h l)
  obtain ⟨j, rfl, -⟩ := sameButSecrets_iff.1 h
  exact sameButSecrets_iff.2 ⟨k, by unfold raiseFault; rw [hk]; rfl, hm⟩

end

/-! Results of a command before its end. -/

/-- Two results that are the same fault, or states that differ in secrets only. -/
def sameResult (x y : Except FaultCode State) : Prop :=
  match x, y with
  | .ok s, .ok t => sameButSecrets s t
  | .error c, .error d => c = d
  | _, _ => False

/-- Two commands that begin with the same check or selection have the same result if what follows its success has. -/
theorem sameResult_bind {α : Type} {x : Except FaultCode α} {f g : α → Except FaultCode State}
    (h : ∀ a, x = .ok a → sameResult (f a) (g a)) : sameResult (x >>= f) (x >>= g) := by
  cases x with
  | error c => exact rfl
  | ok a => exact h a rfl

theorem sameResult_faultIf {p : Prop} [Decidable p] {c : FaultCode} {f g : Unit → Except FaultCode State}
    (h : ¬ p → sameResult (f ()) (g ())) : sameResult (faultIf p c >>= f) (faultIf p c >>= g) :=
  sameResult_bind fun _ hok => h (faultIf_ok.1 hok)

theorem finish_sameOutcome {s t : State} (h : sameButSecrets s t) (l : ResultLocs) {x y : Except FaultCode State}
    (hr : sameResult x y) : sameOutcome (finish l s x) (finish l t y) := by
  cases x with
  | ok u => cases y with
    | ok v => exact endNormal_sameButSecrets hr
    | error d => exact hr.elim
  | error c => cases y with
    | ok v => exact hr.elim
    | error d =>
      obtain rfl : c = d := hr
      exact raiseFault_sameButSecrets h c l

theorem withHash_sameOutcome {s t : State} (h : sameButSecrets s t) (alg : BitVec 4)
    {f g : HashAlg → Host.Outcome State Fault Refusal} (hr : ∀ a, sameOutcome (f a) (g a)) :
    sameOutcome (withHash alg s f) (withHash alg t g) := by
  cases ha : selectHash alg with
  | none =>
    rw [withHash_none ha, withHash_none ha]
    exact raiseFault_sameButSecrets h _ _
  | some a =>
    rw [withHash_some ha, withHash_some ha]
    exact hr a

end Sys2Proof.Machine
end

