-- ==== Sys2Proof/Proofs/SecretFreeCommands.lean ====
section
/-! The commands that read no secret, and HMKEY, one lemma each: obligation O59. In every proof the second state is the
first with its secrets replaced, so the checks and operands outside MSG are the same by definition. -/

namespace Sys2Proof.Machine

section
variable {s t : State} (h : sameButSecrets s t)
include h

/-! System commands. -/

theorem execNop_sameOutcome : sameOutcome (execNop s) (execNop t) := finish_sameOutcome h .none h

theorem execZeroize_sameOutcome : sameOutcome (execZeroize s) (execZeroize t) :=
  finish_sameOutcome h .none (zeroizeData_sameButSecrets h)

/-! Hash commands: their message is within MSG once the length check has passed. -/

theorem execHinit_sameOutcome (alg : BitVec 4) : sameOutcome (execHinit alg s) (execHinit alg t) :=
  withHash_sameOutcome h alg fun _ => finish_sameOutcome h .none (setStream_sameButSecrets h _ _ _)

theorem execHupdate_sameOutcome : sameOutcome (execHupdate s) (execHupdate t) := by
  unfold execHupdate
  have hmsg := msgBytes_congr h
  obtain ⟨k, rfl, -⟩ := sameButSecrets_iff.1 h
  refine finish_sameOutcome h .none (sameResult_bind fun a _ => sameResult_faultIf fun hlen =>
    sameResult_faultIf fun _ => ?_)
  rw [hmsg (by omega)]
  exact setStream_sameButSecrets h _ _ _

theorem execHfinal_sameOutcome : sameOutcome (execHfinal s) (execHfinal t) := by
  unfold execHfinal
  have hmsg := msgBytes_congr h
  obtain ⟨k, rfl, -⟩ := sameButSecrets_iff.1 h
  refine finish_sameOutcome h .out (sameResult_bind fun a _ => sameResult_faultIf fun hlen =>
    sameResult_faultIf fun _ => ?_)
  rw [hmsg (by omega)]
  exact closeStream_sameButSecrets (setOut_sameButSecrets h _)

theorem execHcomp_sameOutcome (alg : BitVec 4) : sameOutcome (execHcomp alg s) (execHcomp alg t) := by
  refine withHash_sameOutcome h alg fun a => ?_
  have hblock : blockBytes a ≤ Config.msgCap := (blockBytes_le a).trans (by decide)
  rw [msgPrefix_congr h hblock]
  obtain ⟨k, rfl, -⟩ := sameButSecrets_iff.1 h
  exact finish_sameOutcome h .none (sameResult_faultIf fun _ => setStream_sameButSecrets h _ _ _)

theorem execHash_sameOutcome (alg : BitVec 4) : sameOutcome (execHash alg s) (execHash alg t) := by
  unfold execHash
  have hmsg := msgBytes_congr h
  obtain ⟨k, rfl, -⟩ := sameButSecrets_iff.1 h
  refine withHash_sameOutcome h alg fun a => finish_sameOutcome h .out (sameResult_faultIf fun hlen => ?_)
  rw [hmsg (by omega)]
  exact closeStream_sameButSecrets (setOut_sameButSecrets h _)

/-- HMKEY reads KEY, and all it computes from it are the two hidden halves of the context (10_state.md R50). -/
theorem execHmkey_sameOutcome (alg : BitVec 4) : sameOutcome (execHmkey alg s) (execHmkey alg t) := by
  unfold execHmkey
  obtain ⟨k, rfl, -⟩ := sameButSecrets_iff.1 h
  exact withHash_sameOutcome h alg fun a => finish_sameOutcome h .none (sameResult_faultIf fun _ =>
    closeStream_sameButSecrets (setContext_sameButSecrets h a _ _ _ _))

/-! Big-integer commands. -/

theorem execModexp_sameOutcome : sameOutcome (execModexp s) (execModexp t) := by
  unfold execModexp
  obtain ⟨k, rfl, -⟩ := sameButSecrets_iff.1 h
  exact finish_sameOutcome h .bnR (sameResult_faultIf fun _ => setBnR_sameButSecrets h _)

theorem execModinv_sameOutcome : sameOutcome (execModinv s) (execModinv t) := by
  unfold execModinv
  obtain ⟨k, rfl, -⟩ := sameButSecrets_iff.1 h
  exact finish_sameOutcome h .bnR (sameResult_faultIf fun _ => sameResult_faultIf fun _ => setBnR_sameButSecrets h _)

/-! Curve commands. -/

theorem execEcdbl_sameOutcome : sameOutcome (execEcdbl s) (execEcdbl t) := by
  unfold execEcdbl
  obtain ⟨k, rfl, -⟩ := sameButSecrets_iff.1 h
  exact finish_sameOutcome h .pointR (sameResult_bind fun _ _ => sameResult_bind fun _ _ =>
    setPointR_sameButSecrets h _)

theorem execEcadd_sameOutcome : sameOutcome (execEcadd s) (execEcadd t) := by
  unfold execEcadd
  obtain ⟨k, rfl, -⟩ := sameButSecrets_iff.1 h
  exact finish_sameOutcome h .pointR (sameResult_bind fun _ _ => sameResult_bind fun _ _ => sameResult_bind fun _ _ =>
    setPointR_sameButSecrets h _)

theorem execEcmul_sameOutcome : sameOutcome (execEcmul s) (execEcmul t) := by
  unfold execEcmul
  obtain ⟨k, rfl, -⟩ := sameButSecrets_iff.1 h
  exact finish_sameOutcome h .pointR (sameResult_bind fun _ _ => sameResult_bind fun _ _ =>
    setPointR_sameButSecrets h _)

theorem execEcaff_sameOutcome : sameOutcome (execEcaff s) (execEcaff t) := by
  unfold execEcaff
  obtain ⟨k, rfl, -⟩ := sameButSecrets_iff.1 h
  exact finish_sameOutcome h .pointR (sameResult_bind fun _ _ => sameResult_bind fun _ _ => sameResult_faultIf fun _ =>
    setPointR_sameButSecrets h _)

theorem execEcldg_sameOutcome : sameOutcome (execEcldg s) (execEcldg t) := by
  unfold execEcldg
  obtain ⟨k, rfl, -⟩ := sameButSecrets_iff.1 h
  exact finish_sameOutcome h .none (sameResult_bind fun _ _ => setPointP_sameButSecrets h _)

end

/-- Settles O59, one command at a time. -/
theorem secretFreeCommandsLeakNothing : Obligations.SecretFreeCommandsLeakNothing := by
  unfold Obligations.SecretFreeCommandsLeakNothing
  intro i s t hi h
  cases i with
  | nop => exact execNop_sameOutcome h
  | zeroize => exact execZeroize_sameOutcome h
  | hinit alg => exact execHinit_sameOutcome h alg
  | hupdate => exact execHupdate_sameOutcome h
  | hfinal => exact execHfinal_sameOutcome h
  | hcomp alg => exact execHcomp_sameOutcome h alg
  | hash alg => exact execHash_sameOutcome h alg
  | hmkey alg => exact execHmkey_sameOutcome h alg
  | modexp => exact execModexp_sameOutcome h
  | modinv => exact execModinv_sameOutcome h
  | ecdbl => exact execEcdbl_sameOutcome h
  | ecadd => exact execEcadd_sameOutcome h
  | ecmul => exact execEcmul_sameOutcome h
  | ecaff => exact execEcaff_sameOutcome h
  | ecldg => exact execEcldg_sameOutcome h
  | hminit | hmfinal | hmac | tdesd | rc2d | modcrt | rsasign | ecsign => simp [showsNoSecret] at hi

end Sys2Proof.Machine
end

