-- ==== Sys2Proof/Proofs/ResultLengths.lean ====
section
/-! The lengths of the byte strings that commands write to OUT: each fits into MSG_CAP bytes (10_state.md R49). -/

namespace Sys2Proof.Machine

theorem digestBytes_le_msgCap (a : HashAlg) : digestBytes a ≤ Config.msgCap := by cases a <;> decide

/-! Signatures of RSA: `k = ceil(NBITS / 8)` bytes (45_rsa.md R323). -/

theorem modulusBytes_le_msgCap {s : State} (h : s.nbits.toNat ≤ Config.bnBits) : modulusBytes s ≤ Config.msgCap := by
  unfold modulusBytes ceilDiv
  unfold Config.bnBits at h
  unfold Config.msgCap
  omega

/-! Plaintext of the ciphers: as long as the ciphertext, or shorter after unpadding (42_blockcipher.md R201, R202). -/

@[simp] theorem length_cipherBlocks (n : Nat) (bs : List Byte) : (cipherBlocks n bs).length = n := by
  induction n generalizing bs with
  | zero => rfl
  | succ n ih => simp [cipherBlocks, ih]

@[simp] theorem length_cbcDec (d : DWord → DWord) (v : DWord) (l : List DWord) : (cbcDec d v l).length = l.length := by
  induction l generalizing v with
  | nil => rfl
  | cons c cs ih => simp [cbcDec, ih]

@[simp] theorem length_blocksBytes (l : List DWord) : (blocksBytes l).length = 8 * l.length := by
  induction l with
  | nil => rfl
  | cons x l ih =>
    simp only [blocksBytes, List.map_cons, List.flatten_cons, List.length_append, length_beBytes, List.length_cons] at *
    omega

theorem length_le_of_unpad {p q : List Byte} (h : unpad p = .ok q) : q.length ≤ p.length := by
  unfold unpad at h
  dsimp only at h
  split_ifs at h
  injection h with h
  simp [← h]

/-- What a cipher writes to OUT is at most as long as the plaintext, unpadded or not (42_blockcipher.md R214, R226). -/
theorem length_le_of_plainOut {fin : Bool} {p q : List Byte} (h : plainOut fin p = .ok q) : q.length ≤ p.length := by
  cases fin with
  | false =>
    injection h with h
    rw [h]
  | true => exact length_le_of_unpad h

/-! Signatures of ECDSA: two numbers below the order `n`, at most 48 bytes each (46_ecdsa.md R344, R346). -/

theorem bitlen_le_of_lt {v n : Nat} (h : v < 256 ^ n) : bitlen v ≤ 8 * n := by
  unfold bitlen
  split
  · omega
  · next hv => exact (Nat.log2_lt hv).2 (by rwa [pow_mul])

theorem Curve.n_pos (c : Curve) : 0 < c.n := by cases c <;> decide

theorem Curve.n_lt (c : Curve) : c.n < 256 ^ Config.ecBytes := by cases c <;> decide

theorem acceptCandidate_lt {c : Curve} {d e k : Nat} {rs : Nat × Nat} (h : acceptCandidate c d e k = some rs) :
    rs.1 < c.n ∧ rs.2 < c.n := by
  unfold acceptCandidate at h
  dsimp only at h
  split_ifs at h
  injection h with h
  rw [← h]
  exact ⟨Nat.mod_lt _ c.n_pos, Nat.mod_lt _ c.n_pos⟩

/-- What the loop answers is what the test answered for one of the candidates. -/
theorem signLoop_accepted {a : HashAlg} {qlen rlen : Nat} {accept : Nat → Option (Nat × Nat)} {fuel : Nat} {g : Drbg}
    {rs : Nat × Nat} (h : signLoop a qlen rlen accept fuel g = some rs) : ∃ k, accept k = some rs := by
  induction fuel generalizing g with
  | zero => simp [signLoop] at h
  | succ fuel ih =>
    cases hk : accept (nextCandidate a qlen rlen g).1 with
    | none => exact ih (by simpa only [signLoop, hk] using h)
    | some x => exact ⟨_, hk.trans (by simpa only [signLoop, hk] using h)⟩

theorem ecdsaPair_lt {a : HashAlg} {c : Curve} {h1 : List Byte} {d : Nat} {rs : Nat × Nat}
    (h : ecdsaPair a c h1 d = some rs) : rs.1 < c.n ∧ rs.2 < c.n := by
  obtain ⟨k, hk⟩ := signLoop_accepted h
  exact acceptCandidate_lt hk

theorem length_derInt_le {v : Nat} (h : v < 256 ^ Config.ecBytes) : (derInt v).length ≤ 51 := by
  have hbits := bitlen_le_of_lt h
  have hbytes : ceilDiv (bitlen v) 8 ≤ 48 := by
    unfold ceilDiv
    unfold Config.ecBytes Config.ecBits at hbits
    omega
  simp only [derInt, List.length_cons]
  split <;> simp <;> omega

theorem length_derSig (r s : Nat) : (derSig r s).length = (derInt r).length + (derInt s).length + 2 := by
  simp [derSig]

theorem length_ecdsaSign_le {a : HashAlg} {c : Curve} {h1 : List Byte} {d : Nat} {sig : List Byte}
    (h : ecdsaSign a c h1 d = .ok sig) : sig.length ≤ Config.msgCap := by
  unfold ecdsaSign at h
  split at h
  · cases h
  · next rs hrs =>
    injection h with h
    obtain ⟨hr, hs⟩ := ecdsaPair_lt hrs
    have hlenr := length_derInt_le (hr.trans c.n_lt)
    have hlens := length_derInt_le (hs.trans c.n_lt)
    rw [← h, length_derSig]
    unfold Config.msgCap
    omega

end Sys2Proof.Machine
end

