-- ==== Sys2Proof/Proofs/CommandEffect.lean ====
section
/-! What a command can do, once for all commands: it faults, or it ends normally with new data. Neither its choice nor
the data depend on STATUS or ERR (10_state.md R37, R38), and legal data stays legal. -/

namespace Sys2Proof.Machine

/-- The state `s` with the given flags and fault code in place of its own. -/
def withFlags (f : Status) (e : BitVec 8) (s : State) : State := { s with status := f, err := e }

/-- The part of `Legal` that does not speak of STATUS and ERR: what a command's results have to meet. -/
def legalData (s : State) : Prop := legalMemory s ∧ legalOut s ∧ legalStream s

/-! The shared updates keep data legal. -/

theorem legalData_of_reset : legalData State.reset :=
  ⟨⟨wf_nil, by simp [State.reset]⟩, ⟨by decide, fun _ _ => rfl⟩, nofun, nofun, nofun⟩

/-- A result that fits into OUT, with zeros after it (10_state.md R49). -/
theorem legalData_setOut {s : State} {bytes : List Byte} (hlen : bytes.length ≤ Config.msgCap) (h : legalData s) :
    legalData (setOut bytes s) := by
  obtain ⟨⟨hwf, hin⟩, -, hstream⟩ := h
  have houtlen : (BitVec.ofNat 32 bytes.length).toNat = bytes.length := by
    unfold Config.msgCap at hlen
    rw [BitVec.toNat_ofNat]
    omega
  have hcells : ∀ c ∈ (setOut bytes s).mem, inKey c.1 ∨ inMsg c.1 ∨ inOut c.1 := by
    intro c hc
    rcases mem_writeBytes hc with ⟨hlo, hhi⟩ | hc
    · exact .inr (.inr ⟨hlo, by omega⟩)
    · exact hin c (List.mem_of_mem_filter hc)
  refine ⟨⟨wf_writeBytes (wf_clear hwf _ _) _ _, hcells⟩, ⟨?_, fun j hj => ?_⟩, hstream⟩
  · rwa [setOut_outlen, houtlen]
  · rw [setOut_outlen, houtlen] at hj
    rw [setOut_mem, read_writeBytes, if_neg (by omega), read_clear]
    split_ifs with hcleared
    · rfl
    · refine read_eq_zero fun c hc => ?_
      have hbuf := hin c hc
      unfold inKey inMsg inOut keyBase msgBase outBase Config.keyCap Config.msgCap at hbuf
      unfold outBase Config.msgCap at hcleared
      unfold outBase
      omega

theorem legalData_closeStream {s : State} (h : legalData s) : legalData (closeStream s) := by
  obtain ⟨hmem, hout, -, hctx, -⟩ := h
  exact ⟨hmem, hout, nofun, hctx, nofun⟩

/-- The results of a digest or a signature: bytes in OUT, and the stream closed (40_hash.md R159). -/
theorem legalData_closeStream_setOut {s : State} {bytes : List Byte} (hlen : bytes.length ≤ Config.msgCap)
    (h : legalData s) : legalData (closeStream (setOut bytes s)) := legalData_closeStream (legalData_setOut hlen h)

theorem legalData_setPlain {s : State} {a : HashAlg} (ha : hasAlgorithm a) (w : HashWords) (n : BitVec 64)
    (h : legalData s) : legalData { s with hst := w, totlen := n, stream := .plain a } := by
  obtain ⟨hmem, hout, -, hctx, -⟩ := h
  refine ⟨hmem, hout, fun b hb => ?_, hctx, nofun⟩
  obtain rfl : a = b := by simpa [streamAlg] using hb
  exact ha

/-- An HMAC stream under the algorithm of the context (41_hmac.md R186). -/
theorem legalData_setHmac {s : State} {a : HashAlg} (ha : s.hmAlg = some a) (w : HashWords) (n : BitVec 64)
    (h : legalData s) : legalData { s with hst := w, totlen := n, stream := .hmac a } := by
  obtain ⟨hmem, hout, -, hctx, -⟩ := h
  refine ⟨hmem, hout, fun b hb => ?_, hctx, fun b hb => ?_⟩
  · obtain rfl : a = b := by simpa [streamAlg] using hb
    exact hctx a ha
  · obtain rfl : a = b := by simpa using hb
    exact ha

/-- A new context, with no stream open under the old one (41_hmac.md R185). -/
theorem legalData_setContext {s : State} {a : HashAlg} (ha : hasAlgorithm a) (i o : HashWords) (h : legalData s) :
    legalData (closeStream { s with hmI := i, hmO := o, hmAlg := some a }) := by
  obtain ⟨hmem, hout, -⟩ := h
  refine ⟨hmem, hout, nofun, fun b hb => ?_, nofun⟩
  obtain rfl : a = b := by simpa using hb
  exact ha

theorem legalData_clearResults {s : State} (l : ResultLocs) (h : legalData s) : legalData (clearResults l s) := by
  cases l with
  | none | bnR | pointR => exact h
  | out => exact legalData_setOut (Nat.zero_le _) h

/-- The algorithms that a selector can name are those the core has. -/
theorem hasAlgorithm_of_selectHash {alg : BitVec 4} {a : HashAlg} (h : selectHash alg = some a) : hasAlgorithm a := by
  obtain ⟨-, rfl⟩ | ⟨-, rfl⟩ | ⟨-, rfl⟩ := selectHash_cases h <;> trivial

/-! Results of a command before its end. -/

/-- A computation from `s` that reads no flag: under all flags the same fault, or the same data, legal where that of `s`
is. -/
inductive Computes (x : State → Except FaultCode State) (s : State) : Prop where
  | faults (c : FaultCode) (h : ∀ f e, x (withFlags f e s) = .error c)
  | gives (u : State) (hlegal : legalData s → legalData u) (h : ∀ f e, x (withFlags f e s) = .ok (withFlags f e u))

section
variable {s : State}

theorem Computes.ok (g : State → State) (hlegal : legalData s → legalData (g s))
    (hflags : ∀ f e, g (withFlags f e s) = withFlags f e (g s)) : Computes (fun t => .ok (g t)) s :=
  .gives (g s) hlegal fun f e => congrArg Except.ok (hflags f e)

/-- A check, or a selection that may fault, and then the rest of the command. -/
theorem Computes.bind {α : Type} {y : State → Except FaultCode α} {k : α → State → Except FaultCode State}
    (hy : ∀ f e, y (withFlags f e s) = y s) (hk : ∀ a, y s = .ok a → Computes (k a) s) :
    Computes (fun t => y t >>= fun a => k a t) s := by
  cases hys : y s with
  | error c => exact .faults c fun f e => by simp only [hy, hys]; rfl
  | ok a =>
    cases hk a hys with
    | faults c hc => exact .faults c fun f e => by simp only [hy, hys]; exact hc f e
    | gives u hlegal hu => exact .gives u hlegal fun f e => by simp only [hy, hys]; exact hu f e

theorem Computes.check {p : State → Prop} [∀ t, Decidable (p t)] {c : FaultCode} {k : State → Except FaultCode State}
    (hp : ∀ f e, p (withFlags f e s) = p s) (hk : ¬ p s → Computes k s) :
    Computes (fun t => faultIf (p t) c >>= fun _ => k t) s :=
  .bind (k := fun _ => k) (fun f e => by simp only [faultIf, hp]) fun _ h => hk (faultIf_ok.1 h)

end

/-! Whole commands. -/

/-- A command that from `s`, under all flags, takes the same fault or ends normally with the same data, legal where that
of `s` is. -/
inductive Performs (x : State → Host.Outcome State Fault Refusal) (s : State) : Prop where
  | faults (c : FaultCode) (l : ResultLocs) (h : ∀ f e, x (withFlags f e s) = .next (raiseFault c l (withFlags f e s)))
  | ends (u : State) (hlegal : legalData s → legalData u)
    (h : ∀ f e, x (withFlags f e s) = .next (endNormal (withFlags f e u)))

section
variable {s : State}

theorem Performs.finish {x : State → Except FaultCode State} (l : ResultLocs) (h : Computes x s) :
    Performs (fun t => finish l t (x t)) s := by
  cases h with
  | faults c hc => exact .faults c l fun f e => by simp only [hc, finish_error]
  | gives u hlegal hu => exact .ends u hlegal fun f e => by simp only [hu, finish_ok]

theorem Performs.withHash {alg : BitVec 4} {x : HashAlg → State → Host.Outcome State Fault Refusal}
    (h : ∀ a, hasAlgorithm a → Performs (x a) s) : Performs (fun t => withHash alg t fun a => x a t) s := by
  cases ha : selectHash alg with
  | none => exact .faults .unsupHash .none fun f e => withHash_none ha _ _
  | some a =>
    cases h a (hasAlgorithm_of_selectHash ha) with
    | faults c l hc => exact .faults c l fun f e => (withHash_some ha _ _).trans (hc f e)
    | ends u hlegal hu => exact .ends u hlegal fun f e => (withHash_some ha _ _).trans (hu f e)

end

/-! The part that both block ciphers share: the plaintext is as long as the message, which fits into MSG
(42_blockcipher.md R214, R226). -/

theorem length_cipherPlain (d : DWord → DWord) (s : State) : (cipherPlain d s).length = 8 * (s.msglen.toNat / 8) := by
  simp [cipherPlain]

/-- The block of MSG that IV becomes (42_blockcipher.md R214). -/
def lastBlock (s : State) : DWord :=
  BitVec.ofNat 64 (natBE (Memory.readBytes s.mem (msgBase + (s.msglen.toNat - 8)) 8))

theorem cipherExecute_eq (d : DWord → DWord) (fin : Bool) (s : State) : cipherExecute d fin s =
    plainOut fin (cipherPlain d s) >>= fun q => .ok { setOut q s with iv := lastBlock s } := by
  cases fin <;> rfl

theorem computes_cipherExecute {s : State} {d : State → DWord → DWord} (fin : Bool)
    (hd : ∀ f e, d (withFlags f e s) = d s) (hlen : checkCipherLength s = .ok ()) :
    Computes (fun t => cipherExecute (d t) fin t) s := by
  have hmsg : s.msglen.toNat ≤ Config.msgCap := by
    have := faultIf_ok.1 hlen
    omega
  have hfits {q : List Byte} (hq : plainOut fin (cipherPlain (d s) s) = .ok q) : q.length ≤ Config.msgCap := by
    have := length_le_of_plainOut hq
    have := length_cipherPlain (d s) s
    omega
  have hplain f e : plainOut fin (cipherPlain (d (withFlags f e s)) (withFlags f e s))
      = plainOut fin (cipherPlain (d s) s) := by
    rw [hd]
    rfl
  simp only [cipherExecute_eq]
  exact .bind (y := fun t => plainOut fin (cipherPlain (d t) t)) hplain fun q hq =>
    .ok (fun t => { setOut q t with iv := lastBlock t }) (legalData_setOut (hfits hq)) fun _ _ => rfl

/-! System commands (47_system.md). -/

section
variable (s : State)

theorem performs_nop : Performs execNop s :=
  .finish .none (.ok id id fun _ _ => rfl)

theorem performs_zeroize : Performs execZeroize s :=
  .finish .none (.ok zeroizeData (fun _ => legalData_of_reset) fun _ _ => rfl)

/-! Hash commands (40_hash.md). -/

theorem performs_hinit (alg : BitVec 4) : Performs (execHinit alg) s :=
  .withHash fun _ ha => .finish .none (.ok _ (legalData_setPlain ha _ _) fun _ _ => rfl)

theorem performs_hupdate : Performs execHupdate s :=
  .finish .none (.bind (fun _ _ => rfl) fun _ _ => .check (fun _ _ => rfl) fun _ => .check (fun _ _ => rfl) fun _ =>
    .ok _ id fun _ _ => rfl)

theorem performs_hfinal : Performs execHfinal s :=
  .finish .out (.bind (fun _ _ => rfl) fun _ _ => .check (fun _ _ => rfl) fun _ => .check (fun _ _ => rfl) fun _ =>
    .ok _ (legalData_closeStream_setOut (by simp [digestBytes_le_msgCap])) fun _ _ => rfl)

theorem performs_hcomp (alg : BitVec 4) : Performs (execHcomp alg) s :=
  .withHash fun _ _ => .finish .none (.check (fun _ _ => rfl) fun _ => .ok _ id fun _ _ => rfl)

theorem performs_hash (alg : BitVec 4) : Performs (execHash alg) s :=
  .withHash fun _ _ => .finish .out (.check (fun _ _ => rfl) fun _ =>
    .ok _ (legalData_closeStream_setOut (by simp [digestBytes_le_msgCap])) fun _ _ => rfl)

/-! HMAC commands (41_hmac.md). -/

theorem performs_hmkey (alg : BitVec 4) : Performs (execHmkey alg) s :=
  .withHash fun _ ha => .finish .none (.check (fun _ _ => rfl) fun _ =>
    .ok _ (legalData_setContext ha _ _) fun _ _ => rfl)

theorem performs_hminit : Performs execHminit s :=
  .finish .none (.bind (fun _ _ => rfl) fun _ ha => .ok _ (legalData_setHmac (hmacContext_ok.1 ha) _ _) fun _ _ => rfl)

theorem performs_hmfinal : Performs execHmfinal s :=
  .finish .out (.bind (fun _ _ => rfl) fun _ _ => .check (fun _ _ => rfl) fun _ => .check (fun _ _ => rfl) fun _ =>
    .ok _ (legalData_closeStream_setOut (by simp [digestBytes_le_msgCap])) fun _ _ => rfl)

theorem performs_hmac (alg : BitVec 4) : Performs (execHmac alg) s :=
  .withHash fun _ _ => .finish .out (.check (fun _ _ => rfl) fun _ => .check (fun _ _ => rfl) fun _ =>
    .ok _ (legalData_closeStream_setOut (by simp [digestBytes_le_msgCap])) fun _ _ => rfl)

/-! Block ciphers (42_blockcipher.md). -/

theorem performs_tdesd (k2 fin : Bool) : Performs (execTdesd k2 fin) s :=
  .finish .out (.check (fun _ _ => rfl) fun _ => .bind (fun _ _ => rfl) fun _ hlen =>
    computes_cipherExecute (d := tdesFunction k2) fin (fun _ _ => rfl) hlen)

theorem performs_rc2d (e128 fin : Bool) : Performs (execRc2d e128 fin) s :=
  .finish .out (.check (fun _ _ => rfl) fun _ => .bind (fun _ _ => rfl) fun _ hlen =>
    computes_cipherExecute (d := rc2Function e128) fin (fun _ _ => rfl) hlen)

/-! Big-integer commands (43_bigint.md). -/

theorem performs_modexp : Performs execModexp s :=
  .finish .bnR (.check (fun _ _ => rfl) fun _ => .ok _ id fun _ _ => rfl)

theorem performs_modinv : Performs execModinv s :=
  .finish .bnR (.check (fun _ _ => rfl) fun _ => .check (fun _ _ => rfl) fun _ => .ok _ id fun _ _ => rfl)

theorem performs_modcrt : Performs execModcrt s :=
  .finish .bnR (.bind (fun _ _ => rfl) fun _ _ => .ok _ id fun _ _ => rfl)

/-! Curve commands (44_ecpoint.md). -/

theorem performs_ecdbl : Performs execEcdbl s :=
  .finish .pointR (.bind (fun _ _ => rfl) fun _ _ => .bind (fun _ _ => rfl) fun _ _ => .ok _ id fun _ _ => rfl)

theorem performs_ecadd : Performs execEcadd s :=
  .finish .pointR (.bind (fun _ _ => rfl) fun _ _ => .bind (fun _ _ => rfl) fun _ _ => .bind (fun _ _ => rfl) fun _ _ =>
    .ok _ id fun _ _ => rfl)

theorem performs_ecmul : Performs execEcmul s :=
  .finish .pointR (.bind (fun _ _ => rfl) fun _ _ => .bind (fun _ _ => rfl) fun _ _ => .ok _ id fun _ _ => rfl)

theorem performs_ecaff : Performs execEcaff s :=
  .finish .pointR (.bind (fun _ _ => rfl) fun _ _ => .bind (fun _ _ => rfl) fun _ _ => .check (fun _ _ => rfl) fun _ =>
    .ok _ id fun _ _ => rfl)

theorem performs_ecldg : Performs execEcldg s :=
  .finish .none (.bind (fun _ _ => rfl) fun _ _ => .ok _ id fun _ _ => rfl)

/-! Signers (45_rsa.md, 46_ecdsa.md). -/

theorem performs_rsasign (alg : BitVec 4) (dg : Bool) : Performs (execRsasign alg dg) s :=
  .withHash fun _ _ => .finish .out (.bind (fun _ _ => rfl) fun _ _ => .check (fun _ _ => rfl) fun hnbits =>
    .bind (fun _ _ => rfl) fun _ _ => .check (fun _ _ => rfl) fun _ => .check (fun _ _ => rfl) fun _ =>
    have hlen : modulusBytes s ≤ Config.msgCap := modulusBytes_le_msgCap (by omega)
    .ok _ (legalData_closeStream_setOut ((length_beBytes _ _).trans_le hlen)) fun _ _ => rfl)

theorem performs_ecsign (alg : BitVec 4) (dg : Bool) : Performs (execEcsign alg dg) s :=
  .withHash fun _ _ => .finish .out (.bind (fun _ _ => rfl) fun _ _ => .bind (fun _ _ => rfl) fun _ _ =>
    .check (fun _ _ => rfl) fun _ => .bind (fun _ _ => rfl) fun _ hsig =>
    .ok _ (legalData_closeStream_setOut (length_ecdsaSign_le hsig)) fun _ _ => rfl)

/-- Everything a command can do. -/
theorem performs_exec (i : Instr) : Performs (exec i) s := by
  cases i with
  | nop => exact performs_nop s
  | zeroize => exact performs_zeroize s
  | hinit alg => exact performs_hinit s alg
  | hupdate => exact performs_hupdate s
  | hfinal => exact performs_hfinal s
  | hcomp alg => exact performs_hcomp s alg
  | hash alg => exact performs_hash s alg
  | hmkey alg => exact performs_hmkey s alg
  | hminit => exact performs_hminit s
  | hmfinal => exact performs_hmfinal s
  | hmac alg => exact performs_hmac s alg
  | tdesd k2 fin => exact performs_tdesd s k2 fin
  | rc2d e128 fin => exact performs_rc2d s e128 fin
  | modexp => exact performs_modexp s
  | modinv => exact performs_modinv s
  | modcrt => exact performs_modcrt s
  | ecdbl => exact performs_ecdbl s
  | ecadd => exact performs_ecadd s
  | ecmul => exact performs_ecmul s
  | ecaff => exact performs_ecaff s
  | ecldg => exact performs_ecldg s
  | rsasign alg dg => exact performs_rsasign s alg dg
  | ecsign alg dg => exact performs_ecsign s alg dg

end

end Sys2Proof.Machine
end

