-- ==== Sys2Proof/Proofs/BusWindow.lean ====
section
/-! The register window: where KEY, MSG and OUT stand in it. -/

namespace Sys2Proof.Machine

/-- A location that stands for a byte of KEY, MSG or OUT. -/
def Loc.isBuffer : Loc → Bool
  | .key _ | .msg _ | .out _ => true
  | _ => false

/-- What may stand at a window offset: a byte of a buffer at its own offsets, and nothing of a buffer elsewhere. -/
inductive MayStandAt (off : Nat) : Loc → Prop where
  | key (h : inKey off) : MayStandAt off (.key off)
  | msg (h : inMsg off) : MayStandAt off (.msg off)
  | out (h : inOut off) : MayStandAt off (.out off)
  | register {l : Loc} (h : l.isBuffer = false) : MayStandAt off l

theorem controlLoc_mayStandAt (off j : Nat) : MayStandAt off (controlLoc j) := by
  unfold controlLoc
  split <;> exact .register rfl

theorem curveLoc_mayStandAt (off : Nat) : MayStandAt off (curveLoc off) := by
  unfold curveLoc
  generalize off - 0x400 = d
  cases curveSlot (d / 0x40) with
  | none => exact .register rfl
  | some r => exact iteInduction (fun _ => .register rfl) fun _ => .register rfl

/-- `wideLoc` is unfolded as a function, before it is applied: the kernel would otherwise evaluate `off - 0x1000` one by
one, and recurse too deep. -/
theorem wideLoc_mayStandAt (off : Nat) : MayStandAt off (wideLoc off) := by
  suffices h : ∀ f, f = wideLoc → MayStandAt off (f off) from h _ rfl
  intro f hf
  delta wideLoc at hf
  subst hf
  beta_reduce
  generalize off - 0x1000 = d
  cases wideSlot (d / 0x200) with
  | none => exact .register rfl
  | some r => exact iteInduction (fun _ => .register rfl) fun _ => .register rfl

/-- The register map places the buffers at their own offsets (10_state.md R31). -/
theorem locate_mayStandAt (off : Nat) : MayStandAt off (locate off) := by
  have reserved : MayStandAt off .reserved := .register rfl
  unfold locate
  refine iteInduction (fun _ => controlLoc_mayStandAt _ _) fun _ => ?_
  refine iteInduction (fun _ => reserved) fun _ => ?_
  refine iteInduction (fun _ => .register rfl) fun _ => ?_
  refine iteInduction (fun _ => .register rfl) fun _ => ?_
  refine iteInduction (fun _ => reserved) fun hkey => ?_
  refine iteInduction (fun h => .key ⟨not_lt.1 hkey, h⟩) fun _ => ?_
  refine iteInduction (fun _ => reserved) fun _ => ?_
  refine iteInduction (fun _ => curveLoc_mayStandAt _) fun _ => ?_
  refine iteInduction (fun _ => reserved) fun _ => ?_
  refine iteInduction (fun _ => wideLoc_mayStandAt _) fun _ => ?_
  refine iteInduction (fun _ => reserved) fun hmsg => ?_
  refine iteInduction (fun h => .msg ⟨not_lt.1 hmsg, h⟩) fun _ => ?_
  refine iteInduction (fun _ => reserved) fun hout => ?_
  exact iteInduction (fun h => .out ⟨not_lt.1 hout, h⟩) fun _ => reserved

end Sys2Proof.Machine
end

