-- ==== Sys2Proof/Proofs/LegalStates.lean ====
section
/-! Legal states: the reset state is one, and each agent's move keeps a state legal: obligations O56 and O57. -/

namespace Sys2Proof.Machine

theorem legal_iff {s : State} : Legal s ↔ legalData s ∧ legalStatus s ∧ legalErr s := by
  unfold Legal legalData
  tauto

/-- Settles O56. -/
theorem resetIsLegal : Obligations.ResetIsLegal := by
  unfold Obligations.ResetIsLegal
  exact legal_iff.2 ⟨legalData_of_reset, nofun, fun _ => rfl, nofun⟩

/-! The core's move. -/

section
variable {s t : State}

theorem legal_endNormal (h : legalData s) : Legal (endNormal s) := legal_iff.2 ⟨h, nofun, fun _ => rfl, nofun⟩

theorem legal_raiseFault (c : FaultCode) (l : ResultLocs) (h : legalData s) : Legal (raiseFault c l s) :=
  legal_iff.2 ⟨legalData_clearResults l h, nofun, nofun, fun _ => ⟨c, rfl⟩⟩

theorem legal_of_performs {x : State → Host.Outcome State Fault Refusal} (hx : Performs x s) (h : legalData s)
    (ht : x s = .next t) : Legal t := by
  cases hx with
  | faults c l hc =>
    obtain rfl : raiseFault c l s = t := Host.Outcome.next.inj ((hc s.status s.err).symm.trans ht)
    exact legal_raiseFault c l h
  | ends u hlegal hu =>
    obtain rfl : endNormal (withFlags s.status s.err u) = t := Host.Outcome.next.inj ((hu s.status s.err).symm.trans ht)
    exact legal_endNormal (hlegal h)

theorem legal_coreStep (h : Legal s) (ht : coreStep s = .next t) : Legal t := by
  have hdata := (legal_iff.1 h).1
  obtain ⟨-, hstep⟩ | ⟨-, i, -, hstep⟩ | ⟨-, c, -, hstep⟩ := coreStep_eq s <;> rw [hstep] at ht
  · obtain rfl : s = t := by simpa using ht
    exact h
  · exact legal_of_performs (performs_exec s i) hdata ht
  · obtain rfl : raiseFault c .none s = t := by simpa using ht
    exact legal_raiseFault c .none hdata

/-! The host's writes. -/

theorem legal_acceptCommand (v : Word) (h : Legal s) : Legal (acceptCommand v s) :=
  legal_iff.2 ⟨(legal_iff.1 h).1, fun _ => ⟨rfl, rfl⟩, fun _ => rfl, nofun⟩

theorem legal_dropWrite (h : Legal s) : Legal (dropWrite s) := h

theorem legal_writeIe (v : Word) (h : Legal s) : Legal (writeIe v s) := h

/-- An acknowledgement clears ERR together with STATUS.ERR (20_memory.md R84). -/
theorem legal_acknowledge (v : Word) (h : Legal s) : Legal (acknowledge v s) := by
  obtain ⟨hdata, hstatus, herr0, herr1⟩ := legal_iff.1 h
  refine legal_iff.2 ⟨hdata, fun hb => ?_, fun he => ?_, fun he => ?_⟩
  · obtain ⟨hdone, herr⟩ := hstatus hb
    simp [hdone, herr]
  · rw [acknowledge_err]
    rw [acknowledge_err_flag] at he
    cases hv : v.getLsbD 2 with
    | false =>
      rw [hv, Bool.not_false, Bool.and_true] at he
      exact herr0 he
    | true => rfl
  · rw [acknowledge_err_flag, Bool.and_eq_true, Bool.not_eq_true'] at he
    obtain ⟨hflag, hv⟩ := he
    rw [acknowledge_err, hv]
    exact herr1 hflag

/-- A bus word written to KEY or MSG stays in its buffer (20_memory.md R85), so OUT is untouched. -/
theorem legal_writeWord {off : Nat} (v : Word) (haligned : off % 4 = 0) (hoff : inKey off ∨ inMsg off) (h : Legal s) :
    Legal { s with mem := Memory.writeWord s.mem off v } := by
  obtain ⟨⟨hwf, hin⟩, ⟨hlen, hzero⟩, hrest⟩ := h
  have hbounds := hoff
  unfold inKey inMsg keyBase msgBase Config.keyCap Config.msgCap at hbounds
  refine ⟨⟨wf_writeWord hwf off v, fun c hc => ?_⟩, ⟨hlen, fun j hj => ?_⟩, hrest⟩
  · rcases mem_writeBytes hc with hc | hc
    · rw [length_beBytes] at hc
      unfold inKey inMsg keyBase msgBase Config.keyCap Config.msgCap
      omega
    · exact hin c hc
  · have hout : outBase + j < off ∨ off + 4 ≤ outBase + j := by
      unfold outBase
      omega
    exact (read_writeWord_other _ _ _ _ hout).trans (hzero j hj)

/-- A host store outside the buffers reaches none of the items that `Legal` speaks of. -/
theorem legal_storeLoc_register {l : Loc} (v : Word) (hl : l.isBuffer = false) (h : Legal s)
    (ht : storeLoc s v l = some t) : Legal t := by
  cases l with
  | key | msg | out => simp [Loc.isBuffer] at hl
  | curveReg r j => cases r <;> cases ht <;> exact h
  | wide r j => cases r <;> cases ht <;> exact h
  | _ => cases ht <;> exact h

theorem legal_storeLoc {off : Nat} (v : Word) (haligned : off % 4 = 0) (h : Legal s)
    (ht : storeLoc s v (locate off) = some t) : Legal t := by
  have hplace := locate_mayStandAt off
  generalize locate off = l at hplace ht
  cases hplace with
  | key hin =>
    cases ht
    exact legal_writeWord v haligned (.inl hin) h
  | msg hin =>
    cases ht
    exact legal_writeWord v haligned (.inr hin) h
  | out => cases ht
  | register hl => exact legal_storeLoc_register v hl h ht

theorem legal_writeData {off : Nat} (v : Word) (haligned : off % 4 = 0) (h : Legal s) :
    Legal (writeData v s (locate off)) := by
  obtain ⟨-, hw⟩ | ⟨-, ⟨t, ht, hw⟩ | ⟨-, hw⟩⟩ := writeData_eq v s (locate off) <;> rw [hw]
  · exact legal_dropWrite h
  · exact legal_storeLoc v haligned h ht
  · exact h

theorem legal_writeCmd (v : Word) (h : Legal s) : Legal (writeCmd v s) :=
  iteInduction (fun _ => legal_dropWrite h) fun _ => legal_acceptCommand v h

theorem legal_memWrite {off : Nat} (v : Word) (haligned : off % 4 = 0) (h : Legal s) : Legal (memWrite off v s) := by
  obtain ⟨-, hw⟩ | ⟨-, hw⟩ | ⟨-, hw⟩ | ⟨-, hw⟩ | hw := memWrite_eq off v s <;> rw [hw]
  · exact legal_writeCmd v h
  · exact legal_acknowledge v h
  · exact legal_writeIe v h
  · exact h
  · exact legal_writeData v haligned h

/-! Every agent. -/

theorem legal_eventStep {e : BusEvent} (h : Legal s) (ht : eventStep e s = .next t) : Legal t := by
  obtain ⟨off, width, -, rfl⟩ | ⟨off, v, -, -, haligned, rfl⟩ | ⟨-, hcore⟩ | ⟨v, -, hcore⟩ | ⟨-, rfl⟩ :=
    eventStep_next ht
  · exact h
  · exact legal_memWrite v haligned h
  · exact legal_coreStep h hcore
  · exact legal_coreStep (legal_acknowledge v h) hcore
  · exact resetIsLegal

end

/-- Settles O57: a step is the core's move or the next event, whoever causes it. -/
theorem stepKeepsLegal : Obligations.StepKeepsLegal := by
  unfold Obligations.StepKeepsLegal
  intro s t h ht
  obtain ⟨-, hstep⟩ | ⟨e, rest, -, hstep⟩ := step_eq s <;> rw [hstep] at ht
  · exact legal_coreStep h ht
  · exact legal_eventStep (s := { s with inputs := rest }) h ht

end Sys2Proof.Machine
end

