-- ==== Sys2Proof/Proofs/ControlWrites.lean ====
section
/-! Writes to CMD, STATUS and IE, and a STATUS write in the step in which the core ends a command: obligations O46 and
O47. -/

namespace Sys2Proof.Machine

/-- Settles O46. -/
theorem controlWrites : Obligations.ControlWrites := by
  unfold Obligations.ControlWrites
  intro s v
  refine ⟨fun hidle => ?_, ?_, rfl⟩
  · have hcmd : memWrite 0x10 v s = writeCmd v s := rfl
    rw [hcmd, writeCmd, hidle]
    rfl
  · have hstatus : memWrite 0x14 v s = acknowledge v s := rfl
    have hclear (flag bit : Bool) : (flag && !bit) = if bit then false else flag := by cases bit <;> simp
    rw [hstatus]
    simp only [acknowledge, hclear]

/-- A pending command performs, be it one that decodes or one that faults in decoding (30_encoding.md R117). -/
theorem performs_pending (s : State) : ∃ x, Performs x s ∧
    ∀ f e, f.busy = true → coreStep (withFlags f e s) = x (withFlags f e s) := by
  cases hd : decode s.cmd with
  | ok i =>
    refine ⟨exec i, performs_exec s i, fun f e hf => ?_⟩
    simp [coreStep, fetchWord, withFlags, hf, hd]
  | error c =>
    refine ⟨fun t => .next (raiseFault c .none t), .faults c .none fun _ _ => rfl, fun f e hf => ?_⟩
    simp [coreStep, fetchWord, withFlags, hf, hd]

/-- What 10_state.md R37 asks of `t`, the state after a core step, beside `u`, the state after the same step from other
flags: the bits the core sets are as in `u`, and everything but STATUS is as in `u`. -/
def setsSameFlags (t u : State) : Prop :=
  t.status.busy = false ∧ t.status.done = true ∧ t.status.err = u.status.err ∧ t.err = u.err
    ∧ (u.status.err = true → t.status.esticky = true) ∧ { t with status := u.status } = u

theorem raiseFault_setsSameFlags (c : FaultCode) (l : ResultLocs) (s : State) (f : Status) (e : BitVec 8) :
    setsSameFlags (raiseFault c l (withFlags f e s)) (raiseFault c l s) :=
  ⟨rfl, rfl, rfl, rfl, fun _ => rfl, by cases l <;> rfl⟩

theorem endNormal_setsSameFlags (s : State) (f g : Status) (e d : BitVec 8) :
    setsSameFlags (endNormal (withFlags f e s)) (endNormal (withFlags g d s)) :=
  ⟨rfl, rfl, rfl, rfl, nofun, rfl⟩

/-- The core's step on a pending command, from two settings of the other flags. -/
theorem coreStep_setsSameFlags {s : State} {f : Status} (e : BitVec 8) (hs : s.status.busy = true)
    (hf : f.busy = true) : ∃ t u, coreStep (withFlags f e s) = .next t ∧ coreStep s = .next u ∧ setsSameFlags t u := by
  obtain ⟨x, hx, hcore⟩ := performs_pending s
  have hcores := hcore s.status s.err hs
  cases hx with
  | faults c l hc =>
    exact ⟨_, _, (hcore f e hf).trans (hc f e), hcores.trans (hc _ _), raiseFault_setsSameFlags c l s f e⟩
  | ends u hlegal hu =>
    exact ⟨_, _, (hcore f e hf).trans (hu f e), hcores.trans (hu _ _), endNormal_setsSameFlags u f _ e _⟩

theorem step_of_inputs_cons {s : State} {e : BusEvent} {rest : List BusEvent} (h : s.inputs = e :: rest) :
    step s = eventStep e { s with inputs := rest } := by
  simp [step, machineStep, h]

/-- Settles O47: the STATUS write leaves BUSY and the command as they are, so the core's step is the one it
would have made without it. -/
theorem coreSetWinsOverHostClear : Obligations.CoreSetWinsOverHostClear := by
  unfold Obligations.CoreSetWinsOverHostClear
  intro s v rest hin hbusy
  rw [step_of_inputs_cons hin, step_of_inputs_cons rfl]
  exact coreStep_setsSameFlags (s := { s with inputs := rest }) (f := (acknowledge v s).status) (acknowledge v s).err
    hbusy hbusy

end Sys2Proof.Machine
end

