-- ==== Sys2Proof/Proofs/ControlRegisters.lean ====
section
/-! The control, status and hash registers as the bus reads and writes them: obligation O60. -/

namespace Sys2Proof.Machine

/-! Bus words of a register (20_memory.md R86, R87). -/

/-- After a bus write, the bits of the word written are the word's and every other bit is as before. -/
theorem getLsbD_setBusWord {n : Nat} (v : BitVec n) (j : Nat) (w : Word) (i : Nat) (hi : i < n) :
    (setBusWord v j w).getLsbD i =
      if n - 32 - 32 * j ≤ i ∧ i < n - 32 - 32 * j + 32 then w.getLsbD (i - (n - 32 - 32 * j)) else v.getLsbD i := by
  have hones : (0xFFFFFFFF#32) = BitVec.allOnes 32 := rfl
  unfold setBusWord
  generalize n - 32 - 32 * j = k
  simp only [hones, BitVec.getLsbD_or, BitVec.getLsbD_and, BitVec.getLsbD_not, BitVec.getLsbD_shiftLeft,
    BitVec.getLsbD_setWidth, BitVec.getLsbD_allOnes, hi]
  by_cases hk : i < k
  · simp [hk]
  · by_cases hword : i < k + 32
    · simp [hk, hword, show k ≤ i by omega, show i - k < 32 by omega, show i - k < n by omega]
    · have hw : w.getLsbD (i - k) = false := BitVec.getLsbD_of_ge w (i - k) (by omega)
      simp [hk, hword, hw, show ¬ i - k < 32 by omega]

theorem getLsbD_wordPair (u v : Word) (i : Nat) :
    (u ++ v : BitVec 64).getLsbD i = if i < 32 then v.getLsbD i else u.getLsbD (i - 32) := BitVec.getLsbD_append

theorem setBusWord_high (x : BitVec 64) (w : Word) : setBusWord x 0 w = w ++ x.extractLsb' 0 32 := by
  refine BitVec.eq_of_getLsbD_eq fun i hi => ?_
  rw [getLsbD_setBusWord x 0 w i hi, getLsbD_wordPair, BitVec.getLsbD_extractLsb']
  by_cases h : i < 32
  · simp [h]
  · simp [h]; omega
theorem setBusWord_low (x : BitVec 64) (w : Word) : setBusWord x 1 w = x.extractLsb' 32 32 ++ w := by
  refine BitVec.eq_of_getLsbD_eq fun i hi => ?_
  rw [getLsbD_setBusWord x 1 w i hi, getLsbD_wordPair, BitVec.getLsbD_extractLsb']
  by_cases h : i < 32
  · simp [h]
  · simp [h, show i - 32 < 32 by omega, show 32 + (i - 32) = i by omega]

/-! STATUS and HSTAT as words (10_state.md R37, R41). -/

theorem statusWord_getLsbD (s : State) (b : Nat) : (statusWord s).getLsbD b =
    [s.status.busy, s.status.done, s.status.err, s.status.esticky, s.status.wrbusy, irq s].getD b false := by
  change (0#26 ++ BitVec.ofBool (irq s) ++ BitVec.ofBool s.status.wrbusy ++ BitVec.ofBool s.status.esticky
    ++ BitVec.ofBool s.status.err ++ BitVec.ofBool s.status.done ++ BitVec.ofBool s.status.busy).getLsbD b = _
  simp only [BitVec.getLsbD_append, BitVec.getLsbD_ofBool]
  match b with
  | 0 | 1 | 2 | 3 | 4 | 5 => simp
  | b + 6 => simp

theorem hstatWord_eq (s : State) : hstatWord s = streamBits s.stream ||| contextBits s.hmAlg := by
  unfold hstatWord hmAlgCode hmvalid hmode hopen halg
  generalize s.stream = m
  generalize s.hmAlg = c
  cases m with
  | closed => cases c with
    | none => rfl
    | some b => cases b <;> rfl
  | plain a => cases c with
    | none => cases a <;> rfl
    | some b => cases a <;> cases b <;> rfl
  | hmac a => cases c with
    | none => cases a <;> rfl
    | some b => cases a <;> cases b <;> rfl

/-! Registers of the host's, the core idle. -/

theorem memRead_of_idle {s : State} {off : Nat} {l : Loc} (hloc : locate off = l) (hidle : s.status.busy = false) :
    memRead off s = readLoc s l := by
  simp [memRead, hidle, hloc]

theorem memRead_of_visible {s : State} {off : Nat} {l : Loc} (hloc : locate off = l) (hl : visibleWhileBusy l = true) :
    memRead off s = readLoc s l := by
  simp [memRead, hl, hloc]

theorem writeData_of_idle {s t : State} {l : Loc} {v : Word} (hstore : storeLoc s v l = some t)
    (hidle : s.status.busy = false) : writeData v s l = t := by
  simp [writeData, hidle, hstore]

theorem memWrite_of_idle {s t : State} {off : Nat} {l : Loc} {v : Word} (hloc : locate off = l)
    (hstore : storeLoc s v l = some t) (hidle : s.status.busy = false) : memWrite off v s = t := by
  subst hloc
  obtain ⟨hl, -⟩ | ⟨hl, -⟩ | ⟨hl, -⟩ | ⟨hl, -⟩ | hw := memWrite_eq off v s
  case inr.inr.inr.inr => rw [hw, writeData_of_idle hstore hidle]
  all_goals
    rw [hl] at hstore
    cases hstore

theorem plainRegisterAt_of_locate {off : Nat} {get : State → Word} {set : State → Word → State} (l : Loc)
    (hloc : locate off = l) (hread : ∀ s, readLoc s l = get s) (hstore : ∀ s v, storeLoc s v l = some (set s v)) :
    plainRegisterAt off get set := fun s v hidle =>
  ⟨(memRead_of_idle hloc hidle).trans (hread s), memWrite_of_idle hloc (hstore s v) hidle⟩

theorem wordPairAt_of_locate {off : Nat} {get : State → BitVec 64} {set : State → BitVec 64 → State} (hi lo : Loc)
    (hlocHi : locate off = hi) (hlocLo : locate (off + 4) = lo)
    (hreadHi : ∀ s, readLoc s hi = busWord (get s) 0) (hreadLo : ∀ s, readLoc s lo = busWord (get s) 1)
    (hstoreHi : ∀ s v, storeLoc s v hi = some (set s (setBusWord (get s) 0 v)))
    (hstoreLo : ∀ s v, storeLoc s v lo = some (set s (setBusWord (get s) 1 v))) :
    wordPairAt off get set := fun s v hidle => by
  have hwriteHi := memWrite_of_idle hlocHi (hstoreHi s v) hidle
  have hwriteLo := memWrite_of_idle hlocLo (hstoreLo s v) hidle
  rw [setBusWord_high] at hwriteHi
  rw [setBusWord_low] at hwriteLo
  exact ⟨(memRead_of_idle hlocHi hidle).trans (hreadHi s), (memRead_of_idle hlocLo hidle).trans (hreadLo s),
    hwriteHi, hwriteLo⟩

/-- Word `i` of HST stands at `0x100 + 8 * i` (10_state.md R31, R42). -/
theorem wordPairAt_hst {off : Nat} {get : State → DWord} {set : State → DWord → State} (i : Nat)
    (hlocHi : locate off = .hst i true) (hlocLo : locate (off + 4) = .hst i false)
    (hget : ∀ s, hstGet s.hst i = get s) (hset : ∀ s v, { s with hst := hstSet s.hst i v } = set s v) :
    wordPairAt off get set := by
  refine wordPairAt_of_locate _ _ hlocHi hlocLo (fun s => ?_) (fun s => ?_) (fun s v => ?_) (fun s v => ?_)
  · rw [← hget]; rfl
  · rw [← hget]; rfl
  · rw [← hget, ← hset]; rfl
  · rw [← hget, ← hset]; rfl

theorem wordPairAt_totlen : wordPairAt 0x2C (fun s => s.totlen) (fun s v => { s with totlen := v }) :=
  wordPairAt_of_locate .totlenHi .totlenLo rfl rfl (fun _ => rfl) (fun _ => rfl) (fun _ _ => rfl) fun _ _ => rfl

theorem wordPairAt_iv : wordPairAt 0x140 (fun s => s.iv) (fun s v => { s with iv := v }) :=
  wordPairAt_of_locate (.iv true) (.iv false) rfl rfl (fun _ => rfl) (fun _ => rfl) (fun _ _ => rfl) fun _ _ => rfl

/-- STATUS on the bus, also while BUSY: its five bits, IRQ and zeros. -/
theorem memRead_status (s : State) : memRead 0x14 s = statusWord s := memRead_of_visible (l := .status) rfl rfl

/-- Settles O60. -/
theorem controlRegistersOnTheBus : Obligations.ControlRegistersOnTheBus := by
  unfold Obligations.ControlRegistersOnTheBus
  refine ⟨fun s => ⟨?_, ?_, ?_, memRead_of_visible (l := .cmd) rfl rfl, fun hidle => ⟨?_, ?_⟩⟩, ?_⟩
  · simp only [memRead_status, statusWord_getLsbD]
    exact ⟨rfl, rfl, rfl, rfl, rfl, rfl, fun b hb => List.getD_eq_default _ _ hb⟩
  · have herr : memRead 0x18 s = s.err.setWidth 32 := memRead_of_visible (l := .err) rfl rfl
    rw [herr, BitVec.toNat_setWidth_of_le (by omega)]
  · have hie : memRead 0x1C s = s.ie.setWidth 32 := memRead_of_visible (l := .ie) rfl rfl
    rw [hie, BitVec.toNat_setWidth_of_le (by omega)]
  · exact memRead_of_idle (l := .outlen) rfl hidle
  · exact (memRead_of_idle (l := .hstat) rfl hidle).trans (hstatWord_eq s)
  · exact ⟨plainRegisterAt_of_locate .msglen rfl (fun _ => rfl) fun _ _ => rfl,
      plainRegisterAt_of_locate .keylen rfl (fun _ => rfl) fun _ _ => rfl,
      plainRegisterAt_of_locate .curve rfl (fun _ => rfl) fun _ _ => rfl,
      plainRegisterAt_of_locate .nbits rfl (fun _ => rfl) fun _ _ => rfl,
      wordPairAt_totlen, wordPairAt_iv,
      wordPairAt_hst 0 rfl rfl (fun _ => rfl) fun _ _ => rfl, wordPairAt_hst 1 rfl rfl (fun _ => rfl) fun _ _ => rfl,
      wordPairAt_hst 2 rfl rfl (fun _ => rfl) fun _ _ => rfl, wordPairAt_hst 3 rfl rfl (fun _ => rfl) fun _ _ => rfl,
      wordPairAt_hst 4 rfl rfl (fun _ => rfl) fun _ _ => rfl, wordPairAt_hst 5 rfl rfl (fun _ => rfl) fun _ _ => rfl,
      wordPairAt_hst 6 rfl rfl (fun _ => rfl) fun _ _ => rfl, wordPairAt_hst 7 rfl rfl (fun _ => rfl) fun _ _ => rfl⟩

end Sys2Proof.Machine
end

