-- ==== Sys2Proof/Proofs/BusSecrets.lean ====
section
/-! Bus accesses from two states that differ in secrets only: obligation O58. The second state is the first with its
secrets replaced, so all that is not a secret is the same by definition. -/

namespace Sys2Proof.Machine

/-- OUT lies outside KEY (10_state.md R31). -/
theorem not_inKey_of_inOut {a : Nat} (h : inOut a) : ¬ inKey a := by
  unfold inOut outBase at h
  unfold inKey keyBase Config.keyCap
  omega

theorem not_inKey_of_le {a x : Nat} (h : ¬ inKey a) (ha : keyBase ≤ a) (hx : a ≤ x) : ¬ inKey x := by
  unfold inKey at *
  omega

theorem readWord_congr {m n : Memory} (h : agreeOutsideKey m n) {a : Nat} (ha : inMsg a ∨ inOut a) :
    Memory.readWord n a = Memory.readWord m a := by
  have hout : ¬ inKey a := ha.elim not_inKey_of_inMsg not_inKey_of_inOut
  have hlow : keyBase ≤ a := by
    unfold inMsg inOut msgBase outBase at ha
    unfold keyBase
    omega
  unfold Memory.readWord
  rw [readBytes_congr m n a 4 fun x hx _ => h x (not_inKey_of_le hout hlow hx)]

section
variable {s t : State} (h : sameButSecrets s t)
include h

/-! Reads: a location that holds a secret reads as zero (10_state.md R54). -/

theorem curveRegRead_congr (r : CurveReg) : curveRegRead t r = curveRegRead s r := by
  obtain ⟨k, rfl, -⟩ := sameButSecrets_iff.1 h
  cases r <;> rfl

theorem wideRegRead_congr (r : WideReg) : wideRegRead t r = wideRegRead s r := by
  obtain ⟨k, rfl, -⟩ := sameButSecrets_iff.1 h
  cases r <;> rfl

theorem readLoc_congr {off : Nat} {l : Loc} (hl : MayStandAt off l) : readLoc t l = readLoc s l := by
  have hcurve := curveRegRead_congr h
  have hwide := wideRegRead_congr h
  obtain ⟨k, rfl, hk⟩ := sameButSecrets_iff.1 h
  cases hl with
  | key => rfl
  | msg hin => exact readWord_congr hk (.inl hin)
  | out hin => exact readWord_congr hk (.inr hin)
  | register hreg => cases l with
    | key | msg | out => simp [Loc.isBuffer] at hreg
    | curveReg r j => exact congrArg (busWord · j) (hcurve r)
    | wide r j => exact congrArg (busWord · j) (hwide r)
    | _ => rfl

theorem memRead_congr (off : Nat) : memRead off t = memRead off s := by
  have hread := readLoc_congr h (locate_mayStandAt off)
  obtain ⟨k, rfl, -⟩ := sameButSecrets_iff.1 h
  unfold memRead
  rw [hread]
  rfl

/-! Writes. -/

theorem status_congr : t.status = s.status := by
  obtain ⟨-, hstatus, -⟩ := h
  exact hstatus

theorem dropWrite_sameButSecrets : sameButSecrets (dropWrite s) (dropWrite t) := by
  obtain ⟨k, rfl, hk⟩ := sameButSecrets_iff.1 h
  exact sameButSecrets_iff.2 ⟨k, rfl, hk⟩

theorem acceptCommand_sameButSecrets (v : Word) : sameButSecrets (acceptCommand v s) (acceptCommand v t) := by
  obtain ⟨k, rfl, hk⟩ := sameButSecrets_iff.1 h
  exact sameButSecrets_iff.2 ⟨k, rfl, hk⟩

theorem acknowledge_sameButSecrets (v : Word) : sameButSecrets (acknowledge v s) (acknowledge v t) := by
  obtain ⟨k, rfl, hk⟩ := sameButSecrets_iff.1 h
  exact sameButSecrets_iff.2 ⟨k, rfl, hk⟩

theorem writeIe_sameButSecrets (v : Word) : sameButSecrets (writeIe v s) (writeIe v t) := by
  obtain ⟨k, rfl, hk⟩ := sameButSecrets_iff.1 h
  exact sameButSecrets_iff.2 ⟨k, rfl, hk⟩

theorem writeCmd_sameButSecrets (v : Word) : sameButSecrets (writeCmd v s) (writeCmd v t) := by
  unfold writeCmd
  rw [status_congr h]
  split
  · exact dropWrite_sameButSecrets h
  · exact acceptCommand_sameButSecrets h v

theorem writeWord_sameButSecrets (a : Nat) (v : Word) : sameButSecrets { s with mem := Memory.writeWord s.mem a v }
    { t with mem := Memory.writeWord t.mem a v } := by
  obtain ⟨k, rfl, hk⟩ := sameButSecrets_iff.1 h
  exact sameButSecrets_iff.2 ⟨{ k with mem := Memory.writeWord k.mem a v }, rfl, agreeOutsideKey_writeBytes hk _ _⟩

/-- EC_D is a secret; every other curve register is the same in both states. -/
theorem curveRegWrite_sameButSecrets (j : Nat) (v : Word) (r : CurveReg) :
    Option.Rel sameButSecrets (curveRegWrite s j v r) (curveRegWrite t j v r) := by
  obtain ⟨k, rfl, hk⟩ := sameButSecrets_iff.1 h
  cases r with
  | ecD => exact .some (sameButSecrets_iff.2 ⟨{ k with ecD := setBusWord k.ecD j v }, rfl, hk⟩)
  | rx | ry | rz => exact .none
  | _ => exact .some (sameButSecrets_iff.2 ⟨k, rfl, hk⟩)

/-- The RSA key is secret; every other wide register is the same in both states. -/
theorem wideRegWrite_sameButSecrets (j : Nat) (v : Word) (r : WideReg) :
    Option.Rel sameButSecrets (wideRegWrite s j v r) (wideRegWrite t j v r) := by
  obtain ⟨k, rfl, hk⟩ := sameButSecrets_iff.1 h
  have setRsa {x : RsaKey} (y : RsaKey) : sameButSecrets { s with rsa := x } { withSecrets k s with rsa := y } :=
    sameButSecrets_iff.2 ⟨{ k with rsa := y }, rfl, hk⟩
  cases r with
  | bnA | bnE | bnM => exact .some (sameButSecrets_iff.2 ⟨k, rfl, hk⟩)
  | bnR => exact .none
  | rsaP => exact .some (setRsa { k.rsa with p := setBusWord k.rsa.p j v })
  | rsaQ => exact .some (setRsa { k.rsa with q := setBusWord k.rsa.q j v })
  | rsaDp => exact .some (setRsa { k.rsa with dp := setBusWord k.rsa.dp j v })
  | rsaDq => exact .some (setRsa { k.rsa with dq := setBusWord k.rsa.dq j v })
  | rsaQinv => exact .some (setRsa { k.rsa with qinv := setBusWord k.rsa.qinv j v })

theorem storeLoc_sameButSecrets (v : Word) (l : Loc) : Option.Rel sameButSecrets (storeLoc s v l) (storeLoc t v l) := by
  have hword := writeWord_sameButSecrets h
  have hcurve := curveRegWrite_sameButSecrets h
  have hwide := wideRegWrite_sameButSecrets h
  obtain ⟨k, rfl, hk⟩ := sameButSecrets_iff.1 h
  cases l with
  | key a | msg a => exact .some (hword a v)
  | curveReg r j => exact hcurve j v r
  | wide r j => exact hwide j v r
  | msglen | keylen | totlenHi | totlenLo | curve | nbits | hst | iv =>
    exact .some (sameButSecrets_iff.2 ⟨k, rfl, hk⟩)
  | _ => exact .none

theorem getD_sameButSecrets {x y : Option State} (hxy : Option.Rel sameButSecrets x y) :
    sameButSecrets (x.getD s) (y.getD t) := by
  cases hxy with
  | none => exact h
  | some hstored => exact hstored

theorem writeData_sameButSecrets (v : Word) (l : Loc) : sameButSecrets (writeData v s l) (writeData v t l) := by
  unfold writeData
  rw [status_congr h]
  split
  · exact dropWrite_sameButSecrets h
  · exact getD_sameButSecrets h (storeLoc_sameButSecrets h v l)

theorem memWrite_sameButSecrets (off : Nat) (v : Word) : sameButSecrets (memWrite off v s) (memWrite off v t) := by
  unfold memWrite
  split
  · exact writeCmd_sameButSecrets h v
  · exact acknowledge_sameButSecrets h v
  · exact writeIe_sameButSecrets h v
  · exact h
  · exact writeData_sameButSecrets h v _

end

/-- Settles O58. -/
theorem busShowsNoSecret : Obligations.BusShowsNoSecret := by
  unfold Obligations.BusShowsNoSecret
  intro s t off v h
  exact ⟨(memRead_congr h off).symm, memWrite_sameButSecrets h off v⟩

end Sys2Proof.Machine
end

