-- ==== Sys2Proof/Proofs/ResetState.lean ====
section
/-! The state after reset, and the reset event: obligation O54. -/

namespace Sys2Proof.Machine

theorem statusWord_reset : statusWord State.reset = 0 := by decide

theorem hstatWord_reset : hstatWord State.reset = 0 := by decide

/-- ID and CAP0 to CAP2 read as constants in every state (10_state.md R32). -/
theorem memRead_constants (s : State) : memRead 0x00 s = 0x464F5401 ∧ memRead 0x04 s = 0x00003FFE
    ∧ memRead 0x08 s = 0x10001000 ∧ memRead 0x0C s = 0x00000040 :=
  ⟨memRead_of_visible (l := .id) rfl rfl, memRead_of_visible (l := .cap0) rfl rfl,
    memRead_of_visible (l := .cap1) rfl rfl, memRead_of_visible (l := .cap2) rfl rfl⟩

/-- Settles O54: every field is zero as `State.reset` is written, and the reset event goes there from any state. -/
theorem resetZeroesEverything : Obligations.ResetZeroesEverything := by
  unfold Obligations.ResetZeroesEverything
  refine ⟨?_, fun s rest hin => ?_⟩
  · exact ⟨rfl, statusWord_reset, rfl, rfl, rfl, rfl, rfl, rfl, rfl, hstatWord_reset, rfl, rfl, rfl, rfl, rfl, rfl, rfl,
      rfl, rfl, rfl, rfl, rfl, rfl, rfl, fun _ => rfl, rfl, rfl, memRead_constants State.reset⟩
  · rw [step_of_inputs_cons hin]
    rfl

end Sys2Proof.Machine
end

