-- ==== Sys2Proof/Proofs/RegisterMap.lean ====
section
/-! The register map in both directions: the region of the window in which the location of an offset stands, and the
location at an offset of a region (10_state.md R31). -/

namespace Sys2Proof.Machine

/-- The region of the window in which a location stands. A curve slot has 64 bytes and its register the first 48; a wide
register fills its slot of 512 bytes. -/
inductive StandsAt (off : Nat) : Loc → Prop where
  | control (h : off < 0x40) : StandsAt off (controlLoc (off / 4))
  | hst (i : Nat) (hi : Bool) (h : 0x100 ≤ off ∧ off < 0x140) : StandsAt off (.hst i hi)
  | iv (hi : Bool) (h : 0x140 ≤ off ∧ off < 0x148) : StandsAt off (.iv hi)
  | key (h : inKey off) : StandsAt off (.key off)
  | curveReg {k j : Nat} {r : CurveReg} (hr : curveSlot k = some r) (hj : j < 12)
      (h : 0x400 + 0x40 * k + 4 * j ≤ off ∧ off < 0x400 + 0x40 * k + 4 * j + 4) : StandsAt off (.curveReg r j)
  | wide {k j : Nat} {r : WideReg} (hr : wideSlot k = some r) (hj : j < 128)
      (h : 0x1000 + 0x200 * k + 4 * j ≤ off ∧ off < 0x1000 + 0x200 * k + 4 * j + 4) : StandsAt off (.wide r j)
  | msg (h : inMsg off) : StandsAt off (.msg off)
  | out (h : inOut off) : StandsAt off (.out off)
  | reserved (h : reservedOffset off ∨ windowBytes ≤ off) : StandsAt off .reserved

/-! The regions as arithmetic. -/

theorem inKey_iff {off : Nat} : inKey off ↔ 0x200 ≤ off ∧ off < 0x300 := Iff.rfl

theorem inMsg_iff {off : Nat} : inMsg off ↔ 0x4000 ≤ off ∧ off < 0x5000 := Iff.rfl

theorem inOut_iff {off : Nat} : inOut off ↔ 0x8000 ≤ off ∧ off < 0x9000 := Iff.rfl

/-- The reserved offsets, the tails of the curve slots among them by their place in the slot (20_memory.md R88). -/
theorem reservedOffset_iff {off : Nat} : reservedOffset off ↔
    (0x40 ≤ off ∧ off < 0x100) ∨ (0x148 ≤ off ∧ off < 0x200) ∨ (0x300 ≤ off ∧ off < 0x400)
      ∨ (0x400 ≤ off ∧ off < 0x6C0 ∧ 48 ≤ off % 0x40) ∨ (0x6C0 ≤ off ∧ off < 0x1000)
      ∨ (0x2200 ≤ off ∧ off < 0x4000) ∨ (0x5000 ≤ off ∧ off < 0x8000) ∨ (0x9000 ≤ off ∧ off < 0x10000) := by
  have htail : (∃ j, j < 11 ∧ 0x400 + 0x40 * j + 48 ≤ off ∧ off < 0x400 + 0x40 * (j + 1))
      ↔ 0x400 ≤ off ∧ off < 0x6C0 ∧ 48 ≤ off % 0x40 :=
    ⟨fun ⟨j, hj, hlo, hhi⟩ => by omega, fun h => ⟨(off - 0x400) / 0x40, by omega⟩⟩
  unfold reservedOffset
  rw [htail]

/-- The writable offsets: curve slots 0 to 7, and every wide slot but that of BN_R. -/
theorem writableData_iff {off : Nat} : writableData off ↔
    off = 0x20 ∨ off = 0x24 ∨ off = 0x2C ∨ off = 0x30 ∨ off = 0x38 ∨ off = 0x3C ∨ (0x100 ≤ off ∧ off < 0x148)
      ∨ (0x200 ≤ off ∧ off < 0x300) ∨ (0x400 ≤ off ∧ off < 0x600 ∧ off % 0x40 < 48)
      ∨ (0x1000 ≤ off ∧ off < 0x2200 ∧ (off < 0x1600 ∨ 0x1800 ≤ off)) ∨ (0x4000 ≤ off ∧ off < 0x5000) := by
  have hcurve : (∃ j, j < 8 ∧ 0x400 + 0x40 * j ≤ off ∧ off < 0x400 + 0x40 * j + 48)
      ↔ 0x400 ≤ off ∧ off < 0x600 ∧ off % 0x40 < 48 :=
    ⟨fun ⟨j, hj, hlo, hhi⟩ => by omega, fun h => ⟨(off - 0x400) / 0x40, by omega⟩⟩
  have hwide : (∃ j, j < 9 ∧ j ≠ 3 ∧ 0x1000 + 0x200 * j ≤ off ∧ off < 0x1000 + 0x200 * j + 512)
      ↔ 0x1000 ≤ off ∧ off < 0x2200 ∧ (off < 0x1600 ∨ 0x1800 ≤ off) :=
    ⟨fun ⟨j, hj, hne, hlo, hhi⟩ => by omega, fun h => ⟨(off - 0x1000) / 0x200, by omega⟩⟩
  unfold writableData
  rw [hcurve, hwide]

/-- The read-only offsets: curve slots 8 to 10 among them. -/
theorem readOnlyOffset_iff {off : Nat} : readOnlyOffset off ↔
    off < 0x10 ∨ off = 0x18 ∨ off = 0x28 ∨ off = 0x34 ∨ (0x600 ≤ off ∧ off < 0x6C0 ∧ off % 0x40 < 48)
      ∨ (0x1600 ≤ off ∧ off < 0x1800) ∨ (0x8000 ≤ off ∧ off < 0x9000) := by
  have hcurve : (∃ j, 8 ≤ j ∧ j < 11 ∧ 0x400 + 0x40 * j ≤ off ∧ off < 0x400 + 0x40 * j + 48)
      ↔ 0x600 ≤ off ∧ off < 0x6C0 ∧ off % 0x40 < 48 :=
    ⟨fun ⟨j, hlow, hj, hlo, hhi⟩ => by omega, fun h => ⟨(off - 0x400) / 0x40, by omega⟩⟩
  unfold readOnlyOffset
  rw [hcurve]

/-! The slots of the curve and wide registers. -/

theorem curveSlot_lt {k : Nat} {r : CurveReg} (h : curveSlot k = some r) : k < 11 :=
  (List.getElem?_eq_some_iff.1 h).1

theorem wideSlot_lt {k : Nat} {r : WideReg} (h : wideSlot k = some r) : k < 9 :=
  (List.getElem?_eq_some_iff.1 h).1

theorem exists_curveSlot {k : Nat} (h : k < 11) : ∃ r, curveSlot k = some r :=
  ⟨_, List.getElem?_eq_getElem (by exact h)⟩

theorem exists_wideSlot {k : Nat} (h : k < 9) : ∃ r, wideSlot k = some r :=
  ⟨_, List.getElem?_eq_getElem (by exact h)⟩

theorem curveLoc_of_slot {d : Nat} {r : CurveReg} (hr : curveSlot (d / 0x40) = some r) :
    curveLoc (0x400 + d) = if d % 0x40 < 48 then .curveReg r (d % 0x40 / 4) else .reserved := by
  unfold curveLoc
  rw [Nat.add_sub_cancel_left, hr]
  rfl

/-- `wideLoc` is unfolded as a function, as in `wideLoc_mayStandAt`. -/
theorem wideLoc_of_slot {d : Nat} {r : WideReg} (hr : wideSlot (d / 0x200) = some r) :
    wideLoc (0x1000 + d) = .wide r (d % 0x200 / 4) := by
  suffices h : ∀ f, f = wideLoc → f (0x1000 + d) = .wide r (d % 0x200 / 4) from h _ rfl
  intro f hf
  delta wideLoc at hf
  subst hf
  beta_reduce
  rw [Nat.add_sub_cancel_left, hr]
  exact if_pos (Nat.mod_lt d (by decide))

/-! From the offset to its region. -/

theorem curveLoc_standsAt {d : Nat} (hd : d < 0x2C0) : StandsAt (0x400 + d) (curveLoc (0x400 + d)) := by
  obtain ⟨r, hr⟩ := exists_curveSlot (k := d / 0x40) (by omega)
  rw [curveLoc_of_slot hr]
  exact iteInduction (fun _ => .curveReg hr (by omega) (by omega))
    fun _ => .reserved (.inl (reservedOffset_iff.2 (by omega)))

theorem wideLoc_standsAt {d : Nat} (hd : d < 0x1200) : StandsAt (0x1000 + d) (wideLoc (0x1000 + d)) := by
  obtain ⟨r, hr⟩ := exists_wideSlot (k := d / 0x200) (by omega)
  rw [wideLoc_of_slot hr]
  exact .wide hr (by omega) (by omega)

/-- What stands at an offset, with the bounds of its region: everything `locate` can answer. -/
theorem locate_standsAt (off : Nat) : StandsAt off (locate off) := by
  have reserved (h : reservedOffset off ∨ windowBytes ≤ off) : StandsAt off .reserved := .reserved h
  rw [reservedOffset_iff, windowBytes] at reserved
  unfold locate keyBase msgBase outBase Config.keyCap Config.msgCap
  refine iteInduction (fun h => .control h) fun _ => ?_
  refine iteInduction (fun _ => reserved (by omega)) fun _ => ?_
  refine iteInduction (fun _ => .hst _ _ (by omega)) fun _ => ?_
  refine iteInduction (fun _ => .iv _ (by omega)) fun _ => ?_
  refine iteInduction (fun _ => reserved (by omega)) fun _ => ?_
  refine iteInduction (fun _ => .key (inKey_iff.2 (by omega))) fun _ => ?_
  refine iteInduction (fun _ => reserved (by omega)) fun hcurve => ?_
  refine iteInduction (fun _ => ?_) fun _ => ?_
  · obtain ⟨d, rfl⟩ := Nat.exists_eq_add_of_le (not_lt.1 hcurve)
    exact curveLoc_standsAt (by omega)
  refine iteInduction (fun _ => reserved (by omega)) fun hwide => ?_
  refine iteInduction (fun _ => ?_) fun _ => ?_
  · obtain ⟨d, rfl⟩ := Nat.exists_eq_add_of_le (not_lt.1 hwide)
    exact wideLoc_standsAt (by omega)
  refine iteInduction (fun _ => reserved (by omega)) fun _ => ?_
  refine iteInduction (fun _ => .msg (inMsg_iff.2 (by omega))) fun _ => ?_
  refine iteInduction (fun _ => reserved (by omega)) fun _ => ?_
  exact iteInduction (fun _ => .out (inOut_iff.2 (by omega))) fun _ => reserved (by omega)

/-! From the region to the location. -/

theorem locate_of_key {off : Nat} (h : inKey off) : locate off = .key off := by
  rw [inKey_iff] at h
  unfold locate keyBase
  iterate 5 rw [if_neg (by omega)]
  exact if_pos h.2

theorem locate_of_curveReg {off k j : Nat} {r : CurveReg} (hr : curveSlot k = some r) (hj : j < 12)
    (h : 0x400 + 0x40 * k + 4 * j ≤ off ∧ off < 0x400 + 0x40 * k + 4 * j + 4) : locate off = .curveReg r j := by
  have hk := curveSlot_lt hr
  obtain ⟨d, rfl⟩ := Nat.exists_eq_add_of_le (show 0x400 ≤ off by omega)
  obtain ⟨rfl, rfl, htail⟩ : d / 0x40 = k ∧ d % 0x40 / 4 = j ∧ d % 0x40 < 48 := by omega
  unfold locate keyBase Config.keyCap
  iterate 7 rw [if_neg (by omega)]
  rw [if_pos (by omega), curveLoc_of_slot hr, if_pos htail]

theorem locate_of_wide {off k j : Nat} {r : WideReg} (hr : wideSlot k = some r) (hj : j < 128)
    (h : 0x1000 + 0x200 * k + 4 * j ≤ off ∧ off < 0x1000 + 0x200 * k + 4 * j + 4) : locate off = .wide r j := by
  have hk := wideSlot_lt hr
  obtain ⟨d, rfl⟩ := Nat.exists_eq_add_of_le (show 0x1000 ≤ off by omega)
  obtain ⟨rfl, rfl⟩ : d / 0x200 = k ∧ d % 0x200 / 4 = j := by omega
  unfold locate keyBase Config.keyCap
  iterate 9 rw [if_neg (by omega)]
  rw [if_pos (by omega), wideLoc_of_slot hr]

theorem locate_of_msg {off : Nat} (h : inMsg off) : locate off = .msg off := by
  rw [inMsg_iff] at h
  unfold locate keyBase msgBase Config.keyCap
  iterate 11 rw [if_neg (by omega)]
  exact if_pos h.2

theorem locate_of_out {off : Nat} (h : inOut off) : locate off = .out off := by
  rw [inOut_iff] at h
  unfold locate keyBase msgBase outBase Config.keyCap Config.msgCap
  iterate 13 rw [if_neg (by omega)]
  exact if_pos h.2

/-- No other location stands at a reserved offset. -/
theorem locate_of_reserved {off : Nat} (h : reservedOffset off) : locate off = .reserved := by
  have hplace := locate_standsAt off
  rw [reservedOffset_iff] at h
  generalize locate off = l at hplace ⊢
  cases hplace with
  | reserved => rfl
  | control hb | hst i hi hb | iv hi hb => omega
  | key hb | msg hb | out hb =>
    simp only [inKey_iff, inMsg_iff, inOut_iff] at hb
    omega
  | curveReg hr hj hb =>
    have hk := curveSlot_lt hr
    omega
  | wide hr hj hb =>
    have hk := wideSlot_lt hr
    omega

end Sys2Proof.Machine
end

