-- ==== Sys2Proof/Proofs/BusLocks.lean ====
section
/-! Bus accesses that leave the data alone: while BUSY, at reserved, read-only and write-only offsets: obligations O48, O49
and O50. -/

namespace Sys2Proof.Machine

/-! Reads that return zero. -/

theorem memRead_of_readLoc_zero {s : State} {off : Nat} (h : readLoc s (locate off) = 0) : memRead off s = 0 :=
  ite_eq_left_iff.2 fun _ => h

theorem memRead_of_hidden {s : State} {off : Nat} (hbusy : s.status.busy = true)
    (hl : visibleWhileBusy (locate off) = false) : memRead off s = 0 := by
  simp [memRead, hbusy, hl]

theorem visibleWhileBusy_controlLoc : ∀ {j : Nat}, 8 ≤ j → visibleWhileBusy (controlLoc j) = false
  | 8, _ | 9, _ | 10, _ | 11, _ | 12, _ | 13, _ | 14, _ | 15, _ => rfl
  | _ + 16, _ => rfl

/-- The locations seen while BUSY stand in the first eight words of the window (20_memory.md R90). -/
theorem visibleWhileBusy_locate {off : Nat} (h : 0x20 ≤ off) : visibleWhileBusy (locate off) = false := by
  have hplace := locate_standsAt off
  generalize locate off = l at hplace
  cases hplace with
  | control => exact visibleWhileBusy_controlLoc (by omega)
  | _ => rfl

theorem busWord_zero (n j : Nat) : busWord (0 : BitVec n) j = 0 := BitVec.extractLsb'_zero

theorem readLoc_of_writeOnlyOffset {off : Nat} (s : State) (h : writeOnlyOffset off) : readLoc s (locate off) = 0 := by
  have hplace := locate_standsAt off
  unfold writeOnlyOffset at h
  generalize locate off = l at hplace
  cases hplace with
  | control hb | hst i hi hb | iv hi hb => omega
  | key | reserved => rfl
  | msg hb | out hb =>
    simp only [inMsg_iff, inOut_iff] at hb
    omega
  | @curveReg k j r hr hj hb =>
    have hk := curveSlot_lt hr
    obtain rfl : k = 0 := by omega
    cases hr
    exact busWord_zero _ j
  | @wide k j r hr hj hb =>
    have hk := wideSlot_lt hr
    obtain rfl | rfl | rfl | rfl | rfl : k = 4 ∨ k = 5 ∨ k = 6 ∨ k = 7 ∨ k = 8 := by omega
    all_goals
      cases hr
      exact busWord_zero _ j

/-! Where a write is one of data. -/

/-- Neither CMD, STATUS, IE nor reserved: a write is stored, ignored or dropped (20_memory.md R84, R90). -/
def Loc.takesDataWrite : Loc → Bool
  | .cmd | .status | .ie | .reserved => false
  | _ => true

theorem memWrite_of_takesDataWrite {off : Nat} (v : Word) (s : State) (hl : (locate off).takesDataWrite = true) :
    memWrite off v s = writeData v s (locate off) := by
  obtain ⟨h, -⟩ | ⟨h, -⟩ | ⟨h, -⟩ | ⟨h, -⟩ | hw := memWrite_eq off v s
  case inr.inr.inr.inr => exact hw
  all_goals
    rw [h] at hl
    cases hl

theorem memWrite_of_reserved {off : Nat} (v : Word) (s : State) (hl : locate off = .reserved) : memWrite off v s = s := by
  simp [memWrite, hl]

theorem writeData_of_busy {s : State} (v : Word) (l : Loc) (hbusy : s.status.busy = true) :
    writeData v s l = dropWrite s := if_pos hbusy

theorem writeData_of_not_stored {s : State} {v : Word} {l : Loc} (hl : storeLoc s v l = none) :
    writeData v s l = if s.status.busy then dropWrite s else s := by
  rw [writeData, hl]
  rfl

theorem takesDataWrite_of_writableData {off : Nat} (haligned : off % 4 = 0) (h : writableData off) :
    (locate off).takesDataWrite = true := by
  have hplace := locate_standsAt off
  rw [writableData_iff] at h
  generalize locate off = l at hplace
  cases hplace with
  | control hb =>
    obtain rfl | rfl | rfl | rfl | rfl | rfl :
      off = 0x20 ∨ off = 0x24 ∨ off = 0x2C ∨ off = 0x30 ∨ off = 0x38 ∨ off = 0x3C := by omega
    all_goals rfl
  | reserved hb =>
    rw [reservedOffset_iff, windowBytes] at hb
    omega
  | _ => rfl

/-- At a read-only offset stands a location where nothing is stored (10_state.md R54). -/
theorem storeLoc_of_readOnlyOffset {off : Nat} (v : Word) (s : State) (haligned : off % 4 = 0) (h : readOnlyOffset off) :
    (locate off).takesDataWrite = true ∧ storeLoc s v (locate off) = none := by
  have hplace := locate_standsAt off
  rw [readOnlyOffset_iff] at h
  generalize locate off = l at hplace
  cases hplace with
  | control hb =>
    obtain rfl | rfl | rfl | rfl | rfl | rfl | rfl : off = 0x00 ∨ off = 0x04 ∨ off = 0x08 ∨ off = 0x0C ∨ off = 0x18
      ∨ off = 0x28 ∨ off = 0x34 := by omega
    all_goals exact ⟨rfl, rfl⟩
  | hst i hi hb | iv hi hb => omega
  | key hb | msg hb =>
    simp only [inKey_iff, inMsg_iff] at hb
    omega
  | out => exact ⟨rfl, rfl⟩
  | @curveReg k j r hr hj hb =>
    have hk := curveSlot_lt hr
    obtain rfl | rfl | rfl : k = 8 ∨ k = 9 ∨ k = 10 := by omega
    all_goals
      cases hr
      exact ⟨rfl, rfl⟩
  | @wide k j r hr hj hb =>
    have hk := wideSlot_lt hr
    obtain rfl : k = 3 := by omega
    cases hr
    exact ⟨rfl, rfl⟩
  | reserved hb =>
    rw [reservedOffset_iff, windowBytes] at hb
    omega

theorem memWrite_of_readOnlyOffset {off : Nat} (v : Word) (s : State) (haligned : off % 4 = 0) (h : readOnlyOffset off) :
    memWrite off v s = if s.status.busy then dropWrite s else s := by
  obtain ⟨hdata, hnone⟩ := storeLoc_of_readOnlyOffset v s haligned h
  rw [memWrite_of_takesDataWrite v s hdata, writeData_of_not_stored hnone]

/-! The obligations. -/

/-- Settles O48. -/
theorem busyLocksData : Obligations.BusyLocksData := by
  unfold Obligations.BusyLocksData
  intro s v hbusy
  refine ⟨fun off hlow _ _ => memRead_of_hidden hbusy (visibleWhileBusy_locate hlow), fun off haligned hoff => ?_, rfl, rfl⟩
  obtain hdata | hro | rfl := hoff
  · rw [memWrite_of_takesDataWrite v s (takesDataWrite_of_writableData haligned hdata), writeData_of_busy v _ hbusy]
    rfl
  · rw [memWrite_of_readOnlyOffset v s haligned hro, if_pos hbusy]
    rfl
  · exact if_pos hbusy

/-- Settles O50. -/
theorem oneWayOffsets : Obligations.OneWayOffsets := by
  unfold Obligations.OneWayOffsets
  exact fun s v off haligned => ⟨memWrite_of_readOnlyOffset v s haligned,
    fun h => memRead_of_readLoc_zero (readLoc_of_writeOnlyOffset s h)⟩

theorem reservedOffset_lt {off : Nat} (h : reservedOffset off) : off < windowBytes := by
  rw [reservedOffset_iff] at h
  unfold windowBytes
  omega

/-- Settles O49. -/
theorem reservedOffsetsInert : Obligations.ReservedOffsetsInert := by
  unfold Obligations.ReservedOffsetsInert
  intro s v off haligned hoff
  have hlocate : locate off = .reserved := locate_of_reserved hoff
  have hread : memRead off s = 0 := memRead_of_readLoc_zero (by rw [hlocate]; rfl)
  have hwrite : memWrite off v s = s := memWrite_of_reserved v s hlocate
  have hlt := reservedOffset_lt hoff
  exact ⟨hread, hwrite, checkAccess_next.2 ⟨hlt, rfl, haligned, by rw [hread]⟩,
    checkAccess_next.2 ⟨hlt, rfl, haligned, hwrite.symm⟩⟩

end Sys2Proof.Machine
end

