-- ==== Sys2Proof/Proofs/BusWords.lean ====
section
/-! Bus words of the wide and curve registers and of the buffers: obligations O51 and O52. -/

namespace Sys2Proof.Machine

/-! Wide and curve registers (20_memory.md R86). -/

theorem getLsbD_busWord {n : Nat} (v : BitVec n) (k i : Nat) (hi : i < 32) :
    (busWord v k).getLsbD i = v.getLsbD (n - 32 - 32 * k + i) := by
  simp [busWord, hi]

/-- Words of a register are disjoint: a write to one is read there and nowhere else. -/
theorem busWord_setBusWord {n : Nat} (v : BitVec n) (j k : Nat) (w : Word) (hj : 32 * (j + 1) ≤ n)
    (hk : 32 * (k + 1) ≤ n) : busWord (setBusWord v j w) k = if k = j then w else busWord v k := by
  refine BitVec.eq_of_getLsbD_eq fun i hi => ?_
  rw [getLsbD_busWord _ k i hi, getLsbD_setBusWord _ j w _ (by omega)]
  by_cases hkj : k = j
  · subst hkj
    rw [if_pos (by omega), if_pos rfl, Nat.add_sub_cancel_left]
  · rw [if_neg (by omega), if_neg hkj, getLsbD_busWord v k i hi]

theorem locate_curveWord {k j : Nat} {r : CurveReg} (hr : curveSlot k = some r) (hj : 32 * (j + 1) ≤ Config.ecBits) :
    locate (0x400 + 0x40 * k + 4 * j) = .curveReg r j := by
  unfold Config.ecBits at hj
  exact locate_of_curveReg hr (by omega) (by omega)

theorem locate_wideWord {k j : Nat} {r : WideReg} (hr : wideSlot k = some r) (hj : 32 * (j + 1) ≤ Config.bnBits) :
    locate (0x1000 + 0x200 * k + 4 * j) = .wide r j := by
  unfold Config.bnBits at hj
  exact locate_of_wide hr (by omega) (by omega)

section
variable {base : Nat}

theorem readsWordsAt_curve (k : Nat) {r : CurveReg} {get : State → BitVec Config.ecBits} (hr : curveSlot k = some r)
    (hbase : 0x400 + 0x40 * k = base) (hget : ∀ s, curveRegRead s r = get s) : readsWordsAt base get := by
  intro s j hj hidle
  rw [← hbase, memRead_of_idle (locate_curveWord hr hj) hidle, ← hget]
  rfl

theorem readsWordsAt_wide (k : Nat) {r : WideReg} {get : State → BitVec Config.bnBits} (hr : wideSlot k = some r)
    (hbase : 0x1000 + 0x200 * k = base) (hget : ∀ s, wideRegRead s r = get s) : readsWordsAt base get := by
  intro s j hj hidle
  rw [← hbase, memRead_of_idle (locate_wideWord hr hj) hidle, ← hget]
  rfl

theorem writesWordsAt_curve (k : Nat) {r : CurveReg} {get : State → BitVec Config.ecBits}
    {set : State → BitVec Config.ecBits → State} (hr : curveSlot k = some r) (hbase : 0x400 + 0x40 * k = base)
    (hset : ∀ s j w, curveRegWrite s j w r = some (set s (setBusWord (get s) j w))) : writesWordsAt base get set := by
  intro s j w hj hidle
  rw [← hbase, memWrite_of_idle (locate_curveWord hr hj) (hset s j w) hidle]

theorem writesWordsAt_wide (k : Nat) {r : WideReg} {get : State → BitVec Config.bnBits}
    {set : State → BitVec Config.bnBits → State} (hr : wideSlot k = some r) (hbase : 0x1000 + 0x200 * k = base)
    (hset : ∀ s j w, wideRegWrite s j w r = some (set s (setBusWord (get s) j w))) : writesWordsAt base get set := by
  intro s j w hj hidle
  rw [← hbase, memWrite_of_idle (locate_wideWord hr hj) (hset s j w) hidle]

end

/-- Settles O51: each register by the number of its slot. -/
theorem registerWordPacking : Obligations.RegisterWordPacking := by
  unfold Obligations.RegisterWordPacking
  refine ⟨fun n j k v w hj hk => busWord_setBusWord v j k w hj hk, ⟨?_, ?_, ?_, ?_⟩,
    ⟨?_, ?_, ?_, ?_, ?_, ?_, ?_, ?_⟩, ⟨?_, ?_, ?_, ?_, ?_, ?_, ?_, ?_, ?_, ?_⟩, ?_, ?_, ?_, ?_, ?_, ?_, ?_, ?_⟩
  · exact readsWordsAt_wide 0 rfl rfl fun _ => rfl
  · exact readsWordsAt_wide 1 rfl rfl fun _ => rfl
  · exact readsWordsAt_wide 2 rfl rfl fun _ => rfl
  · exact readsWordsAt_wide 3 rfl rfl fun _ => rfl
  · exact writesWordsAt_wide 0 rfl rfl fun _ _ _ => rfl
  · exact writesWordsAt_wide 1 rfl rfl fun _ _ _ => rfl
  · exact writesWordsAt_wide 2 rfl rfl fun _ _ _ => rfl
  · exact writesWordsAt_wide 4 rfl rfl fun _ _ _ => rfl
  · exact writesWordsAt_wide 5 rfl rfl fun _ _ _ => rfl
  · exact writesWordsAt_wide 6 rfl rfl fun _ _ _ => rfl
  · exact writesWordsAt_wide 7 rfl rfl fun _ _ _ => rfl
  · exact writesWordsAt_wide 8 rfl rfl fun _ _ _ => rfl
  · exact readsWordsAt_curve 1 rfl rfl fun _ => rfl
  · exact readsWordsAt_curve 2 rfl rfl fun _ => rfl
  · exact readsWordsAt_curve 3 rfl rfl fun _ => rfl
  · exact readsWordsAt_curve 4 rfl rfl fun _ => rfl
  · exact readsWordsAt_curve 5 rfl rfl fun _ => rfl
  · exact readsWordsAt_curve 6 rfl rfl fun _ => rfl
  · exact readsWordsAt_curve 7 rfl rfl fun _ => rfl
  · exact readsWordsAt_curve 8 rfl rfl fun _ => rfl
  · exact readsWordsAt_curve 9 rfl rfl fun _ => rfl
  · exact readsWordsAt_curve 10 rfl rfl fun _ => rfl
  · exact writesWordsAt_curve 0 rfl rfl fun _ _ _ => rfl
  · exact writesWordsAt_curve 1 rfl rfl fun _ _ _ => rfl
  · exact writesWordsAt_curve 2 rfl rfl fun _ _ _ => rfl
  · exact writesWordsAt_curve 3 rfl rfl fun _ _ _ => rfl
  · exact writesWordsAt_curve 4 rfl rfl fun _ _ _ => rfl
  · exact writesWordsAt_curve 5 rfl rfl fun _ _ _ => rfl
  · exact writesWordsAt_curve 6 rfl rfl fun _ _ _ => rfl
  · exact writesWordsAt_curve 7 rfl rfl fun _ _ _ => rfl

/-! Buffers (20_memory.md R85). -/

/-- The bytes of a bus word, the first in bits 31:24. -/
theorem beBytes_word (v : Word) :
    beBytes 4 v.toNat = [v.extractLsb' 24 8, v.extractLsb' 16 8, v.extractLsb' 8 8, v.extractLsb' 0 8] := rfl

theorem read_writeWord (m : Memory) (a : Nat) (v : Word) {i : Nat} (hi : i < 4) :
    Memory.read (Memory.writeWord m a v) (a + i) =
      [v.extractLsb' 24 8, v.extractLsb' 16 8, v.extractLsb' 8 8, v.extractLsb' 0 8].getD i 0 := by
  rw [Memory.writeWord, read_writeBytes, length_beBytes, if_pos (by omega), Nat.add_sub_cancel_left, beBytes_word]

theorem toNat_append_byte {w : Nat} (x : BitVec w) (b : Byte) : (x ++ b).toNat = 256 * x.toNat + b.toNat := by
  rw [BitVec.toNat_append, ← Nat.shiftLeft_add_eq_or_of_lt b.isLt, Nat.shiftLeft_eq]
  omega

/-- A bus word of a buffer is its four bytes, the lowest address first. -/
theorem readWord_eq_append (m : Memory) (a : Nat) : Memory.readWord m a =
    Memory.read m a ++ Memory.read m (a + 1) ++ Memory.read m (a + 2) ++ Memory.read m (a + 3) := by
  refine BitVec.eq_of_toNat_eq ?_
  have hlt : natBE (Memory.readBytes m a 4) < 2 ^ 32 := by
    simpa using natBE_lt (Memory.readBytes m a 4)
  simp only [toNat_append_byte]
  rw [Memory.readWord, BitVec.toNat_ofNat, Nat.mod_eq_of_lt hlt]
  simp [Memory.readBytes, natBE]

theorem memWrite_of_buffer {s : State} {off : Nat} (v : Word) (hidle : s.status.busy = false)
    (hoff : inMsg off ∨ inKey off) : memWrite off v s = { s with mem := Memory.writeWord s.mem off v } :=
  hoff.elim (fun h => memWrite_of_idle (locate_of_msg h) rfl hidle) fun h => memWrite_of_idle (locate_of_key h) rfl hidle

theorem memRead_of_buffer {s : State} {off : Nat} (hidle : s.status.busy = false) (hoff : inMsg off ∨ inOut off) :
    memRead off s = Memory.readWord s.mem off :=
  hoff.elim (fun h => memRead_of_idle (locate_of_msg h) hidle) fun h => memRead_of_idle (locate_of_out h) hidle

/-- Settles O52. -/
theorem bufferWordPacking : Obligations.BufferWordPacking := by
  unfold Obligations.BufferWordPacking
  refine ⟨fun s v off hidle _ hoff => ?_, fun s off hidle _ hoff => ?_⟩
  · have hwrite := memWrite_of_buffer v hidle hoff
    have hmem : (memWrite off v s).mem = Memory.writeWord s.mem off v := by rw [hwrite]
    have hbyte {i : Nat} (hi : i < 4) := read_writeWord s.mem off v hi
    rw [← hmem] at hbyte
    refine ⟨hbyte (i := 0) (by decide), hbyte (i := 1) (by decide), hbyte (i := 2) (by decide),
      hbyte (i := 3) (by decide), fun a ha => ?_, ?_, fun hmsg => ?_⟩
    · rw [hmem, read_writeWord_other _ _ _ _ ha]
    · rw [hmem, hwrite]
    · rw [hwrite, memRead_of_buffer (s := { s with mem := Memory.writeWord s.mem off v }) hidle (.inl hmsg),
        readWord_writeWord]
  · rw [memRead_of_buffer hidle hoff, readWord_eq_append]

end Sys2Proof.Machine
end

