-- ==== Sys2Proof/Proofs/BusAccesses.lean ====
section
/-! The host accesses that exist, as events and as accesses: obligation O53. -/

namespace Sys2Proof.Machine

theorem checkAccess_of_exists {off width : Nat} (t : State) (hin : off < 0x10000) (hwidth : width = 4)
    (haligned : off % 4 = 0) : checkAccess off width t = .next t := checkAccess_next.2 ⟨hin, hwidth, haligned, rfl⟩

theorem checkAccess_of_unsupported {off width : Nat} (t : State) (h : width ≠ 4 ∨ off % 4 ≠ 0) :
    checkAccess off width t = .refused (.unsupportedAccess off width) := if_pos h

theorem checkAccess_of_outside {off width : Nat} (t : State) (hout : 0x10000 ≤ off) (hwidth : width = 4)
    (haligned : off % 4 = 0) : checkAccess off width t = .refused (.outsideWindow off) := by
  unfold checkAccess
  rw [if_neg (by omega)]
  exact if_pos hout

/-- Settles O53: `busRead` and `busWrite` are `checkAccess` of the access's rule. -/
theorem busAccessesThatExist : Obligations.BusAccessesThatExist := by
  unfold Obligations.BusAccessesThatExist
  refine ⟨fun s rest v off width => ⟨step_of_inputs_cons, step_of_inputs_cons⟩, fun s v off width => ⟨?_, ?_, ?_⟩⟩
  · exact fun hin hwidth haligned =>
      ⟨checkAccess_of_exists _ hin hwidth haligned, checkAccess_of_exists _ hin hwidth haligned⟩
  · exact fun h => ⟨checkAccess_of_unsupported _ h, checkAccess_of_unsupported _ h⟩
  · exact fun hout hwidth haligned =>
      ⟨checkAccess_of_outside _ hout hwidth haligned, checkAccess_of_outside _ hout hwidth haligned⟩

end Sys2Proof.Machine
end

