-- ==== Sys2Proof/Proofs/OpcodeRows.lean ====
section
/-! The opcode map row by row (30_encoding.md R116): each row against the encoder, the table `opTable` and
well-formedness, and each command against its row. Every fact about decoding is read off these two. -/

namespace Sys2Proof.Machine

/-- What R116 says of a row: it stands in the table, and the commands it builds are encoded as the fields it took, the
fields it does not take being 0. -/
structure RowFits (opc : BitVec 8) (row : OpRow) : Prop where
  mem_opTable : (opc, row.takesAlg, row.modMask) ∈ opTable
  encodeOpc_build : ∀ alg m, encodeOpc (row.build alg m) = opc
  encodeAlg_build : ∀ alg m, encodeAlg (row.build alg m) = if row.takesAlg then alg else 0
  encodeMod_build : ∀ alg m, encodeMod (row.build alg m) = m &&& row.modMask
  wf_build : ∀ alg m, (row.build alg m).wf = (!row.takesAlg || algAvailable alg)

theorem plainRow_fits {opc : BitVec 8} (i : Instr) (hmem : (opc, false, 0) ∈ opTable := by decide)
    (hopc : encodeOpc i = opc := by rfl) (halg : encodeAlg i = 0 := by rfl) (hmod : encodeMod i = 0 := by rfl)
    (hwf : i.wf = true := by rfl) : RowFits opc (plainRow i) :=
  ⟨hmem, fun _ _ => hopc, fun _ _ => halg, fun _ _ => hmod.trans BitVec.and_zero.symm, fun _ _ => hwf⟩

theorem algRow_fits {opc : BitVec 8} (f : BitVec 4 → Instr) (hmem : (opc, true, 0) ∈ opTable := by decide)
    (hopc : ∀ alg, encodeOpc (f alg) = opc := by exact fun _ => rfl)
    (halg : ∀ alg, encodeAlg (f alg) = alg := by exact fun _ => rfl)
    (hmod : ∀ alg, encodeMod (f alg) = 0 := by exact fun _ => rfl)
    (hwf : ∀ alg, (f alg).wf = algAvailable alg := by exact fun _ => rfl) : RowFits opc (algRow f) :=
  ⟨hmem, fun alg _ => hopc alg, fun alg _ => halg alg, fun alg _ => (hmod alg).trans BitVec.and_zero.symm,
    fun alg _ => hwf alg⟩

/-! The MOD field and its bits (30_encoding.md R114). -/

theorem modBits_getLsbD : ∀ m : BitVec 4, modBits (m.getLsbD 1) (m.getLsbD 0) = m &&& 0b0011#4 := by decide

theorem modBits_false_getLsbD : ∀ m : BitVec 4, modBits false (m.getLsbD 0) = m &&& 0b0001#4 := by decide

@[simp] theorem getLsbD_modBits_zero : ∀ b a : Bool, (modBits b a).getLsbD 0 = a := by decide

@[simp] theorem getLsbD_modBits_one : ∀ b a : Bool, (modBits b a).getLsbD 1 = b := by decide

/-- The row of a block cipher: two MOD bits, no algorithm. -/
theorem cipherRow_fits {opc : BitVec 8} (f : Bool → Bool → Instr) (hmem : (opc, false, 0b0011#4) ∈ opTable := by decide)
    (hopc : ∀ b a, encodeOpc (f b a) = opc := by exact fun _ _ => rfl)
    (halg : ∀ b a, encodeAlg (f b a) = 0 := by exact fun _ _ => rfl)
    (hmod : ∀ b a, encodeMod (f b a) = modBits b a := by exact fun _ _ => rfl)
    (hwf : ∀ b a, (f b a).wf = true := by exact fun _ _ => rfl) :
    RowFits opc ⟨false, 0b0011#4, fun _ m => f (m.getLsbD 1) (m.getLsbD 0)⟩ :=
  ⟨hmem, fun _ _ => hopc _ _, fun _ _ => halg _ _, fun _ m => (hmod _ _).trans (modBits_getLsbD m), fun _ _ => hwf _ _⟩

/-- The row of a signature: an algorithm and the MOD bit DG. -/
theorem signRow_fits {opc : BitVec 8} (f : BitVec 4 → Bool → Instr) (hmem : (opc, true, 0b0001#4) ∈ opTable := by decide)
    (hopc : ∀ alg dg, encodeOpc (f alg dg) = opc := by exact fun _ _ => rfl)
    (halg : ∀ alg dg, encodeAlg (f alg dg) = alg := by exact fun _ _ => rfl)
    (hmod : ∀ alg dg, encodeMod (f alg dg) = modBits false dg := by exact fun _ _ => rfl)
    (hwf : ∀ alg dg, (f alg dg).wf = algAvailable alg := by exact fun _ _ => rfl) :
    RowFits opc ⟨true, 0b0001#4, fun alg m => f alg (m.getLsbD 0)⟩ :=
  ⟨hmem, fun _ _ => hopc _ _, fun _ _ => halg _ _, fun _ m => (hmod _ _).trans (modBits_false_getLsbD m),
    fun _ _ => hwf _ _⟩

theorem rowFits_of_toNat {opc : BitVec 8} {n : Nat} {r row : OpRow} (hopc : opc.toNat = n) (hr : some r = some row)
    (h : RowFits (BitVec.ofNat 8 n) r) : RowFits opc row := by
  obtain rfl : r = row := Option.some.inj hr
  rwa [← hopc, BitVec.ofNat_toNat, BitVec.setWidth_eq] at h

/-- Every row of the decoder's opcode map says what R116 says. -/
theorem rowFits_of_opRow {opc : BitVec 8} {row : OpRow} (h : opRow opc = some row) : RowFits opc row := by
  unfold opRow at h
  split at h
  case h_1 hn => exact rowFits_of_toNat hn h (plainRow_fits .nop)
  case h_2 hn => exact rowFits_of_toNat hn h (plainRow_fits .zeroize)
  case h_3 hn => exact rowFits_of_toNat hn h (algRow_fits .hinit)
  case h_4 hn => exact rowFits_of_toNat hn h (plainRow_fits .hupdate)
  case h_5 hn => exact rowFits_of_toNat hn h (plainRow_fits .hfinal)
  case h_6 hn => exact rowFits_of_toNat hn h (algRow_fits .hcomp)
  case h_7 hn => exact rowFits_of_toNat hn h (algRow_fits .hash)
  case h_8 hn => exact rowFits_of_toNat hn h (algRow_fits .hmkey)
  case h_9 hn => exact rowFits_of_toNat hn h (plainRow_fits .hminit)
  case h_10 hn => exact rowFits_of_toNat hn h (plainRow_fits .hmfinal)
  case h_11 hn => exact rowFits_of_toNat hn h (algRow_fits .hmac)
  case h_12 hn => exact rowFits_of_toNat hn h (cipherRow_fits .tdesd)
  case h_13 hn => exact rowFits_of_toNat hn h (cipherRow_fits .rc2d)
  case h_14 hn => exact rowFits_of_toNat hn h (plainRow_fits .modexp)
  case h_15 hn => exact rowFits_of_toNat hn h (plainRow_fits .modinv)
  case h_16 hn => exact rowFits_of_toNat hn h (plainRow_fits .modcrt)
  case h_17 hn => exact rowFits_of_toNat hn h (plainRow_fits .ecdbl)
  case h_18 hn => exact rowFits_of_toNat hn h (plainRow_fits .ecadd)
  case h_19 hn => exact rowFits_of_toNat hn h (plainRow_fits .ecmul)
  case h_20 hn => exact rowFits_of_toNat hn h (plainRow_fits .ecaff)
  case h_21 hn => exact rowFits_of_toNat hn h (plainRow_fits .ecldg)
  case h_22 hn => exact rowFits_of_toNat hn h (signRow_fits .rsasign)
  case h_23 hn => exact rowFits_of_toNat hn h (signRow_fits .ecsign)
  case h_24 => cases h

/-- Every command has a row, which builds it back from its own fields. -/
theorem exists_row_of_instr (i : Instr) :
    ∃ row, opRow (encodeOpc i) = some row ∧ row.build (encodeAlg i) (encodeMod i) = i := by
  cases i with
  | nop | zeroize | hupdate | hfinal | hminit | hmfinal => exact ⟨_, rfl, rfl⟩
  | modexp | modinv | modcrt | ecdbl | ecadd | ecmul | ecaff | ecldg => exact ⟨_, rfl, rfl⟩
  | hinit alg | hcomp alg | hash alg | hmkey alg | hmac alg => exact ⟨_, rfl, rfl⟩
  | tdesd k2 fin | rc2d e128 fin => exact ⟨_, rfl, by simp only [encodeMod, getLsbD_modBits_one, getLsbD_modBits_zero]⟩
  | rsasign alg dg | ecsign alg dg => exact ⟨_, rfl, by simp only [encodeAlg, encodeMod, getLsbD_modBits_zero]⟩

/-! The decoder's map against the table of the statements. -/

theorem opRow_eq_none {opc : BitVec 8} (h : ∀ r ∈ opTable, r.1 ≠ opc) : opRow opc = none :=
  Option.eq_none_iff_forall_ne_some.2 fun _ hrow => h _ (rowFits_of_opRow hrow).mem_opTable rfl

/-- The decoder's map gives every row of the table its ALG column and its MOD mask. -/
theorem opRow_of_mem_opTable :
    ∀ r ∈ opTable, (opRow r.1).map (fun row => (row.takesAlg, row.modMask)) = some r.2 := List.map_inj_left.1 rfl

theorem exists_row_of_mem_opTable {opc : BitVec 8} {takesAlg : Bool} {mask : BitVec 4}
    (h : (opc, takesAlg, mask) ∈ opTable) :
    ∃ row, opRow opc = some row ∧ row.takesAlg = takesAlg ∧ row.modMask = mask := by
  obtain ⟨row, hrow, heq⟩ := Option.map_eq_some_iff.1 (opRow_of_mem_opTable _ h)
  exact ⟨row, hrow, Prod.mk.inj heq⟩

end Sys2Proof.Machine
end

