-- ==== Sys2Proof/Proofs/EncodingRoundTrip.lean ====
section
/-! Encoding and decoding are inverse to each other, and decoding follows the table: obligations O1 to O4. -/

namespace Sys2Proof.Machine

/-! The fields of a word (30_encoding.md R111). -/

theorem encode_fields (i : Instr) : Laws.EncodeFields.Statement i := by
  cases i with
  | nop => exact Laws.EncodeFields.nop
  | zeroize => exact Laws.EncodeFields.zeroize
  | hinit alg => exact Laws.EncodeFields.hinit alg
  | hupdate => exact Laws.EncodeFields.hupdate
  | hfinal => exact Laws.EncodeFields.hfinal
  | hcomp alg => exact Laws.EncodeFields.hcomp alg
  | hash alg => exact Laws.EncodeFields.hash alg
  | hmkey alg => exact Laws.EncodeFields.hmkey alg
  | hminit => exact Laws.EncodeFields.hminit
  | hmfinal => exact Laws.EncodeFields.hmfinal
  | hmac alg => exact Laws.EncodeFields.hmac alg
  | tdesd k2 fin => exact Laws.EncodeFields.tdesd k2 fin
  | rc2d e128 fin => exact Laws.EncodeFields.rc2d e128 fin
  | modexp => exact Laws.EncodeFields.modexp
  | modinv => exact Laws.EncodeFields.modinv
  | modcrt => exact Laws.EncodeFields.modcrt
  | ecdbl => exact Laws.EncodeFields.ecdbl
  | ecadd => exact Laws.EncodeFields.ecadd
  | ecmul => exact Laws.EncodeFields.ecmul
  | ecaff => exact Laws.EncodeFields.ecaff
  | ecldg => exact Laws.EncodeFields.ecldg
  | rsasign alg dg => exact Laws.EncodeFields.rsasign alg dg
  | ecsign alg dg => exact Laws.EncodeFields.ecsign alg dg

/-- The four fields are the whole word. -/
theorem word_eq_fields (c : Word) : c = fieldOpc c ++ fieldAlg c ++ fieldMod c ++ fieldRsv c := by
  apply BitVec.eq_of_getLsbD_eq
  intro j hj
  simp only [fieldOpc, fieldAlg, fieldMod, fieldRsv, BitVec.getLsbD_append, BitVec.getLsbD_extractLsb']
  grind

/-! The cases of decoding, first failure first (30_encoding.md R117). -/

/-- A row takes these ALG and MOD fields: no MOD bit outside the mask, and ALG 0 where it takes no algorithm. -/
def Admits (row : OpRow) (alg m : BitVec 4) : Prop :=
  m &&& ~~~row.modMask = 0 ∧ (row.takesAlg = false → alg = 0)

theorem decode_of_reserved {c : Word} (h : fieldRsv c ≠ 0) : decode c = .error .illegalCmd := if_pos h

theorem decode_of_unassigned {c : Word} (h : opRow (fieldOpc c) = none) : decode c = .error .illegalCmd := by
  simp [decode, h]

theorem decode_of_not_admits {c : Word} {row : OpRow} (hrow : opRow (fieldOpc c) = some row)
    (h : ¬ Admits row (fieldAlg c) (fieldMod c)) : decode c = .error .illegalCmd := by
  unfold Admits at h
  simp only [decode, hrow]
  grind

theorem decode_of_admits {c : Word} {row : OpRow} (hrsv : fieldRsv c = 0) (hrow : opRow (fieldOpc c) = some row)
    (h : Admits row (fieldAlg c) (fieldMod c)) : decode c = .ok (row.build (fieldAlg c) (fieldMod c)) := by
  obtain ⟨hmod, halg⟩ := h
  simpa [decode, hrsv, hrow, hmod] using halg

/-- A word decodes only if every check of R117 passes. -/
theorem decode_ok {c : Word} {i : Instr} (h : decode c = .ok i) :
    fieldRsv c = 0 ∧ ∃ row, opRow (fieldOpc c) = some row ∧ Admits row (fieldAlg c) (fieldMod c)
      ∧ row.build (fieldAlg c) (fieldMod c) = i := by
  have hrsv : fieldRsv c = 0 := Decidable.byContradiction fun hne => by simp [decode_of_reserved hne] at h
  cases hrow : opRow (fieldOpc c) with
  | none => simp [decode_of_unassigned hrow] at h
  | some row =>
    by_cases hadmits : Admits row (fieldAlg c) (fieldMod c)
    · rw [decode_of_admits hrsv hrow hadmits] at h
      exact ⟨hrsv, row, rfl, hadmits, Except.ok.inj h⟩
    · simp [decode_of_not_admits hrow hadmits] at h

theorem decodeCommand_of_decode_error {c : Word} {e : FaultCode} (h : decode c = .error e) :
    decodeCommand c = .error e := by
  simp [decodeCommand, h]

theorem decodeCommand_of_wf {c : Word} {i : Instr} (h : decode c = .ok i) (hwf : i.wf = true) :
    decodeCommand c = .ok i := by
  simp [decodeCommand, h, hwf]

theorem decodeCommand_of_not_wf {c : Word} {i : Instr} (h : decode c = .ok i) (hwf : i.wf = false) :
    decodeCommand c = .error .unsupHash := by
  simp [decodeCommand, h, hwf]

/-! The two round trips. -/

/-- The row of a command takes the command's own fields. -/
theorem admits_encode {i : Instr} {row : OpRow} (hrow : opRow (encodeOpc i) = some row)
    (hbuild : row.build (encodeAlg i) (encodeMod i) = i) : Admits row (encodeAlg i) (encodeMod i) := by
  have hfits := rowFits_of_opRow hrow
  have hmod := hfits.encodeMod_build (encodeAlg i) (encodeMod i)
  have halg := hfits.encodeAlg_build (encodeAlg i) (encodeMod i)
  rw [hbuild] at hmod halg
  refine ⟨?_, fun hnone => by simpa [hnone] using halg⟩
  rw [hmod, BitVec.and_assoc, BitVec.and_not_self]
  exact BitVec.and_zero

theorem decode_encode (i : Instr) : decode (encode i) = .ok i := by
  obtain ⟨hopc, halg, hmod, hrsv⟩ := encode_fields i
  obtain ⟨row, hrow, hbuild⟩ := exists_row_of_instr i
  have hadmits := admits_encode hrow hbuild
  rw [← hopc] at hrow
  rw [← halg, ← hmod] at hadmits
  rw [decode_of_admits hrsv hrow hadmits, halg, hmod, hbuild]

theorem decodeCommand_encode {i : Instr} (hwf : i.wf = true) : decodeCommand (encode i) = .ok i :=
  decodeCommand_of_wf (decode_encode i) hwf

/-- The encoding of what a row builds is made of the fields it took. -/
theorem encode_build {opc : BitVec 8} {row : OpRow} {alg m : BitVec 4} (hfits : RowFits opc row)
    (h : Admits row alg m) : encode (row.build alg m) = opc ++ alg ++ m ++ 0#16 := by
  obtain ⟨hmod, halg⟩ := h
  have hencodeAlg : encodeAlg (row.build alg m) = alg := by
    rw [hfits.encodeAlg_build]
    cases htakes : row.takesAlg with
    | true => rfl
    | false => exact (halg htakes).symm
  have hencodeMod : encodeMod (row.build alg m) = m := by
    rw [hfits.encodeMod_build]
    calc m &&& row.modMask
        = (m &&& row.modMask) ||| (m &&& ~~~row.modMask) := by rw [hmod]; simp
      _ = m := by rw [← BitVec.and_or_distrib_left, BitVec.or_not_self, BitVec.and_allOnes]
  rw [encode, hfits.encodeOpc_build, hencodeAlg, hencodeMod]

theorem eq_encode_of_decode {c : Word} {i : Instr} (h : decode c = .ok i) : c = encode i := by
  obtain ⟨hrsv, row, hrow, hadmits, rfl⟩ := decode_ok h
  calc c = fieldOpc c ++ fieldAlg c ++ fieldMod c ++ fieldRsv c := word_eq_fields c
    _ = encode (row.build (fieldAlg c) (fieldMod c)) := by
      rw [encode_build (rowFits_of_opRow hrow) hadmits, hrsv]
      rfl

/-- Settles O1. -/
theorem encodedCommandDecodesBack : Obligations.EncodedCommandDecodesBack := by
  unfold Obligations.EncodedCommandDecodesBack
  exact fun i => ⟨decode_encode i, decodeCommand_encode⟩

/-- Settles O2. -/
theorem decodedWordIsItsEncoding : Obligations.DecodedWordIsItsEncoding := by
  unfold Obligations.DecodedWordIsItsEncoding
  exact fun _ _ h => eq_encode_of_decode h

/-! Decoding follows the table. -/

/-- ALG names an algorithm of the core exactly when 60_exceptions.md R383 does not call it unsupported. -/
theorem algAvailable_eq_not_hashUnsupported : ∀ alg, algAvailable alg = !hashUnsupported alg := by decide

theorem hashUnsupported_eq_false :
    ∀ alg : BitVec 4, 2 ≤ alg.toNat → alg.toNat ≤ 4 → hashUnsupported alg = false := by decide

/-- A word that passes the ILLEGAL_CMD lines of R117 and whose ALG names an algorithm where it has to. -/
theorem decodeCommand_of_supported {c : Word} {row : OpRow} (hrsv : fieldRsv c = 0)
    (hrow : opRow (fieldOpc c) = some row) (h : Admits row (fieldAlg c) (fieldMod c))
    (halg : row.takesAlg = true → hashUnsupported (fieldAlg c) = false) :
    ∃ i, decodeCommand c = .ok i ∧ encode i = c := by
  have hdecode := decode_of_admits hrsv hrow h
  have hwf : (row.build (fieldAlg c) (fieldMod c)).wf = true := by
    rw [(rowFits_of_opRow hrow).wf_build, algAvailable_eq_not_hashUnsupported]
    cases htakes : row.takesAlg with
    | true => simp [halg htakes]
    | false => rfl
  exact ⟨_, decodeCommand_of_wf hdecode hwf, (eq_encode_of_decode hdecode).symm⟩

/-- A word that passes the ILLEGAL_CMD lines of R117 and whose ALG names no algorithm where it has to. -/
theorem decodeCommand_of_unsupported {c : Word} {row : OpRow} (hrsv : fieldRsv c = 0)
    (hrow : opRow (fieldOpc c) = some row) (hmod : fieldMod c &&& ~~~row.modMask = 0) (htakes : row.takesAlg = true)
    (halg : hashUnsupported (fieldAlg c) = true) : decodeCommand c = .error .unsupHash := by
  have hadmits : Admits row (fieldAlg c) (fieldMod c) := ⟨hmod, fun hnone => by simp [htakes] at hnone⟩
  refine decodeCommand_of_not_wf (decode_of_admits hrsv hrow hadmits) ?_
  rw [(rowFits_of_opRow hrow).wf_build, algAvailable_eq_not_hashUnsupported, htakes, halg]
  rfl

/-- Settles O3: the table names a row of the decoder's map, and the row decides each case. -/
theorem decodingFollowsTheTable : Obligations.DecodingFollowsTheTable := by
  unfold Obligations.DecodingFollowsTheTable
  intro c
  refine ⟨fun h => decodeCommand_of_decode_error (decode_of_reserved h),
    fun _ h => decodeCommand_of_decode_error (decode_of_unassigned (opRow_eq_none h)), fun takesAlg mask hrsv hmem => ?_⟩
  obtain ⟨row, hrow, rfl, rfl⟩ := exists_row_of_mem_opTable hmem
  have hillegal (h : ¬ Admits row (fieldAlg c) (fieldMod c)) : decodeCommand c = .error .illegalCmd :=
    decodeCommand_of_decode_error (decode_of_not_admits hrow h)
  refine ⟨fun hmod => hillegal fun h => hmod h.1, fun hmod htakes => ⟨fun halg => ?_, fun halg => ?_⟩,
    fun hmod htakes => ⟨fun halg => ?_, fun halg hsha1 => ?_, fun hlow hhigh => ?_⟩⟩
  · exact hillegal fun h => halg (h.2 htakes)
  · exact decodeCommand_of_supported hrsv hrow ⟨hmod, fun _ => halg⟩ fun h => by simp [htakes] at h
  · exact decodeCommand_of_unsupported hrsv hrow hmod htakes (by simpa [hashUnsupported] using Or.inl halg)
  · exact decodeCommand_of_unsupported hrsv hrow hmod htakes (by simp [hashUnsupported, halg, hsha1])
  · exact decodeCommand_of_supported hrsv hrow ⟨hmod, fun h => by simp [htakes] at h⟩
      fun _ => hashUnsupported_eq_false _ hlow hhigh

theorem decodeCommand_of_encode_eq {c : Word} {i : Instr} (hc : encode i = c) (hwf : i.wf = true) :
    decodeCommand c = .ok i := hc ▸ decodeCommand_encode hwf

/-- Settles O4: each word is the encoding of a well-formed command. -/
theorem specWordsDecode : Obligations.SpecWordsDecode := by
  unfold Obligations.SpecWordsDecode
  and_intros <;> exact decodeCommand_of_encode_eq (by decide) rfl

end Sys2Proof.Machine
end

