-- ==== Sys2Proof/Proofs/UndecodableWord.lean ====
section
/-! A pending word that does not decode: obligation O6. -/

namespace Sys2Proof.Machine

/-- A word is refused by the ILLEGAL_CMD lines of R117, or for the ALG field of the command it stands for (log 6). -/
theorem decodeCommand_error {w : Word} {c : FaultCode} (h : decodeCommand w = .error c) :
    decode w = .error c ∨ ∃ i, decode w = .ok i ∧ i.wf = false ∧ c = .unsupHash := by
  cases hd : decode w with
  | error e =>
    rw [decodeCommand_of_decode_error hd] at h
    exact .inl h
  | ok i =>
    cases hwf : i.wf with
    | true => simp [decodeCommand_of_wf hd hwf] at h
    | false =>
      rw [decodeCommand_of_not_wf hd hwf] at h
      exact .inr ⟨i, rfl, hwf, (Except.error.inj h).symm⟩

theorem withHash_of_unavailable {alg : BitVec 4} (h : algAvailable alg = false) (s : State)
    (f : HashAlg → Host.Outcome State Fault Refusal) : withHash alg s f = .next (raiseFault .unsupHash .none s) :=
  withHash_none (Option.not_isSome_iff_eq_none.1 (by simp [selectHash_isSome, h])) s f

/-- An ill-formed command takes UNSUP_HASH in its first check and zeroes nothing (log 6). -/
theorem exec_of_not_wf {i : Instr} (s : State) (h : i.wf = false) :
    exec i s = .next (raiseFault .unsupHash .none s) := by
  cases i with
  | hinit alg | hcomp alg | hash alg | hmkey alg | hmac alg => exact withHash_of_unavailable h s _
  | rsasign alg dg | ecsign alg dg => exact withHash_of_unavailable h s _
  | nop | zeroize | hupdate | hfinal | hminit | hmfinal | tdesd | rc2d => cases h
  | modexp | modinv | modcrt | ecdbl | ecadd | ecmul | ecaff | ecldg => cases h

theorem coreStep_of_undecodable {s : State} {c : FaultCode} (hb : s.status.busy = true)
    (hd : decodeCommand s.cmd = .error c) : coreStep s = .next (raiseFault c .none s) := by
  obtain ⟨hidle, -⟩ | ⟨-, i, hi, hstep⟩ | ⟨-, e, he, hstep⟩ := coreStep_eq s
  · simp [hb] at hidle
  · obtain herror | ⟨j, hj, hwf, rfl⟩ := decodeCommand_error hd
    · simp [hi] at herror
    · obtain rfl : i = j := Except.ok.inj (hi.symm.trans hj)
      rw [hstep, exec_of_not_wf s hwf]
  · obtain rfl : e = c := Except.error.inj ((decodeCommand_of_decode_error he).symm.trans hd)
    exact hstep

theorem raiseFault_none_faultedFrom (c : FaultCode) (s : State) : faultedFrom c .none s (raiseFault c .none s) :=
  ⟨rfl, rfl, rfl, rfl, rfl, rfl, ⟨⟨rfl, rfl, rfl, rfl⟩, ⟨rfl, rfl, rfl, rfl⟩, ⟨rfl, rfl, rfl⟩⟩, ⟨rfl, rfl, rfl⟩,
    ⟨rfl, rfl, rfl⟩, rfl, rfl, ⟨fun _ => rfl, rfl⟩, rfl, rfl⟩

/-- Settles O6. -/
theorem undecodableWordFaults : Obligations.UndecodableWordFaults := by
  unfold Obligations.UndecodableWordFaults
  exact fun s c hin hb hd =>
    ⟨_, (step_of_inputs_nil hin).trans (coreStep_of_undecodable hb hd), raiseFault_none_faultedFrom c s⟩

end Sys2Proof.Machine
end

