-- ==== Sys2Proof/Proofs/HashCommands.lean ====
section
/-! The commands of the hash unit. Each ends in one of two ways: with a new HST, TOTLEN and stream, or with a digest in
OUT and the stream closed. What holds of these two ends is said once: obligations O9 to O13. -/

namespace Sys2Proof.Machine

/-! The two ends. -/

/-- The normal end of a command that wrote HST, TOTLEN and the stream flags. -/
def streamEnd (w : HashWords) (n : BitVec 64) (m : StreamMode) (s : State) : State :=
  endNormal { s with hst := w, totlen := n, stream := m }

/-- The normal end of a command that wrote a result to OUT and closed the stream (40_hash.md R159). -/
def digestEnd (bytes : List Byte) (s : State) : State := endNormal (closeStream (setOut bytes s))

section
variable (w : HashWords) (n : BitVec 64) (m : StreamMode) (bytes : List Byte) (s : State)

@[simp] theorem streamEnd_hst : (streamEnd w n m s).hst = w := rfl
@[simp] theorem streamEnd_totlen : (streamEnd w n m s).totlen = n := rfl
@[simp] theorem streamEnd_stream : (streamEnd w n m s).stream = m := rfl

theorem endsNormally_streamEnd : endsNormally s (streamEnd w n m s) := ⟨rfl, rfl, rfl, rfl, rfl, rfl⟩

theorem streamEnd_frame : keepsOperands s (streamEnd w n m s) ∧ keepsContext s (streamEnd w n m s)
    ∧ keepsIv s (streamEnd w n m s) ∧ keepsBnR s (streamEnd w n m s) ∧ keepsP s (streamEnd w n m s)
    ∧ keepsR s (streamEnd w n m s) ∧ keepsMemory s (streamEnd w n m s) :=
  ⟨⟨⟨rfl, rfl, rfl, rfl⟩, ⟨rfl, rfl, rfl, rfl⟩, ⟨rfl, rfl, rfl⟩⟩, ⟨rfl, rfl, rfl⟩, rfl, rfl, rfl, rfl, fun _ => rfl, rfl⟩

theorem endsNormally_digestEnd : endsNormally s (digestEnd bytes s) := ⟨rfl, rfl, rfl, rfl, rfl, rfl⟩

theorem streamClosed_digestEnd : streamClosed (digestEnd bytes s) := ⟨rfl, rfl, rfl⟩

theorem digestEnd_frame : keepsOperands s (digestEnd bytes s) ∧ keepsContext s (digestEnd bytes s)
    ∧ keepsIv s (digestEnd bytes s) ∧ keepsBnR s (digestEnd bytes s) ∧ keepsP s (digestEnd bytes s)
    ∧ keepsR s (digestEnd bytes s) :=
  ⟨⟨⟨rfl, rfl, rfl, rfl⟩, ⟨rfl, rfl, rfl, rfl⟩, ⟨rfl, rfl, rfl⟩⟩, ⟨rfl, rfl, rfl⟩, rfl, rfl, rfl, rfl⟩

end

/-! What OUT holds after a result is written to it (10_state.md R49). -/

section
variable {bytes : List Byte} (h : bytes.length ≤ Config.msgCap) (s : State)
include h

/-- A byte string no longer than a buffer has its length kept by a 32-bit length register. -/
theorem toNat_ofNat_length : (BitVec.ofNat 32 bytes.length).toNat = bytes.length :=
  Nat.mod_eq_of_lt (h.trans_lt (by decide))

theorem storesOut_setOut : storesOut s (setOut bytes s) bytes := by
  refine ⟨fun j hj => ?_, fun x hx => ?_, toNat_ofNat_length h⟩
  · rw [setOut_mem, read_writeBytes, read_clear]
    by_cases hbytes : j < bytes.length
    · rw [if_pos (by omega), Nat.add_sub_cancel_left]
    · rw [if_neg (by omega), if_pos (by omega), List.getD_eq_default _ _ (by omega)]
  · unfold inOut at hx
    rw [setOut_mem, read_writeBytes, if_neg (by omega), read_clear, if_neg (by omega)]

theorem outBytes_setOut : outBytes (setOut bytes s) = bytes := by
  rw [outBytes, setOut_outlen, toNat_ofNat_length h, setOut_mem, readBytes_writeBytes]

theorem storesOut_digestEnd : storesOut s (digestEnd bytes s) bytes := storesOut_setOut h s

theorem outlen_digestEnd : (digestEnd bytes s).outlen.toNat = bytes.length := toNat_ofNat_length h

theorem outBytes_digestEnd : outBytes (digestEnd bytes s) = bytes := outBytes_setOut h s

end

/-! The commands, where they complete. -/

/-- A check or selection that succeeded, followed by the rest of a command. -/
theorem ok_bind {α β : Type} (x : α) (k : α → Except FaultCode β) : (Except.ok x >>= k) = k x := rfl

section
variable {alg : BitVec 4} {a : HashAlg} {s : State}

theorem exec_hinit (ha : selectHash alg = some a) :
    exec (.hinit alg) s = .next (streamEnd (state0 a) 0 (.plain a) s) := withHash_some ha s _

theorem exec_hupdate (hstream : streamAlg s.stream = some a) (hcap : s.msglen.toNat ≤ Config.msgCap)
    (hblock : s.msglen.toNat % blockBytes a = 0) (hlimit : totalAfter s < lengthLimit a) :
    exec .hupdate s = .next (streamEnd (absorb a (s.msglen.toNat / blockBytes a) s.hst (msgBytes s))
      (BitVec.ofNat 64 (totalAfter s)) s.stream s) := by
  have hlen : ¬ (s.msglen.toNat > Config.msgCap ∨ s.msglen.toNat % blockBytes a ≠ 0) := by omega
  rw [exec, execHupdate, openStream_ok.2 hstream, ok_bind, faultIf_neg hlen, ok_bind,
    faultIf_neg (not_le.2 hlimit)]
  rfl

theorem exec_hfinal (hstream : s.stream = .plain a) (hcap : s.msglen.toNat ≤ Config.msgCap)
    (hlimit : totalAfter s < lengthLimit a) :
    exec .hfinal s = .next (digestEnd (finalize a s.hst (msgBytes s) (totalAfter s)) s) := by
  rw [exec, execHfinal, openPlainStream_ok.2 hstream, ok_bind, faultIf_neg (not_lt.2 hcap), ok_bind,
    faultIf_neg (not_le.2 hlimit)]
  rfl

theorem exec_hcomp (ha : selectHash alg = some a) (hlen : s.msglen.toNat = blockBytes a) :
    exec (.hcomp alg) s
      = .next (streamEnd (compress a s.hst (msgPrefix s (blockBytes a))) s.totlen s.stream s) := by
  rw [exec, execHcomp, withHash_some ha, faultIf_neg (not_not.2 hlen)]
  rfl

theorem exec_hash (ha : selectHash alg = some a) (hcap : s.msglen.toNat ≤ Config.msgCap) :
    exec (.hash alg) s = .next (digestEnd (hashOf a (msgBytes s)) s) := by
  rw [exec, execHash, withHash_some ha, faultIf_neg (not_lt.2 hcap)]
  rfl

end

theorem length_finalize_le (a : HashAlg) (h : HashWords) (tail : List Byte) (total : Nat) :
    (finalize a h tail total).length ≤ Config.msgCap := (length_finalize ..).trans_le (digestBytes_le_msgCap a)

theorem length_hashOf_le (a : HashAlg) (m : List Byte) : (hashOf a m).length ≤ Config.msgCap := length_finalize_le ..

/-- TOTLEN holds every total below the limit (40_hash.md R155). -/
theorem toNat_ofNat_total {a : HashAlg} {n : Nat} (h : n < lengthLimit a) : (BitVec.ofNat 64 n).toNat = n := by
  have hlimit : lengthLimit a ≤ 2 ^ 64 := by cases a <;> decide
  exact Nat.mod_eq_of_lt (h.trans_le hlimit)

/-! The obligations. -/

/-- Settles O10. -/
theorem hupdateCompletes : Obligations.HupdateCompletes := by
  unfold Obligations.HupdateCompletes
  exact fun a s hstream hcap hblock hlimit => ⟨_, exec_hupdate hstream hcap hblock hlimit, endsNormally_streamEnd .., rfl,
    toNat_ofNat_total hlimit, rfl, streamEnd_frame ..⟩

/-- Settles O11. -/
theorem hfinalCompletes : Obligations.HfinalCompletes := by
  unfold Obligations.HfinalCompletes
  intro a s hstream hcap hlimit
  have hfits := length_finalize_le a s.hst (msgBytes s) (totalAfter s)
  exact ⟨_, exec_hfinal hstream hcap hlimit, endsNormally_digestEnd .., storesOut_digestEnd hfits s,
    (outlen_digestEnd hfits s).trans (length_finalize ..), streamClosed_digestEnd .., digestEnd_frame ..⟩

/-- Settles O13. -/
theorem hashCompletes : Obligations.HashCompletes := by
  unfold Obligations.HashCompletes
  intro alg a s ha hcap
  have hfits := length_hashOf_le a (msgBytes s)
  exact ⟨_, exec_hash ha hcap, endsNormally_digestEnd .., storesOut_digestEnd hfits s,
    (outlen_digestEnd hfits s).trans (length_hashOf ..), streamClosed_digestEnd .., digestEnd_frame ..⟩

/-- Settles O9. -/
theorem hinitCompletes : Obligations.HinitCompletes := by
  unfold Obligations.HinitCompletes
  exact fun alg a s ha =>
    ⟨_, exec_hinit ha, endsNormally_streamEnd .., rfl, rfl, rfl, rfl, rfl, rfl, streamEnd_frame ..⟩

/-- Settles O12. -/
theorem hcompCompletes : Obligations.HcompCompletes := by
  unfold Obligations.HcompCompletes
  exact fun alg a s ha hlen =>
    ⟨_, exec_hcomp ha hlen, endsNormally_streamEnd .., rfl, rfl, rfl, streamEnd_frame ..⟩

end Sys2Proof.Machine
end

