-- ==== Sys2Proof/Proofs/StreamedHash.lean ====
section
/-! A hash streamed in any split is the hash of the whole message: obligation O14. -/

namespace Sys2Proof.Machine

/-! The functions: finalising after whole blocks were absorbed. -/

/-- The padding depends on the tail's length only up to whole blocks (40_hash.md R151). -/
theorem pad_add_blocks {a : HashAlg} {n : Nat} (hn : n % blockBytes a = 0) (k total : Nat) :
    pad a (n + k) total = pad a k total := by
  have hmod : (n + k) % blockBytes a = k % blockBytes a := by rw [Nat.add_mod, hn, Nat.zero_add, Nat.mod_mod]
  rw [pad, pad, hmod]

/-- Absorbing all whole blocks of a byte string that begins with the whole blocks `m`. -/
theorem absorb_blocks_append {a : HashAlg} {m : List Byte} (hm : m.length % blockBytes a = 0) (h : HashWords)
    (l : List Byte) : absorb a ((m ++ l).length / blockBytes a) h (m ++ l)
      = absorb a (l.length / blockBytes a) (absorb a (m.length / blockBytes a) h m) l := by
  have hdvd := Nat.dvd_of_mod_eq_zero hm
  rw [List.length_append, Nat.add_div_of_dvd_right hdvd, absorb_append a _ _ h m l (Nat.div_mul_cancel hdvd).symm]

theorem finalize_append {a : HashAlg} {m : List Byte} (hm : m.length % blockBytes a = 0) (h : HashWords)
    (rest : List Byte) (total : Nat) :
    finalize a h (m ++ rest) total = finalize a (absorb a (m.length / blockBytes a) h m) rest total := by
  have hdata : m ++ rest ++ pad a (m ++ rest).length total = m ++ (rest ++ pad a rest.length total) := by
    rw [List.length_append, pad_add_blocks hm, List.append_assoc]
  simp only [finalize, hdata, absorb_blocks_append hm]

/-! A message put into MSG. -/

section
variable {m : List Byte} (h : m.length ≤ Config.msgCap) (s : State)
include h

theorem msglen_loadMsg : (loadMsg m s).msglen.toNat = m.length := toNat_ofNat_length h

theorem msgBytes_loadMsg : msgBytes (loadMsg m s) = m := by
  rw [msgBytes, msglen_loadMsg h]
  exact readBytes_writeBytes s.mem msgBase m

end

/-! The stream. -/

/-- The open plain stream under `a` stands after the message `m` of whole blocks. -/
structure StandsAfter (a : HashAlg) (m : List Byte) (s : State) : Prop where
  stream : s.stream = .plain a
  blocks : m.length % blockBytes a = 0
  hst : s.hst = absorb a (m.length / blockBytes a) (state0 a) m
  totlen : s.totlen.toNat = m.length

theorem standsAfter_nil (a : HashAlg) (s : State) : StandsAfter a [] (streamEnd (state0 a) 0 (.plain a) s) :=
  ⟨rfl, Nat.zero_mod _, by simp [absorb], rfl⟩

/-- Two commands in a row, the host writing MSG and MSGLEN between them. -/
theorem endsNormally_trans {s t u : State} (m : List Byte) (hst : endsNormally s t)
    (htu : endsNormally (loadMsg m t) u) : endsNormally s u := by
  obtain ⟨-, hstatus, hcmd, hie, hinputs, hreads⟩ := hst
  obtain ⟨herr', hstatus', hcmd', hie', hinputs', hreads'⟩ := htu
  refine ⟨herr', ?_, hcmd'.trans hcmd, hie'.trans hie, hinputs'.trans hinputs, hreads'.trans hreads⟩
  rw [hstatus', loadMsg, hstatus]

section
variable {a : HashAlg} {m c : List Byte} {s : State} (hs : StandsAfter a m s)
include hs

theorem totalAfter_loadMsg (hcap : c.length ≤ Config.msgCap) : totalAfter (loadMsg c s) = (m ++ c).length := by
  rw [totalAfter, msglen_loadMsg hcap, List.length_append, ← hs.totlen, loadMsg]

theorem hupdate_standsAfter (hblock : c.length % blockBytes a = 0) (hcap : c.length ≤ Config.msgCap)
    (hlimit : (m ++ c).length < lengthLimit a) :
    ∃ t, exec .hupdate (loadMsg c s) = .next t ∧ endsNormally (loadMsg c s) t ∧ StandsAfter a (m ++ c) t := by
  have htotal := totalAfter_loadMsg hs hcap
  have hlen := msglen_loadMsg hcap s
  have hstream : streamAlg (loadMsg c s).stream = some a := congrArg streamAlg hs.stream
  refine ⟨_, exec_hupdate hstream (hlen.trans_le hcap) (hlen ▸ hblock) (htotal ▸ hlimit), endsNormally_streamEnd ..,
    hs.stream, ?_, ?_, ?_⟩
  · rw [List.length_append, Nat.add_mod, hs.blocks, hblock, Nat.zero_mod]
  · rw [streamEnd_hst, hlen, msgBytes_loadMsg hcap, absorb_blocks_append hs.blocks, ← hs.hst, loadMsg]
  · rw [streamEnd_totlen, htotal, toNat_ofNat_total hlimit]

theorem exec_hfinal_loadMsg (hcap : c.length ≤ Config.msgCap) (hlimit : (m ++ c).length < lengthLimit a) :
    exec .hfinal (loadMsg c s) = .next (digestEnd (hashOf a (m ++ c)) (loadMsg c s)) := by
  have htotal := totalAfter_loadMsg hs hcap
  have hdigest : finalize a (loadMsg c s).hst (msgBytes (loadMsg c s)) (totalAfter (loadMsg c s)) = hashOf a (m ++ c) := by
    rw [msgBytes_loadMsg hcap, htotal, hashOf, finalize_append hs.blocks, ← hs.hst, loadMsg]
  have hstream : (loadMsg c s).stream = .plain a := hs.stream
  rw [exec_hfinal hstream ((msglen_loadMsg hcap s).trans_le hcap) (htotal ▸ hlimit), hdigest]

end

/-- HUPDATE for each piece carries the stream past all of them; `s` is the state in which the stream was begun. -/
theorem updateAll_standsAfter {a : HashAlg} {cs : List (List Byte)} {m : List Byte} {s t : State}
    (hcs : ∀ c ∈ cs, c.length % blockBytes a = 0 ∧ c.length ≤ Config.msgCap)
    (hlimit : (m ++ cs.flatten).length < lengthLimit a) (hst : endsNormally s t) (ht : StandsAfter a m t) :
    ∃ u, updateAll cs t = .next u ∧ endsNormally s u ∧ StandsAfter a (m ++ cs.flatten) u := by
  induction cs generalizing m t with
  | nil => exact ⟨t, rfl, hst, by simpa using ht⟩
  | cons c cs ih =>
    obtain ⟨⟨hblock, hcap⟩, hcs⟩ := List.forall_mem_cons.1 hcs
    rw [List.flatten_cons, ← List.append_assoc] at hlimit ⊢
    have hpiece : (m ++ c).length < lengthLimit a := lt_of_le_of_lt (by simp) hlimit
    obtain ⟨t', hexec, hends, ht'⟩ := hupdate_standsAfter ht hblock hcap hpiece
    obtain ⟨u, hu, hafter⟩ := ih hcs hlimit (endsNormally_trans c hst hends) ht'
    exact ⟨u, by rw [updateAll, hexec]; exact hu, hafter⟩

theorem exec_hash_loadMsg {alg : BitVec 4} {a : HashAlg} (ha : selectHash alg = some a) {m : List Byte}
    (hcap : m.length ≤ Config.msgCap) (s : State) :
    exec (.hash alg) (loadMsg m s) = .next (digestEnd (hashOf a m) (loadMsg m s)) := by
  rw [exec_hash ha ((msglen_loadMsg hcap s).trans_le hcap), msgBytes_loadMsg hcap]

/-- Settles O14: HFINAL finds the stream standing after the pieces, and finalising there is hashing the whole. -/
theorem streamedHashEqualsOneShot : Obligations.StreamedHashEqualsOneShot := by
  unfold Obligations.StreamedHashEqualsOneShot
  intro alg a cs rest s ha hcs hrest hlimit
  have hpieces : ([] ++ cs.flatten).length < lengthLimit a := lt_of_le_of_lt (by simp) hlimit
  obtain ⟨s2, hupdates, hends, hs2⟩ :=
    updateAll_standsAfter hcs hpieces (endsNormally_streamEnd ..) (standsAfter_nil a s)
  have hout (u : State) := outBytes_digestEnd (length_hashOf_le a (cs.flatten ++ rest)) u
  exact ⟨_, s2, _, exec_hinit ha, hupdates, exec_hfinal_loadMsg hs2 hrest hlimit,
    endsNormally_trans rest hends (endsNormally_digestEnd ..), hout _,
    fun hfits => ⟨_, exec_hash_loadMsg ha hfits s, (hout _).trans (hout _).symm⟩⟩

end Sys2Proof.Machine
end

