-- ==== Sys2Proof/Proofs/HmacCommands.lean ====
section
/-! The commands of the HMAC unit, and the MAC finished from the half-states of its context: obligations O15 to O19. -/

namespace Sys2Proof.Machine

/-! The functions: hashing a message behind one whole block, as both halves of HMAC do. -/

/-- A state that has compressed a block finishes what stands behind it (40_hash.md R150, R152). -/
theorem finalize_block_append {a : HashAlg} {blk : List Byte} (hblk : blk.length = blockBytes a) (h : HashWords)
    (m : List Byte) (total : Nat) : finalize a h (blk ++ m) total = finalize a (compress a h blk) m total := by
  rw [finalize_append (hblk ▸ Nat.mod_self _), hblk, Nat.div_self (blockBytes_pos a), absorb_one a h blk hblk]

theorem hashOf_block_append {a : HashAlg} {blk : List Byte} (hblk : blk.length = blockBytes a) (m : List Byte) :
    hashOf a (blk ++ m) = finalize a (compress a (state0 a) blk) m (blockBytes a + m.length) := by
  rw [hashOf, finalize_block_append hblk, List.length_append, hblk]

/-- The MAC from the half-states of the key (41_hmac.md R184): the padded keys of both hashes are one block each. -/
theorem hmacOf_eq_finalize (a : HashAlg) (k m : List Byte) :
    hmacOf a k m = finalize a (ctxO a k) (finalize a (ctxI a k) m (blockBytes a + m.length))
      (blockBytes a + digestBytes a) := by
  have hinner : (xorBytes (normkey a k) (ipad a)).length = blockBytes a := by simp
  have houter : (xorBytes (normkey a k) (opad a)).length = blockBytes a := by simp
  rw [hmacOf, hashOf_block_append houter, length_hashOf, hashOf_block_append hinner, ctxO, ctxI]

/-! HMKEY ends with a new context and the stream closed; the other ends are those of the hash unit. -/

/-- The normal end of HMKEY under the key `k` (41_hmac.md R185). -/
def contextEnd (a : HashAlg) (k : List Byte) (s : State) : State :=
  endNormal (closeStream { s with hmI := ctxI a k, hmO := ctxO a k, hmAlg := some a })

section
variable (a : HashAlg) (k : List Byte) (s : State)

@[simp] theorem contextEnd_hmI : (contextEnd a k s).hmI = ctxI a k := rfl
@[simp] theorem contextEnd_hmO : (contextEnd a k s).hmO = ctxO a k := rfl
@[simp] theorem contextEnd_hmAlg : (contextEnd a k s).hmAlg = some a := rfl

theorem endsNormally_contextEnd : endsNormally s (contextEnd a k s) := ⟨rfl, rfl, rfl, rfl, rfl, rfl⟩

theorem streamClosed_contextEnd : streamClosed (contextEnd a k s) := ⟨rfl, rfl, rfl⟩

theorem contextEnd_frame : keepsOperands s (contextEnd a k s) ∧ keepsIv s (contextEnd a k s)
    ∧ keepsBnR s (contextEnd a k s) ∧ keepsP s (contextEnd a k s) ∧ keepsR s (contextEnd a k s)
    ∧ keepsMemory s (contextEnd a k s) :=
  ⟨⟨⟨rfl, rfl, rfl, rfl⟩, ⟨rfl, rfl, rfl, rfl⟩, ⟨rfl, rfl, rfl⟩⟩, rfl, rfl, rfl, rfl, fun _ => rfl, rfl⟩

end

/-- All that HMFINAL and HMAC promise of a digest left in OUT (41_hmac.md R187, R188). -/
theorem digestEnd_completes {a : HashAlg} {bytes : List Byte} (hlen : bytes.length = digestBytes a) (s : State) :
    endsNormally s (digestEnd bytes s) ∧ storesOut s (digestEnd bytes s) bytes
      ∧ (digestEnd bytes s).outlen.toNat = digestBytes a ∧ streamClosed (digestEnd bytes s)
      ∧ keepsOperands s (digestEnd bytes s) ∧ keepsContext s (digestEnd bytes s) ∧ keepsIv s (digestEnd bytes s)
      ∧ keepsBnR s (digestEnd bytes s) ∧ keepsP s (digestEnd bytes s) ∧ keepsR s (digestEnd bytes s) := by
  have hfits : bytes.length ≤ Config.msgCap := hlen.trans_le (digestBytes_le_msgCap a)
  exact ⟨endsNormally_digestEnd .., storesOut_digestEnd hfits s, (outlen_digestEnd hfits s).trans hlen,
    streamClosed_digestEnd .., digestEnd_frame ..⟩

/-! The commands, where they complete. -/

section
variable {alg : BitVec 4} {a : HashAlg} {s : State}

theorem exec_hmkey (ha : selectHash alg = some a) (hkey : s.keylen.toNat ≤ Config.keyCap) :
    exec (.hmkey alg) s = .next (contextEnd a (keyBytes s) s) := by
  rw [exec, execHmkey, withHash_some ha, faultIf_neg (not_lt.2 hkey)]
  rfl

theorem exec_hminit (hctx : s.hmAlg = some a) :
    exec .hminit s = .next (streamEnd s.hmI (BitVec.ofNat 64 (blockBytes a)) (.hmac a) s) := by
  rw [exec, execHminit, hmacContext_ok.2 hctx]
  rfl

theorem exec_hmfinal (hstream : s.stream = .hmac a) (hcap : s.msglen.toNat ≤ Config.msgCap)
    (hlimit : totalAfter s < lengthLimit a) :
    exec .hmfinal s = .next (digestEnd (finalize a s.hmO (finalize a s.hst (msgBytes s) (totalAfter s))
      (blockBytes a + digestBytes a)) s) := by
  rw [exec, execHmfinal, openHmacStream_ok.2 hstream, ok_bind, faultIf_neg (not_lt.2 hcap), ok_bind,
    faultIf_neg (not_le.2 hlimit)]
  rfl

theorem exec_hmac (ha : selectHash alg = some a) (hkey : s.keylen.toNat ≤ Config.keyCap)
    (hcap : s.msglen.toNat ≤ Config.msgCap) :
    exec (.hmac alg) s = .next (digestEnd (hmacOf a (keyBytes s) (msgBytes s)) s) := by
  rw [exec, execHmac, withHash_some ha, faultIf_neg (not_lt.2 hkey), ok_bind, faultIf_neg (not_lt.2 hcap)]
  rfl

end

/-! HMKEY; HMINIT; HMFINAL in a row (41_hmac.md R184). -/

/-- One block and a full MSG stay below every limit (40_hash.md R155). -/
theorem block_add_msgCap_lt_limit (a : HashAlg) : blockBytes a + Config.msgCap < lengthLimit a := by
  cases a <;> decide

/-- TOTLEN holds the one block that HMINIT counts (41_hmac.md R186). -/
theorem toNat_ofNat_blockBytes (a : HashAlg) : (BitVec.ofNat 64 (blockBytes a)).toNat = blockBytes a :=
  toNat_ofNat_total ((Nat.le_add_right ..).trans_lt (block_add_msgCap_lt_limit a))

section
variable (a : HashAlg) (k : List Byte) (s : State)

/-- The stream that HMINIT opens on the context of the key `k`. -/
def keyedStream : State := streamEnd (ctxI a k) (BitVec.ofNat 64 (blockBytes a)) (.hmac a) (contextEnd a k s)

theorem exec_hminit_contextEnd : exec .hminit (contextEnd a k s) = .next (keyedStream a k s) :=
  exec_hminit (contextEnd_hmAlg a k s)

theorem totalAfter_keyedStream : totalAfter (keyedStream a k s) = blockBytes a + s.msglen.toNat :=
  congrArg (· + s.msglen.toNat) (toNat_ofNat_blockBytes a)

variable {s}

/-- HMFINAL on that stream leaves the MAC of MSG under the key. -/
theorem exec_hmfinal_keyedStream (hcap : s.msglen.toNat ≤ Config.msgCap) :
    exec .hmfinal (keyedStream a k s) = .next (digestEnd (hmacOf a k (msgBytes s)) (keyedStream a k s)) := by
  have htotal := totalAfter_keyedStream a k s
  have hstream : (keyedStream a k s).stream = .hmac a := streamEnd_stream ..
  have hlimit : totalAfter (keyedStream a k s) < lengthLimit a :=
    htotal.trans_lt ((Nat.add_le_add_left hcap _).trans_lt (block_add_msgCap_lt_limit a))
  have hlen : (msgBytes s).length = s.msglen.toNat := length_readBytes ..
  rw [exec_hmfinal hstream hcap hlimit, htotal, hmacOf_eq_finalize, hlen]
  rfl

end

/-! The obligations. -/

/-- Settles O17. -/
theorem hmfinalCompletes : Obligations.HmfinalCompletes := by
  unfold Obligations.HmfinalCompletes
  exact fun a s hstream hcap hlimit =>
    ⟨_, exec_hmfinal hstream hcap hlimit, digestEnd_completes (length_finalize ..) s⟩

/-- Settles O18. -/
theorem hmacCompletes : Obligations.HmacCompletes := by
  unfold Obligations.HmacCompletes
  exact fun alg a s ha hkey hcap => ⟨_, exec_hmac ha hkey hcap, digestEnd_completes (length_hmacOf ..) s⟩

/-- Settles O19: both ways end with the same MAC put into OUT, over the same memory. -/
theorem contextMacEqualsOneShot : Obligations.ContextMacEqualsOneShot := by
  unfold Obligations.ContextMacEqualsOneShot
  exact ⟨hmacOf_eq_finalize, fun alg a s ha hkey hcap => ⟨_, _, _, _, exec_hmkey ha hkey,
    exec_hminit_contextEnd .., exec_hmfinal_keyedStream _ _ hcap, exec_hmac ha hkey hcap, rfl, fun _ => rfl⟩⟩

/-- Settles O15. -/
theorem hmkeyCompletes : Obligations.HmkeyCompletes := by
  unfold Obligations.HmkeyCompletes
  exact fun alg a s ha hkey => ⟨_, exec_hmkey ha hkey, endsNormally_contextEnd .., contextEnd_hmI .., contextEnd_hmO ..,
    contextEnd_hmAlg .., rfl, rfl, streamClosed_contextEnd .., contextEnd_frame ..⟩

/-- Settles O16. -/
theorem hminitCompletes : Obligations.HminitCompletes := by
  unfold Obligations.HminitCompletes
  exact fun a s hctx => ⟨_, exec_hminit hctx, endsNormally_streamEnd .., rfl, toNat_ofNat_blockBytes a, rfl, rfl, rfl,
    rfl, streamEnd_frame ..⟩

end Sys2Proof.Machine
end

