-- ==== Sys2Proof/Proofs/TripleDes.lean ====
section
/-! Triple-DES decryption undoes encryption: FP and IP undo each other, and the rounds run backwards with the round keys
in reverse order (42_blockcipher.md R205 to R213): obligation O23. -/

namespace Sys2Proof.Machine

/-! Permutations by table (42_blockcipher.md R205). -/

/-- Bits appended one by one to a number, the last one least significant. -/
theorem testBit_foldl_append_bit (f : Nat → Bool) (t : List Nat) (i : Nat) :
    (t.foldl (fun r j => 2 * r + (f j).toNat) 0).testBit i = (t.reverse.map f).getD i false := by
  induction t using List.reverseRecOn generalizing i with
  | nil => simp
  | append_singleton t j ih =>
    rw [List.foldl_append, List.foldl_cons, List.foldl_nil, ← Nat.bit_val, List.reverse_concat, List.map_cons]
    cases i with
    | zero => exact Nat.testBit_bit_zero ..
    | succ i => exact (Nat.testBit_bit_succ ..).trans (ih i)

/-- Bit `i` from the right of a permuted vector is the bit that entry `i` from the right of the table names. -/
theorem getLsbD_perm {n : Nat} (m : Nat) (v : BitVec n) (t : List Nat) (i : Nat) :
    (perm m v t).getLsbD i = (decide (i < m) && v.getLsbD (n - t.reverse.getD i 0)) := by
  have hoff : v.getLsbD (n - 0) = false := BitVec.getLsbD_of_ge v n le_rfl
  rw [perm, BitVec.getLsbD_ofNat, testBit_foldl_append_bit, ← hoff,
    List.getD_map (f := fun j => v.getLsbD (n - j))]

/-- A table undoes another if each of its entries names the place to which the other takes that very bit. -/
theorem perm_perm {n : Nat} {t u : List Nat}
    (h : ∀ i < n, n - u.reverse.getD i 0 < n ∧ n - t.reverse.getD (n - u.reverse.getD i 0) 0 = i) (v : BitVec n) :
    perm n (perm n v t) u = v := by
  refine BitVec.eq_of_getLsbD_eq fun i hi => ?_
  obtain ⟨hlt, hback⟩ := h i hi
  rw [getLsbD_perm, getLsbD_perm, hback, decide_eq_true hi, decide_eq_true hlt, Bool.true_and, Bool.true_and]

theorem perm_FP_perm_IP (v : DWord) : perm 64 (perm 64 v tableIP) tableFP = v := perm_perm (by decide) v

theorem perm_IP_perm_FP (v : DWord) : perm 64 (perm 64 v tableFP) tableIP = v := perm_perm (by decide) v

/-! The rounds (42_blockcipher.md R212). -/

theorem feistel_append (ks ks' : List (BitVec 48)) (l r : BitVec 32) :
    feistel (ks ++ ks') l r = feistel ks' (feistel ks l r).1 (feistel ks l r).2 := by
  induction ks generalizing l r with
  | nil => rfl
  | cons k ks ih => exact ih r (l ^^^ desF r k)

/-- The rounds with the keys reversed, on the swapped halves, lead back: the last round undone is the first one made,
and it takes the same `desF r k` off the left half again. -/
theorem feistel_reverse (ks : List (BitVec 48)) (l r : BitVec 32) :
    feistel ks.reverse (feistel ks l r).2 (feistel ks l r).1 = (r, l) := by
  induction ks generalizing l r with
  | nil => rfl
  | cons k ks ih =>
    rw [feistel, List.reverse_cons, feistel_append, ih, feistel, feistel, BitVec.xor_assoc, BitVec.xor_self,
      BitVec.xor_zero]

/-- One DES pass undoes the pass with the keys in the other order: FP and IP meet between the two, and after the second
the halves stand as in `IP(x)`. -/
theorem desBlock_reverse (ks : List (BitVec 48)) (x : DWord) : desBlock ks.reverse (desBlock ks x) = x := by
  simp only [desBlock, perm_IP_perm_FP, BitVec.extractLsb'_append_eq_left, BitVec.extractLsb'_append_eq_right,
    feistel_reverse]
  rw [BitVec.extractLsb'_append_extractLsb', perm_FP_perm_IP]

theorem desDec_desEnc (ks : List (BitVec 48)) (x : DWord) : desDec ks (desEnc ks x) = x := desBlock_reverse ks x

theorem desEnc_desDec (ks : List (BitVec 48)) (x : DWord) : desEnc ks (desDec ks x) = x := by
  have h := desBlock_reverse ks.reverse x
  rwa [List.reverse_reverse] at h

/-- Settles O23. -/
theorem tripleDesUndoesEncryption : Obligations.TripleDesUndoesEncryption := by
  unfold Obligations.TripleDesUndoesEncryption
  intro key1 key2 key3 x
  rw [tdesDec, tdesEnc, desDec_desEnc, desEnc_desDec, desDec_desEnc]

end Sys2Proof.Machine
end

