-- ==== Sys2Proof/Proofs/CbcPadding.lean ====
section
/-! CBC over lists of blocks, and the bytes around it: blocks against byte strings, padding against unpadding
(42_blockcipher.md R201 to R203, R229): obligations O22 and O24. -/

namespace Sys2Proof.Machine

/-! Blocks and bytes. -/

/-- The eight bytes of a block are the bytes it was made of. -/
theorem beBytes_ofNat_natBE {l : List Byte} (hlen : l.length = 8) : beBytes 8 (BitVec.ofNat 64 (natBE l)).toNat = l := by
  have hlt : natBE l < 2 ^ 64 := by simpa [hlen] using natBE_lt l
  rw [BitVec.toNat_ofNat, Nat.mod_eq_of_lt hlt, ← hlen, beBytes_natBE]

theorem blocksBytes_cons (x : DWord) (l : List DWord) : blocksBytes (x :: l) = beBytes 8 x.toNat ++ blocksBytes l := rfl

theorem blocksBytes_cipherBlocks {n : Nat} {bs : List Byte} (hlen : bs.length = 8 * n) :
    blocksBytes (cipherBlocks n bs) = bs := by
  induction n generalizing bs with
  | zero => exact (List.length_eq_zero_iff.1 hlen).symm
  | succ n ih =>
    have htake : (bs.take 8).length = 8 := by rw [List.length_take]; omega
    have hdrop : (bs.drop 8).length = 8 * n := by rw [List.length_drop]; omega
    rw [cipherBlocks, blocksBytes_cons, beBytes_ofNat_natBE htake, ih hdrop, List.take_append_drop]

/-! CBC (42_blockcipher.md R201, R203). -/

theorem cbcDec_append (d : DWord → DWord) (v : DWord) (xs ys : List DWord) :
    cbcDec d v (xs ++ ys) = cbcDec d v xs ++ cbcDec d (xs.getLastD v) ys := by
  induction xs generalizing v with
  | nil => rfl
  | cons x xs ih => rw [List.cons_append, cbcDec, cbcDec, ih, List.getLastD_cons, List.cons_append]

theorem cbcDec_cbcEnc {e d : DWord → DWord} (hinv : ∀ x, d (e x) = x) (v : DWord) (l : List DWord) :
    cbcDec d v (cbcEnc e v l) = l := by
  induction l generalizing v with
  | nil => rfl
  | cons p ps ih => rw [cbcEnc, cbcDec, ih, hinv, BitVec.xor_assoc, BitVec.xor_self, BitVec.xor_zero]

/-! Padding (42_blockcipher.md R202). -/

/-- Unpadding takes off `n` bytes of the value `n`, for every `n` that padding can have. -/
theorem unpad_append_rep (m : List Byte) {n : Nat} (hpos : 1 ≤ n) (hle : n ≤ 8) :
    unpad (m ++ rep (BitVec.ofNat 8 n) n) = .ok m := by
  have hval : (BitVec.ofNat 8 n).toNat = n := Nat.mod_eq_of_lt (by omega)
  have hlast : (m ++ rep (BitVec.ofNat 8 n) n).getD (m.length + n - 1) 0 = BitVec.ofNat 8 n := by
    rw [List.getD_append_right _ _ _ _ (by omega), rep, List.getD_replicate _ (by omega)]
  have hpad : ((rep (BitVec.ofNat 8 n) n).any fun b => b.toNat != n) = false := by
    simp [rep, hval]
  have hrange : ¬ (n < 1 ∨ n > 8) := by omega
  simp only [unpad, List.length_append, length_rep, hlast, hval, Nat.add_sub_cancel, List.drop_left, List.take_left,
    hpad, if_neg hrange, Bool.false_eq_true, if_false]

/-! The obligations. -/

/-- Settles O22. -/
theorem chunkedDecryption : Obligations.ChunkedDecryption := by
  unfold Obligations.ChunkedDecryption
  exact cbcDec_append

/-- Settles O24: the padded message is a whole number of blocks, so CBC and the split into blocks give it back, and
unpadding takes the padding off. -/
theorem paddedCiphertextRoundTrip : Obligations.PaddedCiphertextRoundTrip := by
  unfold Obligations.PaddedCiphertextRoundTrip
  intro e d hinv v m
  have hblocks : (m ++ rep (BitVec.ofNat 8 (8 - m.length % 8)) (8 - m.length % 8)).length = 8 * (m.length / 8 + 1) := by
    rw [List.length_append, length_rep]
    omega
  rw [cbcDec_cbcEnc hinv, blocksBytes_cipherBlocks hblocks, unpad_append_rep m (by omega) (by omega)]

end Sys2Proof.Machine
end

