-- ==== Sys2Proof/Proofs/CipherCommands.lean ====
section
/-! The commands TDESD and RC2D, where they complete: both end with a plaintext in OUT and the last ciphertext block in
IV, and what holds of that end is said once (42_blockcipher.md R214, R226): obligations O20 and O21. -/

namespace Sys2Proof.Machine

/-- The normal end of a block-cipher command that wrote `q` to OUT. -/
def cipherEnd (q : List Byte) (s : State) : State := endNormal { setOut q s with iv := lastBlock s }

/-- What both commands promise of their end, but for what OUT and IV hold. -/
theorem cipherEnd_frame (q : List Byte) (s : State) : keepsOperands s (cipherEnd q s) ∧ keepsStream s (cipherEnd q s)
    ∧ keepsContext s (cipherEnd q s) ∧ keepsBnR s (cipherEnd q s) ∧ keepsP s (cipherEnd q s)
    ∧ keepsR s (cipherEnd q s) :=
  ⟨⟨⟨rfl, rfl, rfl, rfl⟩, ⟨rfl, rfl, rfl, rfl⟩, ⟨rfl, rfl, rfl⟩⟩, ⟨rfl, rfl, rfl⟩, ⟨rfl, rfl, rfl⟩, rfl, rfl, rfl⟩

theorem endsNormally_cipherEnd (q : List Byte) (s : State) : endsNormally s (cipherEnd q s) :=
  ⟨rfl, rfl, rfl, rfl, rfl, rfl⟩

theorem beBytes_iv_cipherEnd (q : List Byte) (s : State) :
    beBytes 8 (cipherEnd q s).iv.toNat = Memory.readBytes s.mem (msgBase + (s.msglen.toNat - 8)) 8 :=
  beBytes_ofNat_natBE (length_readBytes ..)

section
variable {d : DWord → DWord} {fin : Bool} {q : List Byte} {s : State}
  (hplain : plainOut fin (cipherPlain d s) = .ok q)
include hplain

theorem cipherExecute_ok : cipherExecute d fin s = .ok { setOut q s with iv := lastBlock s } := by
  rw [cipherExecute_eq, hplain, ok_bind]

/-- The plaintext fits into OUT, since the message fits into MSG. -/
theorem storesOut_cipherEnd (hcap : s.msglen.toNat ≤ Config.msgCap) : storesOut s (cipherEnd q s) q := by
  have hfits : q.length ≤ Config.msgCap := by
    have hlen := length_le_of_plainOut hplain
    rw [length_cipherPlain] at hlen
    omega
  exact storesOut_setOut hfits s

/-- A cipher command whose key check and length check pass ends with the plaintext. -/
theorem finish_cipherExecute {p : Prop} [Decidable p] (hkey : ¬ p) (hlen : checkCipherLength s = .ok ()) :
    finish .out s (do faultIf p .badLength; checkCipherLength s; cipherExecute d fin s) = .next (cipherEnd q s) := by
  rw [faultIf_neg hkey, ok_bind, hlen, ok_bind, cipherExecute_ok hplain]
  rfl

end

theorem checkCipherLength_ok {s : State} (hpos : s.msglen.toNat ≠ 0) (hmul : s.msglen.toNat % 8 = 0)
    (hcap : s.msglen.toNat ≤ Config.msgCap) : checkCipherLength s = .ok () :=
  faultIf_neg (by omega)

/-- Settles O20. -/
theorem tdesdCompletes : Obligations.TdesdCompletes := by
  unfold Obligations.TdesdCompletes
  intro k2 fin s q hkey hpos hmul hcap hplain
  have hexec : exec (.tdesd k2 fin) s = .next (cipherEnd q s) :=
    finish_cipherExecute (d := tdesFunction k2 s) hplain (not_not.2 hkey) (checkCipherLength_ok hpos hmul hcap)
  exact ⟨_, hexec, endsNormally_cipherEnd q s, storesOut_cipherEnd hplain hcap, beBytes_iv_cipherEnd q s,
    cipherEnd_frame q s⟩

/-- Settles O21. -/
theorem rc2dCompletes : Obligations.Rc2dCompletes := by
  unfold Obligations.Rc2dCompletes
  intro e128 fin s q hkeypos hkeycap hpos hmul hcap hplain
  have hexec : exec (.rc2d e128 fin) s = .next (cipherEnd q s) :=
    finish_cipherExecute (d := rc2Function e128 s) hplain (by omega) (checkCipherLength_ok hpos hmul hcap)
  exact ⟨_, hexec, endsNormally_cipherEnd q s, storesOut_cipherEnd hplain hcap, beBytes_iv_cipherEnd q s,
    cipherEnd_frame q s⟩

end Sys2Proof.Machine
end

