-- ==== Sys2Proof/Proofs/BigIntFunctions.lean ====
section
/-! The functions of the big-integer unit against the arithmetic they stand for: square-and-multiply is the power, the
bounded Euclidean loop ends with the inverse, and CRT recombination is the power modulo both primes (43_bigint.md R251 to
R253): obligation O28. -/

namespace Sys2Proof.Machine

theorem lt_two_pow_bitlen (v : Nat) : v < 2 ^ bitlen v := by
  unfold bitlen
  split
  · omega
  · exact Nat.lt_log2_self

/-! `modexp` (43_bigint.md R251). -/

theorem modexpBits_eq (b m : Nat) {n e : Nat} (h : e < 2 ^ n) : modexpBits b m n e = b ^ e % m := by
  induction n generalizing e with
  | zero =>
    obtain rfl : e = 0 := by omega
    rfl
  | succ n ih =>
    have hhalf : e / 2 < 2 ^ n := by omega
    have hsquare : modexpBits b m n (e / 2) * modexpBits b m n (e / 2) % m = b ^ (2 * (e / 2)) % m := by
      rw [ih hhalf, ← Nat.mul_mod, ← pow_add, two_mul]
    simp only [modexpBits, hsquare]
    split
    · next hodd => rw [Nat.mod_mul_mod, ← pow_succ, show 2 * (e / 2) + 1 = e by omega]
    · next heven => rw [show 2 * (e / 2) = e by omega]

theorem modexpOf_eq (a e m : Nat) : modexpOf a e m = a ^ e % m := by
  rw [modexpOf, modexpBits_eq _ _ (lt_two_pow_bitlen e), ← Nat.pow_mod]

/-! `modinv` (43_bigint.md R252). -/

theorem euclid_zero_right (fuel r0 : Nat) (t0 t1 : Int) : euclid fuel r0 0 t0 t1 = t0 := by
  cases fuel <;> rfl

theorem euclid_succ (fuel r0 : Nat) {r1 : Nat} (h : r1 ≠ 0) (t0 t1 : Int) :
    euclid (fuel + 1) r0 r1 t0 t1 = euclid fuel r1 (r0 % r1) t1 (t0 - (r0 / r1 : Nat) * t1) := by
  rw [euclid, if_neg h, Nat.mod_eq_sub_div_mul]

/-- One turn of the loop at least halves the product of the two remainders. -/
theorem two_mul_mul_mod_le {r0 r1 : Nat} (hpos : 0 < r1) (hle : r1 ≤ r0) : 2 * (r1 * (r0 % r1)) ≤ r0 * r1 := by
  have hrem : 2 * (r0 % r1) ≤ r0 := by
    have hlt := Nat.mod_lt r0 hpos
    have hsub : r0 % r1 ≤ r0 - r1 := Nat.mod_eq_sub_mod hle ▸ Nat.mod_le ..
    omega
  calc 2 * (r1 * (r0 % r1)) = 2 * (r0 % r1) * r1 := by ring
    _ ≤ r0 * r1 := Nat.mul_le_mul_right r1 hrem

/-- The loop keeps `r = t * a` modulo `m` for both pairs, and ends before its bound when the bound covers the product of
the remainders: so its result times `a` is their gcd. -/
theorem euclid_mul_modEq {m a : Int} {fuel r0 r1 : Nat} {t0 t1 : Int} (hlt : r1 < r0) (hfuel : r0 * r1 < 2 ^ fuel)
    (h0 : t0 * a ≡ r0 [ZMOD m]) (h1 : t1 * a ≡ r1 [ZMOD m]) :
    euclid fuel r0 r1 t0 t1 * a ≡ Nat.gcd r0 r1 [ZMOD m] := by
  induction fuel generalizing r0 r1 t0 t1 with
  | zero =>
    have hprod : r0 * r1 = 0 := by omega
    obtain rfl : r1 = 0 := (Nat.mul_eq_zero.1 hprod).resolve_left (by omega)
    rw [euclid_zero_right, Nat.gcd_zero_right]
    exact h0
  | succ fuel ih =>
    rcases r1.eq_zero_or_pos with rfl | hpos
    · rw [euclid_zero_right, Nat.gcd_zero_right]
      exact h0
    · have hprod : r1 * (r0 % r1) < 2 ^ fuel := by
        have := two_mul_mul_mod_le hpos hlt.le
        omega
      have hrem : (t0 - (r0 / r1 : Nat) * t1) * a ≡ (r0 % r1 : Nat) [ZMOD m] := by
        have hdiv : ((r0 % r1 : Nat) : Int) = r0 - (r0 / r1 : Nat) * r1 :=
          eq_sub_of_add_eq' (by exact_mod_cast Nat.div_add_mod' r0 r1)
        rw [hdiv, sub_mul, mul_assoc]
        exact h0.sub (h1.mul_left _)
      rw [euclid_succ fuel r0 hpos.ne', Nat.gcd_comm, Nat.gcd_rec, Nat.gcd_comm]
      exact ih (Nat.mod_lt r0 hpos) hprod h1 hrem

theorem modinvOf_lt (a : Nat) {m : Nat} (hm : 0 < m) : modinvOf a m < m := by
  have := Int.emod_lt_of_pos (euclid (2 * bitlen m + 2) m (a % m) 0 1) (Int.natCast_pos.2 hm)
  unfold modinvOf
  omega

/-- The bound of the loop covers the modulus times the reduced operand. -/
theorem mul_mod_lt_two_pow (a : Nat) {m : Nat} (hm : 0 < m) : m * (a % m) < 2 ^ (2 * bitlen m + 2) := by
  have hbits := lt_two_pow_bitlen m
  have hrem := Nat.mod_lt a hm
  calc m * (a % m) < 2 ^ bitlen m * 2 ^ bitlen m := Nat.mul_lt_mul'' hbits (hrem.trans hbits)
    _ = 2 ^ (2 * bitlen m) := by rw [← pow_add, two_mul]
    _ ≤ 2 ^ (2 * bitlen m + 2) := Nat.pow_le_pow_right (by decide) (by omega)

theorem mul_modinvOf_modEq_gcd (a : Nat) {m : Nat} (hm : 0 < m) : a * modinvOf a m ≡ Nat.gcd (a % m) m [MOD m] := by
  have hcast : (modinvOf a m : Int) = euclid (2 * bitlen m + 2) m (a % m) 0 1 % m :=
    Int.toNat_of_nonneg (Int.emod_nonneg _ (by omega))
  have h0 : 0 * (a : Int) ≡ m [ZMOD m] := by simp [Int.ModEq]
  have h1 : 1 * (a : Int) ≡ (a % m : Nat) [ZMOD m] := by simp [Int.ModEq]
  rw [← Int.natCast_modEq_iff, Nat.gcd_comm, Nat.cast_mul, hcast, mul_comm]
  exact ((Int.mod_modEq _ _).mul_right _).trans
    (euclid_mul_modEq (Nat.mod_lt a hm) (mul_mod_lt_two_pow a hm) h0 h1)

/-- The defining equation of the inverse, where the operand is a unit (00_scope.md R18). -/
theorem mul_modinvOf_mod {a m : Nat} (hm : 2 ≤ m) (hunit : Nat.gcd (a % m) m = 1) : a * modinvOf a m % m = 1 := by
  have h := mul_modinvOf_modEq_gcd a (show 0 < m by omega)
  rw [hunit] at h
  exact Eq.trans h (Nat.mod_eq_of_lt hm)

/-! `crt` (43_bigint.md R253). -/

section
variable (m q dp dq qinv : Nat) {p : Nat} (hp : 0 < p)
include hp

/-- The formula of the rule in integers, where the difference of the two powers may be negative. -/
theorem crtOf_eq : (crtOf m p q dp dq qinv : Int) =
    ((m ^ dq % q : Nat) : Int)
      + q * ((qinv : Int) * (((m ^ dp % p : Nat) : Int) - ((m ^ dq % q : Nat) : Int)) % (p : Int)) := by
  simp only [crtOf, modexpOf_eq]
  rw [Nat.cast_add, Nat.cast_mul, Int.toNat_of_nonneg (Int.emod_nonneg _ (by omega))]

theorem crtOf_modEq_right : crtOf m p q dp dq qinv ≡ m ^ dq [MOD q] := by
  rw [← Int.natCast_modEq_iff, crtOf_eq _ _ _ _ _ hp]
  refine (Int.modEq_add_fac_self).trans ?_
  exact Int.natCast_modEq_iff.2 (Nat.mod_modEq ..)

variable {q}

theorem crtOf_lt (hq : 0 < q) : crtOf m p q dp dq qinv < p * q := by
  have hlow : ((m ^ dq % q : Nat) : Int) < q := by exact_mod_cast Nat.mod_lt (m ^ dq) hq
  have hhigh := Int.emod_lt_of_pos
    ((qinv : Int) * (((m ^ dp % p : Nat) : Int) - ((m ^ dq % q : Nat) : Int))) (Int.natCast_pos.2 hp)
  have hcast := crtOf_eq m q dp dq qinv hp
  zify
  rw [hcast]
  nlinarith

variable {qinv}

/-- Modulo `p` the factor `q * qinv` drops out, and the second power cancels. -/
theorem crtOf_modEq_left (hinv : q * qinv ≡ 1 [MOD p]) : crtOf m p q dp dq qinv ≡ m ^ dp [MOD p] := by
  have hunit : (q : Int) * qinv ≡ 1 [ZMOD p] := by exact_mod_cast Int.natCast_modEq_iff.2 hinv
  rw [← Int.natCast_modEq_iff, crtOf_eq _ _ _ _ _ hp]
  generalize hsq : ((m ^ dq % q : Nat) : Int) = sq
  generalize hsp : ((m ^ dp % p : Nat) : Int) = sp
  calc sq + q * (qinv * (sp - sq) % p)
      ≡ sq + q * (qinv * (sp - sq)) [ZMOD p] := ((Int.mod_modEq _ _).mul_left _).add_left _
    _ = sq + q * qinv * (sp - sq) := by ring
    _ ≡ sq + 1 * (sp - sq) [ZMOD p] := (hunit.mul_right _).add_left _
    _ = sp := by ring
    _ ≡ (m ^ dp : Nat) [ZMOD p] := hsp ▸ Int.natCast_modEq_iff.2 (Nat.mod_modEq ..)

end

/-- An exponent may be reduced modulo `p - 1`: by Fermat for a unit, and for a multiple of `p` because neither exponent
is zero. -/
theorem pow_mod_pred_modEq {p : Nat} (hp : p.Prime) (m : Nat) {d : Nat} (hd : d % (p - 1) ≠ 0) :
    m ^ (d % (p - 1)) ≡ m ^ d [MOD p] := by
  have : Fact p.Prime := ⟨hp⟩
  have hd0 : d ≠ 0 := by
    rintro rfl
    exact hd (Nat.zero_mod _)
  rw [← ZMod.natCast_eq_natCast_iff, Nat.cast_pow, Nat.cast_pow]
  by_cases hm : (m : ZMod p) = 0
  · rw [hm, zero_pow hd, zero_pow hd0]
  · exact (pow_eq_pow_mod d (ZMod.pow_card_sub_one_eq_one hm)).symm

/-- Settles O28: the result agrees with the power modulo `p` and modulo `q`, so modulo `p * q`, and is below `p * q`. -/
theorem crtComputesThePower : Obligations.CrtComputesThePower := by
  unfold Obligations.CrtComputesThePower
  intro p q d qinv m hp hq hne hdp hdq hinv _
  have hcoprime : Nat.Coprime p q := (Nat.coprime_primes hp hq).2 hne
  have hleft := (crtOf_modEq_left m (d % (p - 1)) (d % (q - 1)) hp.pos
    (hinv.trans (Nat.mod_eq_of_lt hp.one_lt).symm)).trans (pow_mod_pred_modEq hp m hdp)
  have hright := (crtOf_modEq_right m q (d % (p - 1)) (d % (q - 1)) qinv hp.pos).trans (pow_mod_pred_modEq hq m hdq)
  have hboth := (Nat.modEq_and_modEq_iff_modEq_mul hcoprime).1 ⟨hleft, hright⟩
  exact (Nat.mod_eq_of_lt (crtOf_lt m _ _ qinv hp.pos hq.pos)).symm.trans hboth

end Sys2Proof.Machine
end

