-- ==== Sys2Proof/Proofs/BigIntCommands.lean ====
section
/-! The commands MODEXP, MODINV and MODCRT, where they complete: each ends with a number in BN_R, which holds it whole
(43_bigint.md R254 to R256): obligations O25 to O27. -/

namespace Sys2Proof.Machine

/-- The normal end of a big-integer command that wrote `v` to BN_R. -/
def bigIntEnd (v : Nat) (s : State) : State := endNormal (setBnR v s)

section
variable (v : Nat) (s : State)

theorem endsNormally_bigIntEnd : endsNormally s (bigIntEnd v s) := ⟨rfl, rfl, rfl, rfl, rfl, rfl⟩

theorem bigIntEnd_frame : keepsOperands s (bigIntEnd v s) ∧ keepsStream s (bigIntEnd v s)
    ∧ keepsContext s (bigIntEnd v s) ∧ keepsIv s (bigIntEnd v s) ∧ keepsP s (bigIntEnd v s)
    ∧ keepsR s (bigIntEnd v s) ∧ keepsMemory s (bigIntEnd v s) :=
  ⟨⟨⟨rfl, rfl, rfl, rfl⟩, ⟨rfl, rfl, rfl, rfl⟩, ⟨rfl, rfl, rfl⟩⟩, ⟨rfl, rfl, rfl⟩, ⟨rfl, rfl, rfl⟩, rfl, rfl, rfl,
    fun _ => rfl, rfl⟩

variable {v}

theorem toNat_bnR_bigIntEnd (h : v < 2 ^ Config.bnBits) : (bigIntEnd v s).bnR.toNat = v := Nat.mod_eq_of_lt h

end

section
variable {s : State}

theorem exec_modexp (hm : s.bnM.toNat ≠ 0) :
    exec .modexp s = .next (bigIntEnd (s.bnA.toNat ^ s.bnE.toNat % s.bnM.toNat) s) := by
  rw [exec, execModexp, faultIf_neg hm, ok_bind, modexpOf_eq]
  rfl

theorem exec_modinv (hm : 2 ≤ s.bnM.toNat) (hunit : Nat.gcd (s.bnA.toNat % s.bnM.toNat) s.bnM.toNat = 1) :
    exec .modinv s = .next (bigIntEnd (modinvOf s.bnA.toNat s.bnM.toNat) s) := by
  rw [exec, execModinv, faultIf_neg (not_lt.2 hm), ok_bind, faultIf_neg (not_not.2 hunit)]
  rfl

theorem exec_modcrt (hp : 2 ≤ s.rsa.p.toNat) (hq : 2 ≤ s.rsa.q.toNat)
    (hbits : bitlen s.rsa.p.toNat + bitlen s.rsa.q.toNat ≤ Config.bnBits) :
    exec .modcrt s = .next (bigIntEnd (crtKey s.bnA.toNat s.rsa) s) := by
  rw [exec, execModcrt, checkCrtOperands, faultIf_neg (by omega)]
  rfl

end

/-- A product fits a wide register when the bit lengths of its factors do (43_bigint.md R256). -/
theorem mul_lt_two_pow_of_bitlen {p q n : Nat} (h : bitlen p + bitlen q ≤ n) : p * q < 2 ^ n :=
  calc p * q < 2 ^ bitlen p * 2 ^ bitlen q := Nat.mul_lt_mul'' (lt_two_pow_bitlen p) (lt_two_pow_bitlen q)
    _ = 2 ^ (bitlen p + bitlen q) := (pow_add ..).symm
    _ ≤ 2 ^ n := Nat.pow_le_pow_right (by decide) h

/-- Settles O25. -/
theorem modexpCompletes : Obligations.ModexpCompletes := by
  unfold Obligations.ModexpCompletes
  intro s hm
  have hfits : s.bnA.toNat ^ s.bnE.toNat % s.bnM.toNat < 2 ^ Config.bnBits :=
    (Nat.mod_lt _ (Nat.pos_of_ne_zero hm)).trans s.bnM.isLt
  exact ⟨_, exec_modexp hm, endsNormally_bigIntEnd .., toNat_bnR_bigIntEnd s hfits, bigIntEnd_frame ..⟩

/-- Settles O26. -/
theorem modinvCompletes : Obligations.ModinvCompletes := by
  unfold Obligations.ModinvCompletes
  intro s hm hunit
  have hlt : modinvOf s.bnA.toNat s.bnM.toNat < s.bnM.toNat := modinvOf_lt _ (by omega)
  have hresult := toNat_bnR_bigIntEnd s (hlt.trans s.bnM.isLt)
  refine ⟨_, exec_modinv hm hunit, endsNormally_bigIntEnd .., ?_, ?_, bigIntEnd_frame ..⟩
  · rwa [hresult]
  · rw [hresult]
    exact mul_modinvOf_mod hm hunit

/-- Settles O27: the result is below `RSA_P * RSA_Q`, which the check of the bit lengths keeps within BN_R. -/
theorem modcrtCompletes : Obligations.ModcrtCompletes := by
  unfold Obligations.ModcrtCompletes
  intro s hp hq hbits
  have hp0 : 0 < s.rsa.p.toNat := by omega
  have hlt : crtKey s.bnA.toNat s.rsa < s.rsa.p.toNat * s.rsa.q.toNat := crtOf_lt _ _ _ _ hp0 (by omega)
  have hresult := toNat_bnR_bigIntEnd s (hlt.trans (mul_lt_two_pow_of_bitlen hbits))
  refine ⟨_, exec_modcrt hp hq hbits, endsNormally_bigIntEnd .., ?_, ?_, bigIntEnd_frame ..⟩
  · rw [hresult]
    exact crtOf_eq _ _ _ _ _ hp0
  · rwa [hresult]

end Sys2Proof.Machine
end

