-- ==== Sys2Proof/Proofs/PointFunctions.lean ====
section
/-! The point functions over the field of `p` elements: their coordinates stay below `p`, `jmul` is double-and-add,
`affine` solves its two equations, and doubling keeps the curve equation (44_ecpoint.md R284 to R287): obligations O34 and
O35. -/

namespace Sys2Proof.Machine

/-- What the rules need of the field prime: more elements than the coefficient `a = -3` names. -/
theorem Curve.three_lt_p (c : Curve) : 3 < c.p := by cases c <;> decide

theorem Curve.one_lt_p (c : Curve) : 1 < c.p := Nat.lt_trans (by decide) c.three_lt_p

/-- A coordinate register is wide enough for the field. -/
theorem Curve.p_lt (c : Curve) : c.p < 2 ^ Config.ecBits := by
  have hbits : Config.ecBits = 8 * Config.ecBytes := rfl
  rw [hbits, pow_mul]
  cases c <;> decide

/-! The branches of the functions (44_ecpoint.md R284, R285). -/

theorem jdbl_of_z_eq_zero (p : Nat) {v : Jac} (h : v.z = 0) : jdbl p v = Jac.inf := if_pos (.inl h)

theorem jadd_of_z_eq_zero (p : Nat) {v w : Jac} (hv : v.z = 0) (hw : w.z ≠ 0) : jadd p v w = w := by
  rw [jadd, if_neg fun h => hw h.2, if_pos hv]

theorem jadd_of_right_z_eq_zero (p : Nat) {v w : Jac} (hv : v.z ≠ 0) (hw : w.z = 0) : jadd p v w = v := by
  rw [jadd, if_neg fun h => hv h.1, if_neg hv, if_pos hw]

theorem jadd_self (p : Nat) (v : Jac) : jadd p v v = jdbl p v := by
  by_cases hz : v.z = 0
  · rw [jdbl_of_z_eq_zero p hz, jadd, if_pos ⟨hz, hz⟩]
  · rw [jadd, if_neg fun h => hz h.1, if_neg hz, if_neg hz]
    exact (if_pos rfl).trans (if_pos rfl)

/-! Double-and-add (44_ecpoint.md R286). -/

theorem bitlen_eq_succ {k : Nat} (hk : k ≠ 0) : bitlen k = bitlen (k / 2) + 1 := by
  rw [bitlen, if_neg hk, Nat.log2_def, bitlen]
  by_cases hbig : 2 ≤ k
  · rw [if_pos hbig, if_neg (by omega)]
  · rw [if_neg hbig, if_pos (by omega)]

@[simp] theorem jmul_zero (p : Nat) (v : Jac) : jmul p 0 v = Jac.inf := rfl

/-- The last turn of the loop takes in the lowest bit of the scalar. -/
theorem jmul_of_ne_zero (p : Nat) {k : Nat} (hk : k ≠ 0) (v : Jac) : jmul p k v =
    if k % 2 = 1 then jadd p (jdbl p (jmul p (k / 2) v)) v else jdbl p (jmul p (k / 2) v) := by
  rw [jmul, bitlen_eq_succ hk]
  rfl

theorem jmul_two_mul (p : Nat) {k : Nat} (hk : 0 < k) (v : Jac) : jmul p (2 * k) v = jdbl p (jmul p k v) := by
  rw [jmul_of_ne_zero p (by omega), if_neg (by omega), Nat.mul_div_cancel_left k two_pos]

theorem jmul_two_mul_add_one (p k : Nat) (v : Jac) : jmul p (2 * k + 1) v = jadd p (jdbl p (jmul p k v)) v := by
  rw [jmul_of_ne_zero p (by omega), if_pos (by omega), show (2 * k + 1) / 2 = k by omega]

theorem jmul_one (p : Nat) {v : Jac} (hz : v.z ≠ 0) : jmul p 1 v = v :=
  calc jmul p 1 v = jadd p (jdbl p (jmul p 0 v)) v := jmul_two_mul_add_one p 0 v
    _ = jadd p Jac.inf v := by rw [jmul_zero, jdbl_of_z_eq_zero p rfl]
    _ = v := jadd_of_z_eq_zero p rfl hz

/-- Settles O35. -/
theorem pointLaws : Obligations.PointLaws := by
  unfold Obligations.PointLaws
  intro p v
  refine ⟨fun hz => ?_, jadd_self p v, jmul_zero p v, fun k hk => ?_⟩
  · exact ⟨jadd_of_right_z_eq_zero p hz rfl, jadd_of_z_eq_zero p rfl hz, jmul_one p hz⟩
  · exact ⟨jmul_two_mul p hk v, jmul_two_mul_add_one p k v⟩

/-! Coordinates below `p`, as the check phase demands them and the point functions leave them (44_ecpoint.md R283,
R288). -/

/-- Every coordinate is a field element. -/
def Jac.reduced (p : Nat) (v : Jac) : Prop := v.x < p ∧ v.y < p ∧ v.z < p

theorem subMod_lt {p : Nat} (hp : 0 < p) (a b : Nat) : subMod p a b < p := Nat.mod_lt _ hp

section
variable {p : Nat} (hp : 1 < p)
include hp

theorem reduced_inf : Jac.inf.reduced p := ⟨hp, hp, Nat.zero_lt_of_lt hp⟩

theorem reduced_jdbl (v : Jac) : (jdbl p v).reduced p := by
  have hpos : 0 < p := Nat.zero_lt_of_lt hp
  unfold jdbl
  split
  · exact reduced_inf hp
  · exact ⟨subMod_lt hpos .., subMod_lt hpos .., subMod_lt hpos ..⟩

theorem reduced_jadd {v w : Jac} (hv : v.reduced p) (hw : w.reduced p) : (jadd p v w).reduced p := by
  have hpos : 0 < p := Nat.zero_lt_of_lt hp
  unfold jadd
  split
  · exact reduced_inf hp
  split
  · exact hw
  split
  · exact hv
  dsimp only
  split
  next hsameX =>
    split
    · exact reduced_jdbl hp v
    · exact reduced_inf hp
  next hdifferentX => exact ⟨subMod_lt hpos .., subMod_lt hpos .., Nat.mod_lt _ hpos⟩

theorem reduced_jmulBits {v : Jac} (hv : v.reduced p) (n k : Nat) : (jmulBits p v n k).reduced p := by
  cases n with
  | zero => exact reduced_inf hp
  | succ n =>
    have hdouble := reduced_jdbl hp (jmulBits p v n (k / 2))
    unfold jmulBits
    dsimp only
    split
    · exact reduced_jadd hp hdouble hv
    · exact hdouble

theorem reduced_jmul {v : Jac} (hv : v.reduced p) (k : Nat) : (jmul p k v).reduced p := reduced_jmulBits hp hv ..

theorem reduced_affine (v : Jac) : Jac.reduced p ⟨(affine p v).1, (affine p v).2, 1⟩ :=
  ⟨Nat.mod_lt _ (Nat.zero_lt_of_lt hp), Nat.mod_lt _ (Nat.zero_lt_of_lt hp), hp⟩

end

/-! The affine form (44_ecpoint.md R287). -/

/-- Multiplying by the powers of `Z` undoes `affine`, where `Z` is a unit. -/
theorem affine_mul_pow {p : Nat} (hp : 2 ≤ p) {v : Jac} (hv : v.reduced p) (hunit : Nat.gcd v.z p = 1) :
    (affine p v).1 * v.z ^ 2 % p = v.x ∧ (affine p v).2 * v.z ^ 3 % p = v.y := by
  obtain ⟨hx, hy, hz⟩ := hv
  have hinv : (v.z : ZMod p) * modinvOf v.z p = 1 := by
    have hmod := mul_modinvOf_mod hp ((Nat.mod_eq_of_lt hz).symm ▸ hunit : Nat.gcd (v.z % p) p = 1)
    have hcast := (ZMod.natCast_eq_natCast_iff (v.z * modinvOf v.z p) 1 p).2 (hmod.trans (Nat.mod_eq_of_lt hp).symm)
    rwa [Nat.cast_mul, Nat.cast_one] at hcast
  have hsolve {a b : Nat} (ha : a < p) (h : (b : ZMod p) = a) : b % p = a :=
    Eq.trans ((ZMod.natCast_eq_natCast_iff ..).1 h) (Nat.mod_eq_of_lt ha)
  constructor
  · refine hsolve hx ?_
    simp only [affine, Nat.cast_mul, Nat.cast_pow, ZMod.natCast_mod]
    linear_combination (v.x : ZMod p) * (v.z * modinvOf v.z p + 1) * hinv
  · refine hsolve hy ?_
    simp only [affine, Nat.cast_mul, Nat.cast_pow, ZMod.natCast_mod]
    linear_combination
      (v.y : ZMod p) * ((v.z * modinvOf v.z p) ^ 2 + v.z * modinvOf v.z p + 1) * hinv

/-! Doubling and the curve equation, over the integers modulo `p` (44_ecpoint.md R284, R294). -/

theorem cast_subMod {p : Nat} (hp : 0 < p) (a b : Nat) : (subMod p a b : ZMod p) = a - b := by
  rw [subMod, ZMod.natCast_mod, Nat.cast_add, Nat.cast_sub (Nat.mod_lt b hp).le, ZMod.natCast_self, ZMod.natCast_mod]
  ring

/-- The curve equation with the coefficient `a` as the field's `-3`. -/
theorem onCurve_iff {c : Curve} {v : Jac} :
    onCurve c v ↔ (v.y : ZMod c.p) ^ 2 = v.x ^ 3 - 3 * v.x * v.z ^ 4 + c.b * v.z ^ 6 := by
  have ha : ((c.p - 3 : Nat) : ZMod c.p) = -3 := by
    rw [Nat.cast_sub c.three_lt_p.le, ZMod.natCast_self]
    simp
  rw [onCurve, ← Nat.ModEq, ← ZMod.natCast_eq_natCast_iff]
  push_cast
  rw [ha, neg_mul, neg_mul, ← sub_eq_add_neg]

/-- The doubling formulas without their intermediate values and reductions. -/
theorem cast_jdbl {p : Nat} (hp : 0 < p) {v : Jac} (h : ¬ (v.z = 0 ∨ v.y = 0)) :
    ((jdbl p v).x : ZMod p) = (3 * (v.x ^ 2 - v.z ^ 4)) ^ 2 - 8 * v.x * v.y ^ 2
      ∧ ((jdbl p v).y : ZMod p)
        = 3 * (v.x ^ 2 - v.z ^ 4) * (4 * v.x * v.y ^ 2 - (jdbl p v).x) - 8 * v.y ^ 4
      ∧ ((jdbl p v).z : ZMod p) = 2 * v.y * v.z := by
  rw [jdbl, if_neg h]
  simp only [cast_subMod hp, ZMod.natCast_mod, Nat.cast_mul, Nat.cast_add, Nat.cast_ofNat]
  refine ⟨?_, ?_, ?_⟩ <;> ring

/-- Settles O34: over any commutative ring the new equation is the old one times `64 * Y^6`. -/
theorem doublingStaysOnCurve : Obligations.DoublingStaysOnCurve := by
  unfold Obligations.DoublingStaysOnCurve
  intro c v hcurve
  by_cases hflat : v.z = 0 ∨ v.y = 0
  · exact .inl (if_pos hflat)
  · obtain ⟨hx, hy, hz⟩ := cast_jdbl (Nat.zero_lt_of_lt c.one_lt_p) hflat
    rw [onCurve_iff] at hcurve
    refine .inr (onCurve_iff.2 ?_)
    rw [hy, hz, hx]
    linear_combination 64 * (v.y : ZMod c.p) ^ 6 * hcurve

end Sys2Proof.Machine
end

