-- ==== Sys2Proof/Proofs/PointCommands.lean ====
section
/-! The commands of the point unit, where they complete: ECDBL, ECADD, ECMUL and ECAFF end with a triple of field elements
in R, which holds it whole, and ECLDG with the base point in P (44_ecpoint.md R289 to R293): obligations O29 to O33. -/

namespace Sys2Proof.Machine

/-- The coordinate registers hold field elements whole. -/
theorem toNat_pointOf {c : Curve} {v : Jac} (h : v.reduced c.p) :
    (pointOf v).x.toNat = v.x ∧ (pointOf v).y.toNat = v.y ∧ (pointOf v).z.toNat = v.z := by
  obtain ⟨hx, hy, hz⟩ := h
  have hfits {n : Nat} (hn : n < c.p) : (BitVec.ofNat Config.ecBits n).toNat = n :=
    Nat.mod_eq_of_lt (hn.trans c.p_lt)
  exact ⟨hfits hx, hfits hy, hfits hz⟩

theorem jacOf_pointOf {c : Curve} {v : Jac} (h : v.reduced c.p) : jacOf (pointOf v) = v := by
  obtain ⟨hx, hy, hz⟩ := toNat_pointOf h
  rw [jacOf, hx, hy, hz]

theorem checkPoint_ok {c : Curve} {v : Point} (h : (jacOf v).reduced c.p) : checkPoint c v = .ok () := by
  obtain ⟨hx, hy, hz⟩ := h
  exact faultIf_neg fun hbad => hbad.elim hx.not_ge fun hbad => hbad.elim hy.not_ge hz.not_ge

theorem reduced_basePoint (c : Curve) : c.basePoint.reduced c.p := by cases c <;> exact ⟨by decide, by decide, by decide⟩

/-- The normal end of a point command that wrote a triple to R. -/
def pointEnd (v : Jac) (s : State) : State := endNormal (setPointR (pointOf v) s)

/-- The normal end of ECLDG, which writes a triple to P. -/
def loadEnd (v : Jac) (s : State) : State := endNormal (setPointP (pointOf v) s)

section
variable (v : Jac) (s : State)

@[simp] theorem pointEnd_pR : (pointEnd v s).pR = pointOf v := rfl

theorem endsNormally_pointEnd : endsNormally s (pointEnd v s) := ⟨rfl, rfl, rfl, rfl, rfl, rfl⟩

theorem pointEnd_frame : keepsOperands s (pointEnd v s) ∧ keepsStream s (pointEnd v s)
    ∧ keepsContext s (pointEnd v s) ∧ keepsIv s (pointEnd v s) ∧ keepsBnR s (pointEnd v s)
    ∧ keepsP s (pointEnd v s) ∧ keepsMemory s (pointEnd v s) :=
  ⟨⟨⟨rfl, rfl, rfl, rfl⟩, ⟨rfl, rfl, rfl, rfl⟩, ⟨rfl, rfl, rfl⟩⟩, ⟨rfl, rfl, rfl⟩, ⟨rfl, rfl, rfl⟩, rfl, rfl, rfl,
    fun _ => rfl, rfl⟩

@[simp] theorem loadEnd_pP : (loadEnd v s).pP = pointOf v := rfl

theorem endsNormally_loadEnd : endsNormally s (loadEnd v s) := ⟨rfl, rfl, rfl, rfl, rfl, rfl⟩

theorem loadEnd_frame : keepsOperands s (loadEnd v s) ∧ keepsStream s (loadEnd v s)
    ∧ keepsContext s (loadEnd v s) ∧ keepsIv s (loadEnd v s) ∧ keepsBnR s (loadEnd v s)
    ∧ keepsR s (loadEnd v s) ∧ keepsMemory s (loadEnd v s) :=
  ⟨⟨⟨rfl, rfl, rfl, rfl⟩, ⟨rfl, rfl, rfl, rfl⟩, ⟨rfl, rfl, rfl⟩⟩, ⟨rfl, rfl, rfl⟩, ⟨rfl, rfl, rfl⟩, rfl, rfl, rfl,
    fun _ => rfl, rfl⟩

end

section
variable {c : Curve} {s : State} (hcurve : selectCurve s = .ok c)
include hcurve

theorem exec_ecldg : exec .ecldg s = .next (loadEnd c.basePoint s) := by
  rw [exec, execEcldg, hcurve]
  rfl

variable (hP : (jacOf s.pP).reduced c.p)
include hP

theorem exec_ecdbl : exec .ecdbl s = .next (pointEnd (jdbl c.p (jacOf s.pP)) s) := by
  rw [exec, execEcdbl, hcurve, ok_bind, checkPoint_ok hP]
  rfl

theorem exec_ecadd (hQ : (jacOf s.pQ).reduced c.p) :
    exec .ecadd s = .next (pointEnd (jadd c.p (jacOf s.pP) (jacOf s.pQ)) s) := by
  rw [exec, execEcadd, hcurve, ok_bind, checkPoint_ok hP, ok_bind, checkPoint_ok hQ]
  rfl

theorem exec_ecmul : exec .ecmul s = .next (pointEnd (jmul c.p s.ecK.toNat (jacOf s.pP)) s) := by
  rw [exec, execEcmul, hcurve, ok_bind, checkPoint_ok hP]
  rfl

theorem exec_ecaff (hz : s.pP.z.toNat ≠ 0) :
    exec .ecaff s = .next
      (pointEnd ⟨(affine c.p (jacOf s.pP)).1, (affine c.p (jacOf s.pP)).2, 1⟩ s) := by
  rw [exec, execEcaff, hcurve, ok_bind, checkPoint_ok hP, ok_bind, faultIf_neg hz]
  rfl

end

/-! The obligations. -/

/-- Settles O29. -/
theorem ecdblCompletes : Obligations.EcdblCompletes := by
  unfold Obligations.EcdblCompletes
  intro c s hcurve hx hy hz
  exact ⟨_, exec_ecdbl hcurve ⟨hx, hy, hz⟩, endsNormally_pointEnd .., jacOf_pointOf (reduced_jdbl c.one_lt_p _),
    pointEnd_frame ..⟩

/-- Settles O30. -/
theorem ecaddCompletes : Obligations.EcaddCompletes := by
  unfold Obligations.EcaddCompletes
  intro c s hcurve hx hy hz hqx hqy hqz
  exact ⟨_, exec_ecadd hcurve ⟨hx, hy, hz⟩ ⟨hqx, hqy, hqz⟩, endsNormally_pointEnd ..,
    jacOf_pointOf (reduced_jadd c.one_lt_p ⟨hx, hy, hz⟩ ⟨hqx, hqy, hqz⟩), pointEnd_frame ..⟩

/-- Settles O31. -/
theorem ecmulCompletes : Obligations.EcmulCompletes := by
  unfold Obligations.EcmulCompletes
  intro c s hcurve hx hy hz
  exact ⟨_, exec_ecmul hcurve ⟨hx, hy, hz⟩, endsNormally_pointEnd ..,
    jacOf_pointOf (reduced_jmul c.one_lt_p ⟨hx, hy, hz⟩ _), pointEnd_frame ..⟩

/-- Settles O32. -/
theorem ecaffCompletes : Obligations.EcaffCompletes := by
  unfold Obligations.EcaffCompletes
  intro c s hcurve hx hy hz hz0
  have hreduced := reduced_affine c.one_lt_p (jacOf s.pP)
  obtain ⟨hrx, hry, -⟩ := toNat_pointOf hreduced
  obtain ⟨hxlt, hylt, -⟩ := hreduced
  refine ⟨_, exec_ecaff hcurve ⟨hx, hy, hz⟩ hz0, endsNormally_pointEnd .., rfl, ?_, ?_, fun hunit => ?_,
    pointEnd_frame ..⟩
  · rwa [pointEnd_pR, hrx]
  · rwa [pointEnd_pR, hry]
  · rw [pointEnd_pR, hrx, hry]
    exact affine_mul_pow c.one_lt_p ⟨hx, hy, hz⟩ hunit

/-- Settles O33. -/
theorem ecldgCompletes : Obligations.EcldgCompletes := by
  unfold Obligations.EcldgCompletes
  intro c s hcurve
  obtain ⟨hx, hy, hz⟩ := toNat_pointOf (reduced_basePoint c)
  exact ⟨_, exec_ecldg hcurve, endsNormally_loadEnd .., hx, hy, hz, loadEnd_frame ..⟩

end Sys2Proof.Machine
end

