-- ==== Sys2Proof/Proofs/RsaSigner.lean ====
section
/-! The RSA signer: the shape of the encoded message, and the command RSASIGN where it completes (45_rsa.md R321 to
R325): obligations O36 and O37. -/

namespace Sys2Proof.Machine

/-! The encoded message (45_rsa.md R322). -/

/-- The count of 0xFF bytes is chosen to give the encoded message its length. -/
theorem length_emsa {a : HashAlg} {digest : List Byte} {k : Nat} (hdigest : digest.length = digestBytes a)
    (hk : tLen a + 3 ≤ k) : (emsa a digest k).length = k := by
  simp only [emsa, List.length_append, List.length_cons, length_rep, hdigest]
  unfold tLen at hk ⊢
  omega

/-- A leading zero byte adds a byte to the length and nothing to the number. -/
theorem natBE_zero_cons_lt (l : List Byte) : natBE (0x00 :: l) < 256 ^ ((0x00 :: l : List Byte).length - 1) := by
  simpa [natBE_cons] using natBE_lt l

/-- Settles O37: the message begins with a zero byte, so its number takes `k - 1` bytes. -/
theorem encodedMessageShape : Obligations.EncodedMessageShape := by
  unfold Obligations.EncodedMessageShape
  intro a digest k hdigest hk
  have hlen : (emsa a digest k).length = k := length_emsa hdigest (by omega)
  have hlt : natBE (emsa a digest k) < 256 ^ ((emsa a digest k).length - 1) := natBE_zero_cons_lt _
  rw [hlen] at hlt
  exact ⟨k - tLen a - 3, by simp [emsa, rep], rfl, by omega, hlen, hlt⟩

/-! The message or digest a signer takes (45_rsa.md R325, 46_ecdsa.md R348). -/

/-- A message that fits into MSG, or with DG = 1 a digest of the right length, passes the length check and gives the
digest that is signed. -/
theorem signInput_ok {a : HashAlg} {dg : Bool} {s : State} {digest : List Byte}
    (hmessage : dg = false → s.msglen.toNat ≤ Config.msgCap ∧ digest = hashOf a (msgBytes s))
    (hdigest : dg = true → s.msglen.toNat = digestBytes a ∧ digest = msgPrefix s (digestBytes a)) :
    checkSignLength a dg s = .ok () ∧ signDigest a dg s = digest := by
  cases dg with
  | false =>
    obtain ⟨hcap, heq⟩ := hmessage rfl
    exact ⟨faultIf_neg (not_lt.2 hcap), heq.symm⟩
  | true =>
    obtain ⟨hlen, heq⟩ := hdigest rfl
    exact ⟨faultIf_neg (not_not.2 hlen), heq.symm⟩

/-! RSASIGN (45_rsa.md R325). -/

theorem checkCrtOperands_ok {s : State} (hp : 2 ≤ s.rsa.p.toNat) (hq : 2 ≤ s.rsa.q.toNat)
    (hbits : bitlen s.rsa.p.toNat + bitlen s.rsa.q.toNat ≤ Config.bnBits) : checkCrtOperands s = .ok () :=
  faultIf_neg (by omega)

theorem exec_rsasign {alg : BitVec 4} {dg : Bool} {a : HashAlg} {s : State} (ha : selectHash alg = some a)
    (hlen : checkSignLength a dg s = .ok ()) (hnbits : s.nbits.toNat ≠ 0) (hcap : s.nbits.toNat ≤ Config.bnBits)
    (hkey : checkCrtOperands s = .ok ()) (hroom : tLen a + 11 ≤ modulusBytes s)
    (hfits : rsaSign a (signDigest a dg s) (modulusBytes s) s.rsa < 256 ^ modulusBytes s) :
    exec (.rsasign alg dg) s = .next
      (digestEnd (beBytes (modulusBytes s) (rsaSign a (signDigest a dg s) (modulusBytes s) s.rsa)) s) := by
  have hrange : ¬ (s.nbits.toNat = 0 ∨ s.nbits.toNat > Config.bnBits) := by omega
  rw [exec, execRsasign, withHash_some ha, hlen, ok_bind, faultIf_neg hrange, ok_bind, hkey, ok_bind,
    faultIf_neg (not_lt.2 hroom), ok_bind]
  dsimp only
  rw [faultIf_neg (not_le.2 hfits)]
  rfl

/-- Settles O36. -/
theorem rsasignCompletes : Obligations.RsasignCompletes := by
  unfold Obligations.RsasignCompletes
  rintro alg dg a s digest k ha hmessage hdigest hk hnbits hcap hp hq hbits hroom hfits
  obtain ⟨hlen, rfl⟩ := signInput_ok hmessage hdigest
  obtain rfl : k = modulusBytes s := hk
  have hout := (length_beBytes (modulusBytes s) (rsaSign a (signDigest a dg s) (modulusBytes s) s.rsa)).trans_le
    (modulusBytes_le_msgCap hcap)
  exact ⟨_, exec_rsasign ha hlen hnbits hcap (checkCrtOperands_ok hp hq hbits) hroom hfits, endsNormally_digestEnd ..,
    storesOut_digestEnd hout s, (outlen_digestEnd hout s).trans (length_beBytes ..), streamClosed_digestEnd ..,
    digestEnd_frame ..⟩

end Sys2Proof.Machine
end

