-- ==== Sys2Proof/Proofs/DerSignature.lean ====
section
/-! The DER form of a signature: two integers, each in the fewest bytes that leave its number whole and not negative
(46_ecdsa.md R346): obligation O41. -/

namespace Sys2Proof.Machine

/-! The fewest big-endian bytes of a number. -/

/-- The first `b` of `der_int(v)`: as many bytes as the bits of `v` fill (46_ecdsa.md R346). -/
def fewestBytes (v : Nat) : List Byte := beBytes (ceilDiv (bitlen v) 8) v

theorem length_fewestBytes (v : Nat) : (fewestBytes v).length = (bitlen v + 7) / 8 := length_beBytes ..

theorem length_fewestBytes_le {v n : Nat} (h : v < 256 ^ n) : (fewestBytes v).length ≤ n := by
  have hbits := bitlen_le_of_lt h
  rw [length_fewestBytes]
  omega

theorem natBE_fewestBytes (v : Nat) : natBE (fewestBytes v) = v := by
  have hfits : v < 256 ^ ceilDiv (bitlen v) 8 :=
    calc v < 2 ^ bitlen v := lt_two_pow_bitlen v
      _ ≤ 2 ^ (8 * ceilDiv (bitlen v) 8) := Nat.pow_le_pow_right (by decide) (by unfold ceilDiv; omega)
      _ = 256 ^ ceilDiv (bitlen v) 8 := pow_mul 2 8 _
  rw [fewestBytes, natBE_beBytes, Nat.mod_eq_of_lt hfits]

theorem natBE_lt_of_head_eq_zero {l : List Byte} (h : l.getD 0 0 = 0) : natBE l < 256 ^ (l.length - 1) := by
  cases l with
  | nil => decide
  | cons b l =>
    obtain rfl : b = 0x00 := h
    exact natBE_zero_cons_lt l

section
variable {v : Nat} (hv : 1 ≤ v)
include hv

theorem length_fewestBytes_pos : 1 ≤ (fewestBytes v).length := by
  have hbits := bitlen_eq_succ (show v ≠ 0 by omega)
  rw [length_fewestBytes]
  omega

/-- With a zero byte in front the number would fit into one byte less, and so have fewer bits than it has. -/
theorem fewestBytes_head_ne_zero : (fewestBytes v).getD 0 0 ≠ 0 := by
  intro hzero
  have hpos := length_fewestBytes_pos hv
  have hlt := natBE_lt_of_head_eq_zero hzero
  rw [natBE_fewestBytes] at hlt
  have hbits := bitlen_le_of_lt hlt
  have hlen := length_fewestBytes v
  omega

end

/-! The content of a DER integer: those bytes, behind a zero byte where they would read as negative. -/

/-- The bytes of `der_int(v)` after its tag and length (46_ecdsa.md R346). -/
def derContent (v : Nat) : List Byte :=
  if ((fewestBytes v).getD 0 0).toNat ≥ 0x80 then 0x00 :: fewestBytes v else fewestBytes v

theorem derInt_eq (v : Nat) : derInt v = [0x02, BitVec.ofNat 8 (derContent v).length] ++ derContent v := rfl

theorem length_derInt (v : Nat) : (derInt v).length = (derContent v).length + 2 := rfl

/-- Either the fewest bytes, not negative as they stand, or a zero byte before ones that would be. -/
theorem derContent_cases (v : Nat) :
    (((fewestBytes v).getD 0 0).toNat < 0x80 ∧ derContent v = fewestBytes v)
      ∨ (0x80 ≤ ((fewestBytes v).getD 0 0).toNat ∧ derContent v = 0x00 :: fewestBytes v) := by
  unfold derContent
  split
  next hneg => exact .inr ⟨hneg, rfl⟩
  next hneg => exact .inl ⟨not_le.1 hneg, rfl⟩

theorem natBE_derContent (v : Nat) : natBE (derContent v) = v := by
  obtain ⟨-, heq⟩ | ⟨-, heq⟩ := derContent_cases v
  · rw [heq, natBE_fewestBytes]
  · simp [heq, natBE_cons, natBE_fewestBytes]

theorem derContent_head_lt (v : Nat) : ((derContent v).getD 0 0).toNat < 0x80 := by
  obtain ⟨hhead, heq⟩ | ⟨-, heq⟩ := derContent_cases v <;> rw [heq]
  · exact hhead
  · exact Nat.zero_lt_succ _

theorem derContent_minimal {v : Nat} (hv : 1 ≤ v) :
    (derContent v).getD 0 0 ≠ 0 ∨ 0x80 ≤ ((derContent v).getD 1 0).toNat := by
  obtain ⟨-, heq⟩ | ⟨hneg, heq⟩ := derContent_cases v <;> rw [heq]
  · exact .inl (fewestBytes_head_ne_zero hv)
  · exact .inr hneg

theorem length_derContent_pos {v : Nat} (hv : 1 ≤ v) : 1 ≤ (derContent v).length := by
  have hpos := length_fewestBytes_pos hv
  obtain ⟨-, heq⟩ | ⟨-, heq⟩ := derContent_cases v <;> rw [heq]
  · exact hpos
  · exact Nat.le_add_left ..

theorem length_derContent_le {v n : Nat} (h : v < 256 ^ n) : (derContent v).length ≤ n + 1 := by
  have hlen := length_fewestBytes_le h
  obtain ⟨-, heq⟩ | ⟨-, heq⟩ := derContent_cases v <;> rw [heq]
  · omega
  · exact Nat.succ_le_succ hlen

/-! The signature. -/

theorem Curve.n_lt_pow_clen (c : Curve) : c.n < 256 ^ c.clen := by cases c <;> decide

theorem Curve.clen_le (c : Curve) : c.clen ≤ 48 := by cases c <;> decide

theorem derSig_eq (r w : Nat) :
    derSig r w = [0x30, BitVec.ofNat 8 ((derContent r).length + (derContent w).length + 4), 0x02,
        BitVec.ofNat 8 (derContent r).length] ++ derContent r
      ++ [0x02, BitVec.ofNat 8 (derContent w).length] ++ derContent w := by
  have hbody : (derInt r ++ derInt w).length = (derContent r).length + (derContent w).length + 4 := by
    rw [List.length_append, length_derInt, length_derInt]
    omega
  dsimp only [derSig]
  rw [hbody, derInt_eq, derInt_eq]
  simp

theorem length_derSig_eq (r w : Nat) :
    (derSig r w).length = (derContent r).length + (derContent w).length + 6 := by
  rw [length_derSig, length_derInt, length_derInt]
  omega

theorem length_derSig_le {c : Curve} {r w : Nat} (hr : r < c.n) (hw : w < c.n) :
    (derSig r w).length ≤ 2 * c.clen + 8 := by
  have hlenr := length_derContent_le (hr.trans c.n_lt_pow_clen)
  have hlenw := length_derContent_le (hw.trans c.n_lt_pow_clen)
  rw [length_derSig_eq]
  omega

/-- The length byte holds the length: a signature on either curve is far shorter than 256 bytes. -/
theorem derSig_lengthByte {c : Curve} {r w : Nat} (hr : r < c.n) (hw : w < c.n) :
    ((derSig r w).getD 1 0).toNat = (derSig r w).length - 2 := by
  have hlen := length_derSig_le hr hw
  have hclen := c.clen_le
  rw [length_derSig_eq] at hlen ⊢
  rw [derSig_eq]
  exact (Nat.mod_eq_of_lt (show _ < 256 by omega)).trans (by omega)

/-- Settles O41: the two byte strings are the contents of the two integers. -/
theorem derSignatureShape : Obligations.DerSignatureShape := by
  unfold Obligations.DerSignatureShape
  intro c r w hr hrn hw hwn
  have hmin : 8 ≤ (derSig r w).length := by
    have hposr := length_derContent_pos hr
    have hposw := length_derContent_pos hw
    rw [length_derSig_eq]
    omega
  exact ⟨hmin, length_derSig_le hrn hwn, rfl, derSig_lengthByte hrn hwn, derContent r, derContent w, derSig_eq r w,
    natBE_derContent r, natBE_derContent w, derContent_head_lt r, derContent_head_lt w, derContent_minimal hr,
    derContent_minimal hw⟩

end Sys2Proof.Machine
end

