-- ==== Sys2Proof/Proofs/EcdsaSigner.lean ====
section
/-! The ECDSA signer: the acceptance test of a nonce, the loop that looks for one, and the command ECSIGN where it
completes (46_ecdsa.md R343 to R349): obligations O38 to O40. -/

namespace Sys2Proof.Machine

/-! The acceptance test (46_ecdsa.md R344). -/

theorem Curve.two_le_n (c : Curve) : 2 ≤ c.n := by cases c <;> decide

/-- What the test of a candidate establishes where it accepts. -/
theorem acceptCandidate_accepted {c : Curve} {d e k r w : Nat} (h : acceptCandidate c d e k = some (r, w)) :
    (1 ≤ k ∧ k ≤ c.n - 1) ∧ 1 ≤ r ∧ 1 ≤ w ∧ w = modinvOf k c.n * (e + r * d) % c.n := by
  unfold acceptCandidate at h
  dsimp only at h
  split_ifs at h with hk hr hw
  injection h with hpair
  injection hpair with hr' hw'
  subst hr'
  subst hw'
  exact ⟨by omega, Nat.pos_of_ne_zero hr, Nat.pos_of_ne_zero hw, rfl⟩

/-- Multiplying by a unit cancels its inverse. -/
theorem mul_modinvOf_mul_mod {k n : Nat} (hn : 2 ≤ n) (hk : k < n) (hunit : Nat.gcd k n = 1) (x : Nat) :
    k * (modinvOf k n * x % n) % n = x % n := by
  have hinv : k * modinvOf k n ≡ 1 [MOD n] :=
    (mul_modinvOf_mod hn ((Nat.mod_eq_of_lt hk).symm ▸ hunit : Nat.gcd (k % n) n = 1)).trans
      (Nat.mod_eq_of_lt hn).symm
  calc k * (modinvOf k n * x % n)
      ≡ k * (modinvOf k n * x) [MOD n] := (Nat.mod_modEq ..).mul_left k
    _ = k * modinvOf k n * x := (mul_assoc ..).symm
    _ ≡ 1 * x [MOD n] := hinv.mul_right x
    _ = x := one_mul x

/-- Settles O40. -/
theorem signatureEquation : Obligations.SignatureEquation := by
  unfold Obligations.SignatureEquation
  intro c d e k r w h
  obtain ⟨⟨hk1, hkn⟩, hr, hw, heq⟩ := acceptCandidate_accepted h
  obtain ⟨hrn, hwn⟩ := acceptCandidate_lt h
  have hk : k < c.n := by omega
  refine ⟨hk1, hkn, hr, hrn, hw, hwn, fun hunit => ?_⟩
  rw [heq]
  exact mul_modinvOf_mul_mod c.two_le_n hk hunit _

/-! The nonce loop (46_ecdsa.md R343, R347). -/

section
variable (a : HashAlg) (qlen rlen : Nat)

/-- The generator's state one candidate later is that of the generator reseeded after its first candidate. -/
theorem drbgAt_succ (g : Drbg) (t : Nat) :
    drbgAt a qlen rlen g (t + 1) = drbgAt a qlen rlen (reseed a (nextCandidate a qlen rlen g).2) t := by
  induction t with
  | zero => rfl
  | succ t ih => rw [drbgAt, ih, drbgAt]

theorem candidateAt_succ (g : Drbg) (t : Nat) :
    candidateAt a qlen rlen g (t + 1) = candidateAt a qlen rlen (reseed a (nextCandidate a qlen rlen g).2) t := by
  rw [candidateAt, drbgAt_succ, candidateAt]

/-- One turn of the loop: the first candidate where it is accepted, else the rest of the loop after a reseed. -/
theorem signLoop_succ (accept : Nat → Option (Nat × Nat)) (fuel : Nat) (g : Drbg) :
    signLoop a qlen rlen accept (fuel + 1) g =
      (accept (candidateAt a qlen rlen g 0)).or
        (signLoop a qlen rlen accept fuel (reseed a (nextCandidate a qlen rlen g).2)) := by
  rw [signLoop, candidateAt, drbgAt]
  cases accept (nextCandidate a qlen rlen g).1 <;> rfl

end

/-- Settles O39, by induction on the bound: the candidates after the first are those of the reseeded generator. -/
theorem nonceCandidatesInOrder : Obligations.NonceCandidatesInOrder := by
  unfold Obligations.NonceCandidatesInOrder
  intro a qlen rlen accept bound g
  induction bound generalizing g with
  | zero => rfl
  | succ bound ih =>
    rw [signLoop_succ, ih, List.range_succ_eq_map, List.findSome?_cons, List.findSome?_map]
    simp only [Function.comp_def, Nat.succ_eq_add_one, candidateAt_succ]
    cases accept (candidateAt a qlen rlen g 0) <;> rfl

/-! ECSIGN (46_ecdsa.md R348). -/

theorem ecdsaSign_of_pair {a : HashAlg} {c : Curve} {h1 : List Byte} {d r w : Nat}
    (h : ecdsaPair a c h1 d = some (r, w)) : ecdsaSign a c h1 d = .ok (derSig r w) := by
  rw [ecdsaSign, h]

theorem exec_ecsign {alg : BitVec 4} {dg : Bool} {a : HashAlg} {c : Curve} {s : State} {sig : List Byte}
    (ha : selectHash alg = some a) (hcurve : selectCurve s = .ok c) (hlen : checkSignLength a dg s = .ok ())
    (hd0 : s.ecD.toNat ≠ 0) (hdn : s.ecD.toNat < c.n)
    (hsig : ecdsaSign a c (signDigest a dg s) s.ecD.toNat = .ok sig) :
    exec (.ecsign alg dg) s = .next (digestEnd sig s) := by
  have hkey : ¬ (s.ecD.toNat = 0 ∨ s.ecD.toNat ≥ c.n) := by omega
  rw [exec, execEcsign, withHash_some ha, hcurve, ok_bind, hlen, ok_bind, faultIf_neg hkey, ok_bind, hsig]
  rfl

/-- Settles O38: the signature's numbers are below the order of the curve, so its length is bounded and fits OUT. -/
theorem ecsignCompletes : Obligations.EcsignCompletes := by
  unfold Obligations.EcsignCompletes
  intro alg dg a c s digest r w ha hcurve hmessage hdigest hd0 hdn hpair
  obtain ⟨hlen, rfl⟩ := signInput_ok hmessage hdigest
  obtain ⟨hr, hw⟩ := ecdsaPair_lt hpair
  have hsig := ecdsaSign_of_pair hpair
  have hfits := length_ecdsaSign_le hsig
  exact ⟨_, exec_ecsign ha hcurve hlen hd0 hdn hsig, endsNormally_digestEnd .., storesOut_digestEnd hfits s,
    (outlen_digestEnd hfits s).trans_le (length_derSig_le hr hw), streamClosed_digestEnd .., digestEnd_frame ..⟩

end Sys2Proof.Machine
end

