-- ==== Sys2Proof/Proofs/InterruptLine.lean ====
section
/-! The interrupt line, a function of STATUS and IE: obligation O55. -/

namespace Sys2Proof.Machine

theorem irq_congr {s t : State} (hstatus : t.status = s.status) (hie : t.ie = s.ie) : irq t = irq s := by
  simp only [irq, doneIe, errIe, hstatus, hie]

/-- Bit 5 of STATUS on the bus, also while BUSY (10_state.md R37, R52). -/
theorem memRead_status_irq (s : State) : (memRead 0x14 s).getLsbD 5 = irq s := by
  rw [memRead_status, statusWord_getLsbD]
  rfl

/-- A write to IE is stored in every state and the line follows it at once: nothing latches it (60_exceptions.md R393). -/
theorem irq_memWrite_ie (s : State) (v : Word) :
    irq (memWrite 0x1C v s) = ((s.status.done && v.getLsbD 0) || (s.status.err && v.getLsbD 1)) := by
  have hwrite : memWrite 0x1C v s = writeIe v s := rfl
  simp [hwrite, irq, doneIe, errIe, writeIe]

/-- Settles O55. -/
theorem interruptLine : Obligations.InterruptLine := by
  unfold Obligations.InterruptLine
  exact ⟨fun s => ⟨rfl, memRead_status_irq s⟩, fun _ _ => irq_congr,
    fun s v hset => (irq_memWrite_ie s v).trans hset, rfl⟩

end Sys2Proof.Machine
end

