-- ==== Sys2Proof/Proofs/SystemCommands.lean ====
section
/-! The system commands, which end normally from every state: obligations O7 and O8. -/

namespace Sys2Proof.Machine

/-- NOP leaves the state as it is, but for the end of the command (47_system.md R370). -/
theorem exec_nop (s : State) : exec .nop s = .next (endNormal s) := rfl

/-- ZEROIZE leaves the data state at zero (47_system.md R371). -/
theorem exec_zeroize (s : State) : exec .zeroize s = .next (endNormal (zeroizeData s)) := rfl

/-- Settles O7. -/
theorem nopCompletes : Obligations.NopCompletes := by
  unfold Obligations.NopCompletes
  exact fun s => ⟨_, exec_nop s, ⟨rfl, rfl, rfl, rfl, rfl, rfl⟩,
    ⟨⟨rfl, rfl, rfl, rfl⟩, ⟨rfl, rfl, rfl, rfl⟩, ⟨rfl, rfl, rfl⟩⟩, ⟨rfl, rfl, rfl⟩, ⟨rfl, rfl, rfl⟩, rfl, rfl, rfl, rfl,
    ⟨fun _ => rfl, rfl⟩⟩

/-- Settles O8: the memory without entries reads zero everywhere, and every other item is zero as `zeroizeData` is
written. -/
theorem zeroizeCompletes : Obligations.ZeroizeCompletes := by
  unfold Obligations.ZeroizeCompletes
  exact fun s => ⟨_, exec_zeroize s, ⟨rfl, rfl, rfl, rfl, rfl, rfl⟩, fun _ => rfl, rfl, rfl, rfl, ⟨rfl, rfl, rfl⟩,
    rfl, rfl, rfl, rfl, rfl, rfl, rfl, rfl, rfl, rfl, rfl, rfl, rfl, rfl, rfl, rfl, rfl⟩

end Sys2Proof.Machine
end

