-- ==== Sys2Proof/Proofs/CheckPhase.lean ====
section
/-! The check phase as a list of conditions: what a command does is the first fault of the list, or, where no condition
holds, its execute phase (60_exceptions.md R386 to R388). -/

namespace Sys2Proof.Machine

/-! Lists of conditions. -/

/-- The conditions in order, then a computation: the fault of the first condition that holds, and the computation where
none does (60_exceptions.md R386, R387). -/
def runChecks {α : Type} : List (Bool × FaultCode) → Except FaultCode α → Except FaultCode α
  | [], x => x
  | (b, c) :: cs, x => if b then .error c else runChecks cs x

section
variable {α β : Type}

theorem runChecks_cons (b : Bool) (c : FaultCode) (cs : List (Bool × FaultCode)) (x : Except FaultCode α) :
    runChecks ((b, c) :: cs) x = if b then .error c else runChecks cs x := rfl

theorem runChecks_of_some {cs : List (Bool × FaultCode)} {c : FaultCode} (x : Except FaultCode α)
    (h : (cs.find? (fun y => y.1)).map (fun y => y.2) = some c) : runChecks cs x = .error c := by
  induction cs with
  | nil => simp at h
  | cons y cs ih =>
    obtain ⟨b, d⟩ := y
    cases b with
    | false => exact ih h
    | true => exact congrArg Except.error (Option.some.inj h)

theorem runChecks_of_none {cs : List (Bool × FaultCode)} (x : Except FaultCode α)
    (h : (cs.find? (fun y => y.1)).map (fun y => y.2) = none) : runChecks cs x = x := by
  induction cs with
  | nil => rfl
  | cons y cs ih =>
    obtain ⟨b, d⟩ := y
    cases b with
    | false => exact ih h
    | true => simp at h

/-- Checks before a selection, and then the rest of the command, are checks before that rest. -/
theorem runChecks_bind (cs : List (Bool × FaultCode)) (a : α) (k : α → Except FaultCode β) :
    (runChecks cs (.ok a) >>= k) = runChecks cs (k a) := by
  induction cs with
  | nil => rfl
  | cons y cs ih =>
    obtain ⟨b, d⟩ := y
    cases b with
    | false => exact ih
    | true => rfl

/-- Two checks in a row that report the same fault are one check of either condition. -/
theorem runChecks_or (a b : Bool) (c : FaultCode) (x : Except FaultCode α) :
    runChecks [(a, c)] (runChecks [(b, c)] x) = runChecks [(a || b, c)] x := by
  cases a <;> rfl

/-- The checks report none but the faults of their list. -/
theorem runChecks_ne_error {cs : List (Bool × FaultCode)} {x : Except FaultCode α} {c : FaultCode}
    (hcs : ∀ y ∈ cs, y.2 ≠ c) (hx : x ≠ .error c) : runChecks cs x ≠ .error c := by
  induction cs with
  | nil => exact hx
  | cons y cs ih =>
    obtain ⟨hy, hrest⟩ := List.forall_mem_cons.1 hcs
    rw [runChecks_cons]
    split
    · simpa using hy
    · exact ih hrest

end

/-! Each check and each selection of the model is a condition of 60_exceptions.md R383 and R385. -/

theorem faultIf_check {p : Prop} [Decidable p] {b : Bool} (h : p ↔ b = true) (c : FaultCode) :
    faultIf p c = runChecks [(b, c)] (.ok ()) := by
  simp only [faultIf, h]
  rfl

theorem faultIf_decide (p : Prop) [Decidable p] (c : FaultCode) :
    faultIf p c = runChecks [(decide p, c)] (.ok ()) := faultIf_check (by simp) c

theorem selectHash_eq : ∀ alg : BitVec 4,
    selectHash alg = if hashUnsupported alg then none else some (namedHash alg) := by decide

/-- HM_ALG as an algorithm, where the context is valid (10_state.md R41). -/
def namedContext (s : State) : HashAlg := s.hmAlg.getD .sha256

section
variable (s : State)

theorem selectCurve_check : selectCurve s = runChecks [(curveUnsupported s, .unsupCurve)] (.ok (namedCurve s)) := by
  obtain ⟨hcurve, hsel⟩ | ⟨hcurve, hsel⟩ | ⟨hone, htwo, hsel⟩ := selectCurve_eq s <;> rw [hsel]
  · simp [runChecks, curveUnsupported, namedCurve, hcurve]
  · simp [runChecks, curveUnsupported, namedCurve, hcurve]
  · simpa [runChecks, curveUnsupported] using ⟨hone, htwo⟩

theorem openStream_check : openStream s = runChecks [(!hopen s, .badSequence)] (.ok (namedStream s)) := by
  unfold openStream hopen namedStream
  cases s.stream <;> rfl

theorem openPlainStream_check :
    openPlainStream s = runChecks [(!hopen s || hmode s, .badSequence)] (.ok (namedStream s)) := by
  unfold openPlainStream hopen hmode namedStream
  cases s.stream <;> rfl

theorem openHmacStream_check :
    openHmacStream s = runChecks [(!hopen s || !hmode s, .badSequence)] (.ok (namedStream s)) := by
  unfold openHmacStream hopen hmode namedStream
  cases s.stream <;> rfl

theorem hmacContext_check : hmacContext s = runChecks [(!hmvalid s, .badSequence)] (.ok (namedContext s)) := by
  unfold hmacContext hmvalid namedContext
  cases s.hmAlg <;> rfl

/-- MSGLEN against MSG_CAP. -/
theorem msgLength_check : faultIf (s.msglen.toNat > Config.msgCap) .badLength
    = runChecks [(msgTooLong s, .badLength)] (.ok ()) := faultIf_decide ..

/-- MSGLEN as HUPDATE wants it: whole blocks (40_hash.md R155). -/
theorem blockLength_check (a : HashAlg) :
    faultIf (s.msglen.toNat > Config.msgCap ∨ s.msglen.toNat % blockBytes a ≠ 0) .badLength
      = runChecks [(msgTooLong s || decide (s.msglen.toNat % blockBytes a ≠ 0), .badLength)] (.ok ()) :=
  faultIf_check (by simp [msgTooLong, Config.msgCap]) _

theorem streamLength_check : faultIf (totalAfter s ≥ lengthLimit (namedStream s)) .lenOverflow
    = runChecks [(streamTooLong s, .lenOverflow)] (.ok ()) := by
  refine faultIf_check ?_ _
  unfold streamTooLong totalAfter
  cases namedStream s <;> simp [lengthLimit]

theorem keyLength_check : faultIf (s.keylen.toNat > Config.keyCap) .badLength
    = runChecks [(decide (256 < s.keylen.toNat), .badLength)] (.ok ()) := faultIf_decide ..

theorem checkCipherLength_check : checkCipherLength s = runChecks [(cipherLengthBad s, .badLength)] (.ok ()) :=
  faultIf_check (by simp [cipherLengthBad, msgTooLong, Config.msgCap, or_assoc]) _

theorem checkCrtOperands_check : checkCrtOperands s = runChecks [(crtOperandBad s, .badOperand)] (.ok ()) :=
  faultIf_check (by simp [crtOperandBad, or_assoc]) _

theorem checkPoint_check (v : Point) :
    checkPoint (namedCurve s) v = runChecks [(pointOperandBad s v, .badOperand)] (.ok ()) :=
  faultIf_check (by simp [pointOperandBad, or_assoc]) _

theorem checkSignLength_check (alg : BitVec 4) (dg : Bool) :
    checkSignLength (namedHash alg) dg s = runChecks [(signLengthBad alg dg s, .badLength)] (.ok ()) := by
  cases dg with
  | false => exact faultIf_check (by simp [signLengthBad, msgTooLong, Config.msgCap]) _
  | true => exact faultIf_check (by simp [signLengthBad]) _

end

end Sys2Proof.Machine
end

