-- ==== Sys2Proof/Proofs/TwoPhases.lean ====
section
/-! Every command is its check phase and then its execute phase (60_exceptions.md R386 to R388). -/

namespace Sys2Proof.Machine

/-- The execute phase of a command, its checks passed: its result, or its late fault (60_exceptions.md R388). -/
def executePhase : Instr → State → Except FaultCode State
  | .nop, s => .ok s
  | .zeroize, s => .ok (zeroizeData s)
  | .hinit alg, s => .ok { s with hst := state0 (namedHash alg), totlen := 0, stream := .plain (namedHash alg) }
  | .hupdate, s =>
    .ok { s with
      hst := absorb (namedStream s) (s.msglen.toNat / blockBytes (namedStream s)) s.hst (msgBytes s)
      totlen := BitVec.ofNat 64 (totalAfter s) }
  | .hfinal, s => .ok (closeStream (setOut (finalize (namedStream s) s.hst (msgBytes s) (totalAfter s)) s))
  | .hcomp alg, s =>
    .ok { s with hst := compress (namedHash alg) s.hst (msgPrefix s (blockBytes (namedHash alg))) }
  | .hash alg, s => .ok (closeStream (setOut (hashOf (namedHash alg) (msgBytes s)) s))
  | .hmkey alg, s =>
    .ok (closeStream { s with
      hmI := ctxI (namedHash alg) (keyBytes s)
      hmO := ctxO (namedHash alg) (keyBytes s)
      hmAlg := some (namedHash alg) })
  | .hminit, s =>
    .ok { s with
      hst := s.hmI
      totlen := BitVec.ofNat 64 (blockBytes (namedContext s))
      stream := .hmac (namedContext s) }
  | .hmfinal, s =>
    .ok (closeStream (setOut (finalize (namedStream s) s.hmO
      (finalize (namedStream s) s.hst (msgBytes s) (totalAfter s))
      (blockBytes (namedStream s) + digestBytes (namedStream s))) s))
  | .hmac alg, s => .ok (closeStream (setOut (hmacOf (namedHash alg) (keyBytes s) (msgBytes s)) s))
  | .tdesd k2 fin, s => cipherExecute (tdesFunction k2 s) fin s
  | .rc2d e128 fin, s => cipherExecute (rc2Function e128 s) fin s
  | .modexp, s => .ok (setBnR (modexpOf s.bnA.toNat s.bnE.toNat s.bnM.toNat) s)
  | .modinv, s => do
    faultIf (Nat.gcd (s.bnA.toNat % s.bnM.toNat) s.bnM.toNat ≠ 1) .notInvertible
    return setBnR (modinvOf s.bnA.toNat s.bnM.toNat) s
  | .modcrt, s => .ok (setBnR (crtKey s.bnA.toNat s.rsa) s)
  | .ecdbl, s => .ok (setPointR (pointOf (jdbl (namedCurve s).p (jacOf s.pP))) s)
  | .ecadd, s => .ok (setPointR (pointOf (jadd (namedCurve s).p (jacOf s.pP) (jacOf s.pQ))) s)
  | .ecmul, s => .ok (setPointR (pointOf (jmul (namedCurve s).p s.ecK.toNat (jacOf s.pP))) s)
  | .ecaff, s => do
    faultIf (s.pP.z.toNat = 0) .pointAtInfinity
    let xy := affine (namedCurve s).p (jacOf s.pP)
    return setPointR (pointOf ⟨xy.1, xy.2, 1⟩) s
  | .ecldg, s => .ok (setPointP (pointOf (namedCurve s).basePoint) s)
  | .rsasign alg dg, s => do
    let sig := rsaSign (namedHash alg) (signDigest (namedHash alg) dg s) (modulusBytes s) s.rsa
    faultIf (sig ≥ 256 ^ modulusBytes s) .keyInconsistent
    return closeStream (setOut (beBytes (modulusBytes s) sig) s)
  | .ecsign alg dg, s => do
    let sig ← ecdsaSign (namedHash alg) (namedCurve s) (signDigest (namedHash alg) dg s) s.ecD.toNat
    return closeStream (setOut sig s)

/-! What an execute phase can answer. -/

section
variable (s : State)

theorem unpad_cases (p : List Byte) : (∃ q, unpad p = .ok q) ∨ unpad p = .error .badPadding := by
  unfold unpad
  dsimp only
  split
  · exact .inr rfl
  · split
    · exact .inr rfl
    · exact .inl ⟨_, rfl⟩

theorem cipherExecute_cases (d : DWord → DWord) (fin : Bool) :
    (∃ q, cipherExecute d fin s = .ok { setOut q s with iv := lastBlock s })
      ∨ cipherExecute d fin s = .error .badPadding := by
  rw [cipherExecute_eq]
  cases fin with
  | false => exact .inl ⟨_, rfl⟩
  | true =>
    obtain ⟨q, hq⟩ | herr := unpad_cases (cipherPlain d s)
    · exact .inl ⟨q, by rw [plainOut, if_pos rfl, hq]; rfl⟩
    · exact .inr (by rw [plainOut, if_pos rfl, herr]; rfl)

theorem ecdsaSign_cases (a : HashAlg) (c : Curve) (h1 : List Byte) (d : Nat) :
    (∃ sig, ecdsaSign a c h1 d = .ok sig) ∨ ecdsaSign a c h1 d = .error .nonceExhausted := by
  unfold ecdsaSign
  cases ecdsaPair a c h1 d with
  | none => exact .inr rfl
  | some rs => exact .inl ⟨_, rfl⟩

/-- An execute phase ends with a result that leaves CMD, IE, the flags and the model's own lists alone, or in the one
late fault of its command. -/
theorem executePhase_cases (i : Instr) :
    (∃ u, executePhase i s = .ok u ∧ endsNormally s (endNormal u))
      ∨ ∃ c ∈ lateFaults i, executePhase i s = .error c := by
  cases i with
  | tdesd k2 fin =>
    obtain ⟨q, hq⟩ | herr := cipherExecute_cases s (tdesFunction k2 s) fin
    · exact .inl ⟨_, hq, endsNormally_cipherEnd q s⟩
    · exact .inr ⟨_, List.mem_singleton_self _, herr⟩
  | rc2d e128 fin =>
    obtain ⟨q, hq⟩ | herr := cipherExecute_cases s (rc2Function e128 s) fin
    · exact .inl ⟨_, hq, endsNormally_cipherEnd q s⟩
    · exact .inr ⟨_, List.mem_singleton_self _, herr⟩
  | modinv =>
    rw [executePhase, faultIf_bind]
    split
    · exact .inr ⟨_, List.mem_singleton_self _, rfl⟩
    · exact .inl ⟨_, rfl, endsNormally_bigIntEnd ..⟩
  | ecaff =>
    rw [executePhase, faultIf_bind]
    split
    · exact .inr ⟨_, List.mem_singleton_self _, rfl⟩
    · exact .inl ⟨_, rfl, endsNormally_pointEnd ..⟩
  | rsasign alg dg =>
    rw [executePhase, faultIf_bind]
    split
    · exact .inr ⟨_, List.mem_singleton_self _, rfl⟩
    · exact .inl ⟨_, rfl, endsNormally_digestEnd ..⟩
  | ecsign alg dg =>
    rw [executePhase]
    obtain ⟨sig, hsig⟩ | herr :=
      ecdsaSign_cases (namedHash alg) (namedCurve s) (signDigest (namedHash alg) dg s) s.ecD.toNat
    · exact .inl ⟨_, by rw [hsig]; rfl, endsNormally_digestEnd sig s⟩
    · exact .inr ⟨_, List.mem_singleton_self _, by rw [herr]; rfl⟩
  | nop | zeroize => exact .inl ⟨_, rfl, rfl, rfl, rfl, rfl, rfl, rfl⟩
  | hinit | hupdate | hcomp | hminit => exact .inl ⟨_, rfl, endsNormally_streamEnd ..⟩
  | hfinal | hash | hmfinal | hmac => exact .inl ⟨_, rfl, endsNormally_digestEnd ..⟩
  | hmkey => exact .inl ⟨_, rfl, rfl, rfl, rfl, rfl, rfl, rfl⟩
  | modexp | modcrt => exact .inl ⟨_, rfl, endsNormally_bigIntEnd ..⟩
  | ecdbl | ecadd | ecmul => exact .inl ⟨_, rfl, endsNormally_pointEnd ..⟩
  | ecldg => exact .inl ⟨_, rfl, endsNormally_loadEnd ..⟩

end

/-- UNSUP_HASH is a fault of decoding, never a late one (30_encoding.md R117). -/
theorem unsupHash_notMem_lateFaults (i : Instr) : .unsupHash ∉ lateFaults i := by
  cases i <;> simp [lateFaults]

theorem executePhase_ne_unsupHash (i : Instr) (s : State) : executePhase i s ≠ .error .unsupHash := by
  intro h
  obtain ⟨u, hu, -⟩ | ⟨c, hc, herr⟩ := executePhase_cases s i
  · exact nomatch hu.symm.trans h
  · obtain rfl : c = .unsupHash := Except.error.inj (herr.symm.trans h)
    exact unsupHash_notMem_lateFaults i hc

/-! A command from its two phases. -/

/-- The result locations that a fault of a command zeroes: none for UNSUP_HASH, which is a fault of decoding
(60_exceptions.md R389, 30_encoding.md R117). -/
def locsOf (i : Instr) (c : FaultCode) : ResultLocs := if c = .unsupHash then .none else faultLocs i

/-- The end of a command: normally with a result, or in a fault with the effect of 60_exceptions.md R389. -/
def endCommand (i : Instr) (s : State) : Except FaultCode State → Host.Outcome State Fault Refusal
  | .ok u => .next (endNormal u)
  | .error c => .next (raiseFault c (locsOf i c) s)

/-- The command is its checks in the order of 60_exceptions.md R387, and then its execute phase. -/
def TwoPhase (i : Instr) (s : State) : Prop :=
  exec i s = endCommand i s (runChecks (checkConditions i s) (executePhase i s))

section
variable {i : Instr} {s : State}

theorem endCommand_eq_finish {r : Except FaultCode State} (h : r ≠ .error .unsupHash) :
    endCommand i s r = finish (faultLocs i) s r := by
  cases r with
  | ok u => rfl
  | error c =>
    have hc : c ≠ .unsupHash := fun hc => h (congrArg _ hc)
    rw [endCommand, locsOf, if_neg hc, finish_error]

/-- A command that takes no hash selector. -/
theorem TwoPhase.of_finish {r : Except FaultCode State} (hexec : exec i s = finish (faultLocs i) s r)
    (hcodes : ∀ y ∈ checkConditions i s, y.2 ≠ .unsupHash)
    (hr : r = runChecks (checkConditions i s) (executePhase i s)) : TwoPhase i s := by
  rw [TwoPhase, hexec, hr, endCommand_eq_finish (runChecks_ne_error hcodes (executePhase_ne_unsupHash i s))]

/-- A command that takes a hash selector: UNSUP_HASH is its first check, and the only one that zeroes nothing (log 6). -/
theorem TwoPhase.of_withHash {alg : BitVec 4} {r : HashAlg → Except FaultCode State} {cs : List (Bool × FaultCode)}
    (hexec : exec i s = withHash alg s fun a => finish (faultLocs i) s (r a))
    (hcs : checkConditions i s = (hashUnsupported alg, .unsupHash) :: cs)
    (hcodes : ∀ y ∈ cs, y.2 ≠ .unsupHash)
    (hr : r (namedHash alg) = runChecks cs (executePhase i s)) : TwoPhase i s := by
  have hsel := selectHash_eq alg
  rw [TwoPhase, hexec, hcs, runChecks_cons]
  cases halg : hashUnsupported alg with
  | false =>
    rw [halg, if_neg Bool.false_ne_true] at hsel
    rw [withHash_some hsel, hr, if_neg Bool.false_ne_true,
      endCommand_eq_finish (runChecks_ne_error hcodes (executePhase_ne_unsupHash i s))]
  | true =>
    rw [halg, if_pos rfl] at hsel
    rw [withHash_none hsel, if_pos rfl]
    rfl

end

/-! The commands. -/

section
variable (s : State)

theorem twoPhase_nop : TwoPhase .nop s := rfl

theorem twoPhase_zeroize : TwoPhase .zeroize s := rfl

theorem twoPhase_hinit (alg : BitVec 4) : TwoPhase (.hinit alg) s :=
  .of_withHash rfl rfl (by simp) rfl

theorem twoPhase_hupdate : TwoPhase .hupdate s := by
  refine .of_finish rfl (by simp [checkConditions]) ?_
  simp only [openStream_check, blockLength_check, streamLength_check, runChecks_bind]
  rfl

theorem twoPhase_hfinal : TwoPhase .hfinal s := by
  refine .of_finish rfl (by simp [checkConditions]) ?_
  simp only [openPlainStream_check, msgLength_check, streamLength_check, runChecks_bind]
  rfl

theorem twoPhase_hcomp (alg : BitVec 4) : TwoPhase (.hcomp alg) s := by
  refine .of_withHash rfl rfl (by simp) ?_
  simp only [faultIf_decide, runChecks_bind]
  rfl

theorem twoPhase_hash (alg : BitVec 4) : TwoPhase (.hash alg) s := by
  refine .of_withHash rfl rfl (by simp) ?_
  simp only [msgLength_check, runChecks_bind]
  rfl

theorem twoPhase_hmkey (alg : BitVec 4) : TwoPhase (.hmkey alg) s := by
  refine .of_withHash rfl rfl (by simp) ?_
  simp only [keyLength_check, runChecks_bind]
  rfl

theorem twoPhase_hminit : TwoPhase .hminit s := by
  refine .of_finish rfl (by simp [checkConditions]) ?_
  simp only [hmacContext_check, runChecks_bind]
  rfl

theorem twoPhase_hmfinal : TwoPhase .hmfinal s := by
  refine .of_finish rfl (by simp [checkConditions]) ?_
  simp only [openHmacStream_check, msgLength_check, streamLength_check, runChecks_bind]
  rfl

theorem twoPhase_hmac (alg : BitVec 4) : TwoPhase (.hmac alg) s := by
  refine .of_withHash rfl rfl (by simp) ?_
  simp only [keyLength_check, msgLength_check, runChecks_bind]
  rfl

theorem twoPhase_tdesd (k2 fin : Bool) : TwoPhase (.tdesd k2 fin) s := by
  refine .of_finish rfl (by simp [checkConditions]) ?_
  simp only [faultIf_decide, checkCipherLength_check, runChecks_bind]
  rfl

theorem twoPhase_rc2d (e128 fin : Bool) : TwoPhase (.rc2d e128 fin) s := by
  refine .of_finish rfl (by simp [checkConditions]) ?_
  simp only [faultIf_decide, Bool.decide_or, checkCipherLength_check, runChecks_bind]
  rfl

theorem twoPhase_modexp : TwoPhase .modexp s := by
  refine .of_finish rfl (by simp [checkConditions]) ?_
  simp only [faultIf_decide, runChecks_bind]
  rfl

theorem twoPhase_modinv : TwoPhase .modinv s := by
  refine .of_finish rfl (by simp [checkConditions]) ?_
  rw [faultIf_decide (s.bnM.toNat < 2), runChecks_bind]
  rfl

theorem twoPhase_modcrt : TwoPhase .modcrt s := by
  refine .of_finish rfl (by simp [checkConditions]) ?_
  simp only [checkCrtOperands_check, runChecks_bind]
  rfl

theorem twoPhase_ecdbl : TwoPhase .ecdbl s := by
  refine .of_finish rfl (by simp [checkConditions]) ?_
  simp only [selectCurve_check, checkPoint_check, runChecks_bind]
  rfl

theorem twoPhase_ecadd : TwoPhase .ecadd s := by
  refine .of_finish rfl (by simp [checkConditions]) ?_
  simp only [selectCurve_check, checkPoint_check, runChecks_bind, runChecks_or]
  rfl

theorem twoPhase_ecmul : TwoPhase .ecmul s := by
  refine .of_finish rfl (by simp [checkConditions]) ?_
  simp only [selectCurve_check, checkPoint_check, runChecks_bind]
  rfl

theorem twoPhase_ecaff : TwoPhase .ecaff s := by
  refine .of_finish rfl (by simp [checkConditions]) ?_
  simp only [selectCurve_check, checkPoint_check, runChecks_bind]
  rfl

theorem twoPhase_ecldg : TwoPhase .ecldg s := by
  refine .of_finish rfl (by simp [checkConditions]) ?_
  simp only [selectCurve_check, runChecks_bind]
  rfl

theorem twoPhase_rsasign (alg : BitVec 4) (dg : Bool) : TwoPhase (.rsasign alg dg) s := by
  refine .of_withHash rfl rfl (by simp) ?_
  rw [checkSignLength_check, runChecks_bind, faultIf_decide (_ ∨ _), runChecks_bind, checkCrtOperands_check,
    runChecks_bind, faultIf_decide (_ > modulusBytes s), runChecks_bind]
  simp only [Bool.decide_or, runChecks_or]
  rfl

theorem twoPhase_ecsign (alg : BitVec 4) (dg : Bool) : TwoPhase (.ecsign alg dg) s := by
  refine .of_withHash rfl rfl (by simp) ?_
  simp only [selectCurve_check, checkSignLength_check, faultIf_decide, Bool.decide_or, runChecks_bind]
  rfl

/-- Every command is its check phase and then its execute phase. -/
theorem twoPhase_exec (i : Instr) : TwoPhase i s := by
  cases i with
  | nop => exact twoPhase_nop s
  | zeroize => exact twoPhase_zeroize s
  | hinit alg => exact twoPhase_hinit s alg
  | hupdate => exact twoPhase_hupdate s
  | hfinal => exact twoPhase_hfinal s
  | hcomp alg => exact twoPhase_hcomp s alg
  | hash alg => exact twoPhase_hash s alg
  | hmkey alg => exact twoPhase_hmkey s alg
  | hminit => exact twoPhase_hminit s
  | hmfinal => exact twoPhase_hmfinal s
  | hmac alg => exact twoPhase_hmac s alg
  | tdesd k2 fin => exact twoPhase_tdesd s k2 fin
  | rc2d e128 fin => exact twoPhase_rc2d s e128 fin
  | modexp => exact twoPhase_modexp s
  | modinv => exact twoPhase_modinv s
  | modcrt => exact twoPhase_modcrt s
  | ecdbl => exact twoPhase_ecdbl s
  | ecadd => exact twoPhase_ecadd s
  | ecmul => exact twoPhase_ecmul s
  | ecaff => exact twoPhase_ecaff s
  | ecldg => exact twoPhase_ecldg s
  | rsasign alg dg => exact twoPhase_rsasign s alg dg
  | ecsign alg dg => exact twoPhase_ecsign s alg dg

end

end Sys2Proof.Machine
end

