-- ==== Sys2Proof/Proofs/CommandFaults.lean ====
section
/-! How commands end: in the first fault of the check phase, in their late fault, or normally: obligations O42 to O45. -/

namespace Sys2Proof.Machine

/-- TAKING A FAULT has the whole effect of 60_exceptions.md R389, whatever the result locations. -/
theorem raiseFault_faultedFrom (c : FaultCode) (l : ResultLocs) (s : State) : faultedFrom c l s (raiseFault c l s) := by
  cases l with
  | none => exact raiseFault_none_faultedFrom c s
  | out =>
    exact ⟨rfl, rfl, rfl, rfl, rfl, rfl, ⟨⟨rfl, rfl, rfl, rfl⟩, ⟨rfl, rfl, rfl, rfl⟩, ⟨rfl, rfl, rfl⟩⟩, ⟨rfl, rfl, rfl⟩,
      ⟨rfl, rfl, rfl⟩, rfl, rfl, storesOut_setOut (Nat.zero_le _) s, rfl, rfl⟩
  | bnR | pointR =>
    exact ⟨rfl, rfl, rfl, rfl, rfl, rfl, ⟨⟨rfl, rfl, rfl, rfl⟩, ⟨rfl, rfl, rfl, rfl⟩, ⟨rfl, rfl, rfl⟩⟩, ⟨rfl, rfl, rfl⟩,
      ⟨rfl, rfl, rfl⟩, rfl, rfl, ⟨fun _ => rfl, rfl⟩, rfl, rfl⟩

/-! The two phases (60_exceptions.md R386 to R388). -/

section
variable {i : Instr} {s : State} {c : FaultCode}

theorem exec_of_checkFault (h : checkFault i s = some c) : exec i s = .next (raiseFault c (locsOf i c) s) := by
  rw [twoPhase_exec s i, runChecks_of_some _ h]
  rfl

theorem exec_of_checks_passed (h : checkFault i s = none) : exec i s = endCommand i s (executePhase i s) := by
  rw [twoPhase_exec s i, runChecks_of_none _ h]

theorem locsOf_of_ne (h : c ≠ .unsupHash) : locsOf i c = faultLocs i := if_neg h

/-- A late fault discards the work done and has the effect of a check-phase fault (60_exceptions.md R388). -/
theorem exec_lateFault (h : checkFault i s = none) (hlate : executePhase i s = .error c) :
    ∃ t, exec i s = .next t ∧ faultedFrom c (faultLocs i) s t := by
  have hc : c ≠ .unsupHash := fun hc => executePhase_ne_unsupHash i s (hc ▸ hlate)
  refine ⟨_, ?_, raiseFault_faultedFrom c (faultLocs i) s⟩
  rw [exec_of_checks_passed h, hlate, endCommand, locsOf_of_ne hc]

end

/-! The obligations. -/

/-- Settles O43. -/
theorem checkPhaseFaultsInOrder : Obligations.CheckPhaseFaultsInOrder := by
  unfold Obligations.CheckPhaseFaultsInOrder
  exact fun i s c h => ⟨_, exec_of_checkFault h, raiseFault_faultedFrom ..⟩

/-- Settles O44. -/
theorem onlyLateFaultsAfterChecks : Obligations.OnlyLateFaultsAfterChecks := by
  unfold Obligations.OnlyLateFaultsAfterChecks
  intro i s h
  obtain ⟨u, hu, hends⟩ | ⟨c, hc, herr⟩ := executePhase_cases s i
  · exact ⟨_, by rw [exec_of_checks_passed h, hu, endCommand], .inl hends⟩
  · obtain ⟨t, ht, hfault⟩ := exec_lateFault h herr
    exact ⟨t, ht, .inr ⟨c, hc, hfault⟩⟩

/-- Settles O42: the check phase reports a fault, or O44 says how the command ends after it. -/
theorem everyCommandEnds : Obligations.EveryCommandEnds := by
  unfold Obligations.EveryCommandEnds
  intro i s
  cases h : checkFault i s with
  | some c =>
    obtain ⟨t, ht, hfault⟩ := checkPhaseFaultsInOrder i s c h
    refine ⟨t, ht, .inr ?_⟩
    by_cases hc : c = .unsupHash
    · subst hc
      exact .inr hfault
    · rw [if_neg hc] at hfault
      exact .inl ⟨c, hc, hfault⟩
  | none =>
    obtain ⟨t, ht, hends | ⟨c, hc, hfault⟩⟩ := onlyLateFaultsAfterChecks i s h
    · exact ⟨t, ht, .inl hends⟩
    · have hne : c ≠ .unsupHash := fun hne => unsupHash_notMem_lateFaults i (hne ▸ hc)
      exact ⟨t, ht, .inr (.inl ⟨c, hne, hfault⟩)⟩

/-! When each late fault happens. -/

section
variable {s : State}

theorem cipherExecute_badPadding {d : DWord → DWord} (h : unpad (cipherPlain d s) = .error .badPadding) :
    cipherExecute d true s = .error .badPadding := by
  rw [cipherExecute_eq, plainOut, if_pos rfl, h]
  rfl

theorem executePhase_modinv_notInvertible (h : Nat.gcd (s.bnA.toNat % s.bnM.toNat) s.bnM.toNat ≠ 1) :
    executePhase .modinv s = .error .notInvertible := by
  rw [executePhase, faultIf_pos h]
  rfl

theorem executePhase_ecaff_pointAtInfinity (h : s.pP.z = 0) : executePhase .ecaff s = .error .pointAtInfinity := by
  have hz : s.pP.z.toNat = 0 := by simp [h]
  rw [executePhase, faultIf_pos hz]
  rfl

theorem executePhase_rsasign_keyInconsistent {alg : BitVec 4} {dg : Bool} (h : 256 ^ modulusBytes s ≤
    rsaSign (namedHash alg) (signDigest (namedHash alg) dg s) (modulusBytes s) s.rsa) :
    executePhase (.rsasign alg dg) s = .error .keyInconsistent := by
  rw [executePhase, faultIf_pos h]
  rfl

theorem executePhase_ecsign_nonceExhausted {alg : BitVec 4} {dg : Bool} (h : ecdsaPair (namedHash alg) (namedCurve s)
    (signDigest (namedHash alg) dg s) s.ecD.toNat = none) :
    executePhase (.ecsign alg dg) s = .error .nonceExhausted := by
  rw [executePhase, ecdsaSign, h]
  rfl

theorem executePhase_ecsign_of_pair {alg : BitVec 4} {dg : Bool} {p : Nat × Nat} (h : ecdsaPair (namedHash alg)
    (namedCurve s) (signDigest (namedHash alg) dg s) s.ecD.toNat = some p) :
    executePhase (.ecsign alg dg) s = .ok (closeStream (setOut (derSig p.1 p.2) s)) := by
  rw [executePhase, ecdsaSign_of_pair h]
  rfl

/-- ECSIGN, its checks passed, ends as the nonce loop does (46_ecdsa.md R349). -/
theorem exec_ecsign_of_checks_passed {alg : BitVec 4} {dg : Bool} (h : checkFault (.ecsign alg dg) s = none) :
    ∃ t, exec (.ecsign alg dg) s = .next t
      ∧ if ecdsaPair (namedHash alg) (namedCurve s) (signDigest (namedHash alg) dg s) s.ecD.toNat = none
        then faultedFrom .nonceExhausted .out s t else endsNormally s t := by
  cases hpair : ecdsaPair (namedHash alg) (namedCurve s) (signDigest (namedHash alg) dg s) s.ecD.toNat with
  | none =>
    obtain ⟨t, ht, hfault⟩ := exec_lateFault h (executePhase_ecsign_nonceExhausted hpair)
    exact ⟨t, ht, (if_pos rfl).mpr hfault⟩
  | some p =>
    refine ⟨digestEnd (derSig p.1 p.2) s, ?_, ?_⟩
    · rw [exec_of_checks_passed h, executePhase_ecsign_of_pair hpair]
      rfl
    · exact (if_neg (Option.some_ne_none p)).mpr (endsNormally_digestEnd ..)

end

/-- Settles O45. -/
theorem lateFaultConditions : Obligations.LateFaultConditions := by
  unfold Obligations.LateFaultConditions
  exact ⟨fun _ _ h hpad => exec_lateFault h (cipherExecute_badPadding hpad),
    fun _ _ h hpad => exec_lateFault h (cipherExecute_badPadding hpad),
    fun _ h hgcd => exec_lateFault h (executePhase_modinv_notInvertible hgcd),
    fun _ h hz => exec_lateFault h (executePhase_ecaff_pointAtInfinity hz),
    fun _ _ _ h hsig => exec_lateFault h (executePhase_rsasign_keyInconsistent hsig),
    fun _ _ _ h => exec_ecsign_of_checks_passed h⟩

end Sys2Proof.Machine
end
